-- ==== Sys2Proof/Word.lean ====
section
/-! DEFINITION. The word and byte types of the block (rules R7, R35). -/

namespace Sys2Proof

/-- A word of space REG, and one entry of RES or SMP: 32 bits, bit 31 the most significant (R7). -/
abbrev Word := BitVec 32

/-- One byte of BSMEM (R34). -/
abbrev Byte := BitVec 8

end Sys2Proof
end

