-- ==== Sys2Proof/Config.lean ====
section
/-! DEFINITION. What an implementation fixes (rule R2) and the free values of the model: constants without a body, of
which nothing can be evaluated or proved. -/

namespace Sys2Proof

/-- The open parameters of R2. `maxn` is the depth of RES and SMP and the largest legal SAMPLE_COUNT, `bsbytes` the size
of BSMEM in bytes, `pb0` whether a Rice suffix of value 0 gives a bit back (`PB0 = 1`; conflict C1, D4). -/
structure Params where
  maxn : Nat
  bsbytes : Nat
  pb0 : Bool
  deriving DecidableEq, Repr

/-- The ranges R2 gives: `1 <= MAXN <= 2^32 - 1`, `1 <= BSBYTES <= 2^28`. -/
def Params.wf (p : Params) : Bool :=
  decide (1 ≤ p.maxn) && decide (p.maxn ≤ 2 ^ 32 - 1) && decide (1 ≤ p.bsbytes) && decide (p.bsbytes ≤ 2 ^ 28)

/-- PB0 as the number of bits given back (R2). -/
def Params.giveBackOnZero (p : Params) : Nat := p.pb0.toNat

/-- A place whose value the spec leaves unspecified: a register or buffer entry after a mid-command fault (R176), a
location of REG that reads as an unspecified word (R10, R14, R44), an access the block refuses (R42). -/
inductive FreeSite where
  | bitpos
  | history
  | signModifier
  | rdIdx
  | prIdx
  | coef (i : Nat)
  | res (i : Nat)
  | smp (i : Nat)
  | cmdRead
  | unusedReg (off : Nat)
  | refusedReg (off : Nat)
  | refusedRes (i : Nat)
  | refusedSmp (i : Nat)
  | refusedByte (a : Nat)
  deriving DecidableEq, Repr

namespace Config

/-- The free word of draw number `n` at a place the spec leaves unspecified (log 4, log 5). -/
opaque freeWord : Nat → FreeSite → Word

/-- What entry `i` of RES holds after hardware reset (R32, R190: unspecified; log 3). -/
opaque resetRes : Nat → Word

/-- What entry `i` of SMP holds after hardware reset (R33, R190: unspecified; log 3). -/
opaque resetSmp : Nat → Word

/-- What byte `a` of BSMEM holds after hardware reset (R34, R190: unspecified; log 3). -/
opaque resetByte : Nat → Byte

/-- PB0 of the block that `State.reset` stands for (R2, D4: open; log 2). -/
opaque pb0 : Bool

/-- The parameters of the block that `State.reset` stands for: the sizes R2 suggests (log 1). -/
def resetParams : Params := { maxn := 4096, bsbytes := 65536, pb0 := pb0 }

/-- The unary run length that means escape (R2). -/
def escLen : Nat := 9

/-- The field width of the zero-run count (R2). -/
def zrunWidth : Nat := 16

end Config

end Sys2Proof
end

