-- ==== Sys2Proof/Syntax.lean ====
section
/-! DEFINITION. The instructions of ALAC-RPE: one constructor per row of the opcode table (the command words of
rules R60 to R62 and the codewords of rules R63 to R66), and the accesses a host makes (rules R135 to R137). -/

namespace Sys2Proof

/-- One constructor per row of the opcode table. A command has no operands (R60); a reserved command carries the whole
word (R62). A codeword carries what the decoder learns from its bits: CW_SHORT nothing beyond its prefix, CW_RICE the
Rice parameter `k` it is read under and the suffix value `s` of `k` bits (R65), CW_ESC the field width `w` and the
field value `f` (R66). -/
inductive Instr where
  | nop
  | rdRun
  | prRun
  | sfRun
  | clrFault
  | softReset
  | reservedCmd (w : Word)
  | cwShortP0
  | cwShortP1
  | cwShortP2
  | cwShortP3
  | cwShortP4
  | cwShortP5
  | cwShortP6
  | cwShortP7
  | cwShortP8
  | cwRiceP0 (k s : Nat)
  | cwRiceP1 (k s : Nat)
  | cwRiceP2 (k s : Nat)
  | cwRiceP3 (k s : Nat)
  | cwRiceP4 (k s : Nat)
  | cwRiceP5 (k s : Nat)
  | cwRiceP6 (k s : Nat)
  | cwRiceP7 (k s : Nat)
  | cwRiceP8 (k s : Nat)
  | cwEsc (w f : Nat)
  deriving DecidableEq, Repr

/-- A codeword of the bit stream by its format (R63): `p` one-bits and a zero-bit; the same and a `k`-bit suffix `s`;
nine one-bits and a `w`-bit field `f`. -/
inductive Codeword where
  | short (p : Nat)
  | rice (p k s : Nat)
  | esc (w f : Nat)
  deriving DecidableEq, Repr

/-- One access of the host (R135, R136, R137). `wsmp` is a host write to SMP, which the block ignores (R33). -/
inductive HostAccess where
  | wr (off : Nat) (w : Word)
  | rd (off : Nat)
  | wres (i : Nat) (v : Word)
  | rres (i : Nat)
  | wsmp (i : Nat) (v : Word)
  | rsmp (i : Nat)
  | wbs (a : Nat) (b : Byte)
  | rbs (a : Nat)
  deriving DecidableEq, Repr

end Sys2Proof
end

