-- ==== Sys2Proof/Machine/State.lean ====
section
/-! DEFINITION. The state of ALAC-RPE (10_state.md), the reasons a step can stop, and the state after reset (R38, R190). -/

namespace Sys2Proof.Machine

/-- One address space as a list of (index, value) pairs in canonical form (`Memory.wf`): indices strictly rising, one
entry for each index that has been written. An index that is not listed holds an unspecified value (log 3). For
BSMEM this is a list of `Host.Cell`. -/
abbrev Memory (width : Nat) := List (Nat × BitVec width)

/-- Where the engine stands inside a command. The spec has no such register: a command is atomic (R8), and every state
between two steps of a run from reset is `idle`. The other points let one codeword, or one sample, be run as a step of
its own (log 7). `sf` says whether the command is SF_RUN. STATUS.BUSY is 1 exactly when this is not `idle` (R15).
`residual`: RD stands before a residual code (R99 step 1). `zeroRun`: RD stands before a zero-run code (R98).
`predict`: PR stands before a sample (R117). -/
inductive Engine where
  | idle
  | residual (sf : Bool)
  | zeroRun (sf : Bool)
  | predict (sf : Bool)
  deriving DecidableEq, Repr

/-- Reasons for a step to stop the machine for good: there is none. The faults of the block (R170) are its exceptions:
they are entered as R176 describes and leave a next state (`enterFault`), and the block has no other way to stop. -/
inductive Fault where
  deriving DecidableEq, Repr

/-- Why an instruction has no meaning in a state. -/
inductive Refusal where
  /-- Raised by an arm of `exec` whose instruction has no meaning yet. Safe: the machine stops. -/
  | notModelled (mnemonic : String)
  /-- Raised by every command executed while a command is running: "a CMD write while BUSY = 1 has no defined meaning"
  (R134, R201). Safe: the machine stops; no step does it. -/
  | commandWhileBusy
  /-- Raised by every codeword executed where RD reads no codeword: no residual block is being decoded, or it is
  complete (R80 to R82 are no commands, R100). Safe: the machine stops; no step does it. -/
  | codewordNotDue
  /-- Raised by every codeword whose format or field width is not the one the state selects (R63, R67). Safe: the
  machine stops; no step does it. -/
  | codewordNotSelected
  deriving DecidableEq, Repr

/-- Everything the spec gives the block, and the model's own fields at the end. A register of REG holds the 32-bit word
as written (R10). -/
@[ext]
structure State where
  /-- STATUS.DONE (R15). -/
  done : Bool
  /-- STATUS.FAULT (R15). -/
  fault : Bool
  /-- FAULT_CODE, bits 7:0; the rest reads 0 (R16). -/
  faultCode : Byte
  /-- HISTORY_MULT (R17). -/
  historyMult : Word
  /-- INITIAL_HISTORY (R18). -/
  initialHistory : Word
  /-- MAXIMUM_K (R19). -/
  maximumK : Word
  /-- SAMPLE_SIZE (R20). -/
  sampleSize : Word
  /-- SAMPLE_COUNT (R21). -/
  sampleCount : Word
  /-- BITPOS, the bit cursor (R22). -/
  bitpos : Word
  /-- BITEND (R23). -/
  bitend : Word
  /-- PRED_TYPE (R24). -/
  predType : Word
  /-- QLP_SHIFT (R25). -/
  qlpShift : Word
  /-- RICE_MODIFIER (R26). -/
  riceModifier : Word
  /-- ORDER (R27). -/
  order : Word
  /-- HISTORY (R28). -/
  history : Word
  /-- SIGN_MODIFIER (R13, R29). -/
  signModifier : Bool
  /-- RD_IDX (R30). -/
  rdIdx : Word
  /-- PR_IDX (R31). -/
  prIdx : Word
  /-- COEF[0..31] (R11). -/
  coef : Vector Word 32
  /-- RES (R32). -/
  res : Memory 32
  /-- SMP (R33). -/
  smp : Memory 32
  /-- BSMEM (R34). -/
  bsmem : Memory 8
  /-- The open parameters (R2); no step changes them (log 1). -/
  params : Params
  /-- Where inside a command the engine stands (log 7). -/
  engine : Engine
  /-- The accesses the host is still to make, oldest first (log 6). -/
  host : List HostAccess
  /-- The word the last host read returned (log 6). -/
  reply : Option Word
  /-- The number of the next free draw (log 5). -/
  draws : Nat
  /-- How many reads the host has made (log 5). -/
  reads : Nat
  deriving DecidableEq, Repr

/-- The state right after hardware reset (R38, R190): every register of REG 0; RES, SMP and BSMEM unspecified, which is
nothing listed. -/
def State.reset : State where
  done := false
  fault := false
  faultCode := 0
  historyMult := 0
  initialHistory := 0
  maximumK := 0
  sampleSize := 0
  sampleCount := 0
  bitpos := 0
  bitend := 0
  predType := 0
  qlpShift := 0
  riceModifier := 0
  order := 0
  history := 0
  signModifier := false
  rdIdx := 0
  prIdx := 0
  coef := Vector.replicate 32 0
  res := []
  smp := []
  bsmem := []
  params := Config.resetParams
  engine := .idle
  host := []
  reply := none
  draws := 0
  reads := 0

end Sys2Proof.Machine
end

