-- ==== Sys2Proof/Machine/Ops.lean ====
section
/-! DEFINITION. The named operations over memory and registers: the arithmetic of rules R4 to R6, the four address
spaces (R35), the registers and their one home (R10, R38, R135), and fault entry (R170, R176), which is the block's
only exception, with the acceptance of a command (R134, R177). -/

namespace Sys2Proof.Machine

/-! ### Arithmetic -/

/-- `a >> n`: floor division by `2^n`, an arithmetic right shift (R4). -/
def asr (a : Int) (n : Nat) : Int := a / (2 : Int) ^ n

/-- `floor(log2 x)` for `x >= 1` (R5). The value at 0 is never used: R97 faults first. -/
def ilog2 (x : Nat) : Nat := Nat.log2 x

/-- `sgn(v)` (R6). -/
def sgn (v : Int) : Int := if 0 < v then 1 else if v < 0 then -1 else 0

/-- Whether an exact result fits a signed 32-bit entry (R3, R32, R33). -/
def fitsEntry (x : Int) : Bool := decide (-2 ^ 31 ≤ x) && decide (x ≤ 2 ^ 31 - 1)

/-- Whether an exact result is a signed 16-bit coefficient (R11). -/
def fitsCoef (x : Int) : Bool := decide (-32768 ≤ x) && decide (x ≤ 32767)

/-! ### The buffers -/

/-- The value listed at an index. -/
def Memory.get? {width : Nat} : Memory width → Nat → Option (BitVec width)
  | [], _ => none
  | (a, v) :: m, b => if a = b then some v else Memory.get? m b

/-- A write, which keeps the canonical form (`Memory.wf_set`). -/
def Memory.set {width : Nat} : Memory width → Nat → BitVec width → Memory width
  | [], b, x => [(b, x)]
  | (a, v) :: m, b, x =>
    if b < a then (b, x) :: (a, v) :: m
    else if a = b then (b, x) :: m
    else (a, v) :: Memory.set m b x

/-- The entries below `n` take the values `f` gives, the others keep theirs. -/
def Memory.fill {width : Nat} (n : Nat) (f : Nat → BitVec width) (m : Memory width) : Memory width :=
  (List.range n).map (fun i => (i, f i)) ++ m.filter (fun c => decide (n ≤ c.1))

/-- The canonical form: indices strictly rising. An unlisted index reads as an unspecified value, which no listed value
equals by rule, so no entry is ever redundant. -/
abbrev Memory.wf {width : Nat} (m : Memory width) : Prop := (m.map Prod.fst).Pairwise (· < ·)

/-- Every listed index lies below `n`. -/
abbrev Memory.below {width : Nat} (n : Nat) (m : Memory width) : Prop := ∀ c ∈ m, c.1 < n

/-- RES[i] as a word: an entry nothing has written since reset is unspecified (R32). -/
def resWord (s : State) (i : Nat) : Word := (s.res.get? i).getD (Config.resetRes i)

/-- SMP[i] as a word (R33). -/
def smpWord (s : State) (i : Nat) : Word := (s.smp.get? i).getD (Config.resetSmp i)

/-- BSMEM[a] (R34). -/
def bsByte (s : State) (a : Nat) : Byte := (s.bsmem.get? a).getD (Config.resetByte a)

/-- RES[i], a signed entry (R32). -/
def resAt (s : State) (i : Nat) : Int := (resWord s i).toInt

/-- SMP[i], a signed entry (R33). -/
def smpAt (s : State) (i : Nat) : Int := (smpWord s i).toInt

/-- `RES[i] <- r`. -/
def setRes (s : State) (i : Nat) (r : Int) : State := { s with res := s.res.set i (BitVec.ofInt 32 r) }

/-- `SMP[i] <- x`. -/
def setSmp (s : State) (i : Nat) (x : Int) : State := { s with smp := s.smp.set i (BitVec.ofInt 32 x) }

/-! ### Registers -/

/-- COEF[j] as the 32-bit word its register holds. The engine reads `j < ORDER <= 31` only; an index above 31 names no
register and reads 0 here (log 12). -/
def coefWord (s : State) (j : Nat) : Word := (s.coef[j]?).getD 0

/-- COEF[j], `sext_32` of the stored word (R11). -/
def coefAt (s : State) (j : Nat) : Int := (coefWord s j).toInt

/-- `COEF[j] <- c`, sign-extended in the word (R11, R38). -/
def setCoef (s : State) (j : Nat) (c : Int) : State :=
  { s with coef := s.coef.setIfInBounds j (BitVec.ofInt 32 c) }

/-- The registers of REG by name (R38). -/
inductive Reg where
  | cmd
  | status
  | faultCode
  | historyMult
  | initialHistory
  | maximumK
  | sampleSize
  | sampleCount
  | bitpos
  | bitend
  | predType
  | qlpShift
  | riceModifier
  | order
  | history
  | signModifier
  | rdIdx
  | prIdx
  | coef (i : Nat)
  deriving DecidableEq, Repr

/-- The register at a byte offset of REG; none at the unused offsets 0x00C, 0x02C, 0x050 to 0x07C, at a misaligned offset
and above 0x0FC (R38, R42, R44). -/
def regAt (off : Nat) : Option Reg :=
  match off with
  | 0x000 => some .cmd
  | 0x004 => some .status
  | 0x008 => some .faultCode
  | 0x010 => some .historyMult
  | 0x014 => some .initialHistory
  | 0x018 => some .maximumK
  | 0x01C => some .sampleSize
  | 0x020 => some .sampleCount
  | 0x024 => some .bitpos
  | 0x028 => some .bitend
  | 0x030 => some .predType
  | 0x034 => some .qlpShift
  | 0x038 => some .riceModifier
  | 0x03C => some .order
  | 0x040 => some .history
  | 0x044 => some .signModifier
  | 0x048 => some .rdIdx
  | 0x04C => some .prIdx
  | _ => if off % 4 = 0 ∧ 0x080 ≤ off ∧ off ≤ 0x0FC then some (.coef ((off - 0x080) / 4)) else none

/-- The byte offset of a register (R38). -/
def offsetOf : Reg → Nat
  | .cmd => 0x000
  | .status => 0x004
  | .faultCode => 0x008
  | .historyMult => 0x010
  | .initialHistory => 0x014
  | .maximumK => 0x018
  | .sampleSize => 0x01C
  | .sampleCount => 0x020
  | .bitpos => 0x024
  | .bitend => 0x028
  | .predType => 0x030
  | .qlpShift => 0x034
  | .riceModifier => 0x038
  | .order => 0x03C
  | .history => 0x040
  | .signModifier => 0x044
  | .rdIdx => 0x048
  | .prIdx => 0x04C
  | .coef i => 0x080 + 4 * i

/-- STATUS.BUSY (R15). -/
def busy (s : State) : Bool := s.engine != .idle

/-- STATUS as it reads: `BUSY + 2*DONE + 4*FAULT` (R15, R135). -/
def statusWord (s : State) : Word :=
  BitVec.ofNat 32 ((busy s).toNat + 2 * s.done.toNat + 4 * s.fault.toNat)

/-- The word a register reads as; CMD is write-only and gives none (R14, R135). -/
def readReg (s : State) : Reg → Option Word
  | .cmd => none
  | .status => some (statusWord s)
  | .faultCode => some (s.faultCode.setWidth 32)
  | .historyMult => some s.historyMult
  | .initialHistory => some s.initialHistory
  | .maximumK => some s.maximumK
  | .sampleSize => some s.sampleSize
  | .sampleCount => some s.sampleCount
  | .bitpos => some s.bitpos
  | .bitend => some s.bitend
  | .predType => some s.predType
  | .qlpShift => some s.qlpShift
  | .riceModifier => some s.riceModifier
  | .order => some s.order
  | .history => some s.history
  | .signModifier => some (BitVec.ofNat 32 s.signModifier.toNat)
  | .rdIdx => some s.rdIdx
  | .prIdx => some s.prIdx
  | .coef i => some (coefWord s i)

/-- A host write to a register other than CMD: an RW register takes the word as written, unchecked; an RO register
ignores it (R10, R135). A write to CMD is a command and does not come here. -/
def writeReg (s : State) (w : Word) : Reg → State
  | .cmd => s
  | .status => s
  | .faultCode => s
  | .historyMult => { s with historyMult := w }
  | .initialHistory => { s with initialHistory := w }
  | .maximumK => { s with maximumK := w }
  | .sampleSize => { s with sampleSize := w }
  | .sampleCount => { s with sampleCount := w }
  | .bitpos => { s with bitpos := w }
  | .bitend => { s with bitend := w }
  | .predType => { s with predType := w }
  | .qlpShift => { s with qlpShift := w }
  | .riceModifier => { s with riceModifier := w }
  | .order => { s with order := w }
  | .history => s
  | .signModifier => s
  | .rdIdx => s
  | .prIdx => s
  | .coef i => { s with coef := s.coef.setIfInBounds i w }

/-! ### Faults -/

/-- The faults of the block (R170). -/
inductive BlockFault where
  | truncated
  | format
  | unsupported
  | config
  | zeroRun
  | log2Zero
  | shiftZero
  | histOvf
  | coefOvf
  | sampleOvf
  | badCmd
  deriving DecidableEq, Repr

/-- The value FAULT_CODE takes (R170). -/
def faultCodeOf : BlockFault → Byte
  | .truncated => 1
  | .format => 2
  | .unsupported => 3
  | .config => 4
  | .zeroRun => 5
  | .log2Zero => 6
  | .shiftZero => 7
  | .histOvf => 8
  | .coefOvf => 9
  | .sampleOvf => 10
  | .badCmd => 12

/-- Codes 1 and 5 to 10 are raised in the middle of a command; codes 2, 3, 4 and 12 before it does anything (R176). -/
def midCommand : BlockFault → Bool
  | .truncated => true
  | .format => false
  | .unsupported => false
  | .config => false
  | .zeroRun => true
  | .log2Zero => true
  | .shiftZero => true
  | .histOvf => true
  | .coefOvf => true
  | .sampleOvf => true
  | .badCmd => false

/-- Which of the three working commands runs. -/
inductive Run where
  | rd
  | pr
  | sf
  deriving DecidableEq, Repr

/-- RES is unspecified after a fault of RD_RUN or SF_RUN (R176). -/
def usesRes : Run → Bool
  | .rd => true
  | .pr => false
  | .sf => true

/-- SMP is unspecified after a fault of PR_RUN or SF_RUN (R176). -/
def usesSmp : Run → Bool
  | .rd => false
  | .pr => true
  | .sf => true

/-- A free coefficient: any value of its type, a signed 16-bit number, sign-extended in the word (R11, R176). -/
def freeCoef (n j : Nat) : Word := ((Config.freeWord n (.coef j)).setWidth 16).signExtend 32

/-- COEF after a mid-command fault: the entries below ORDER are free (R176). -/
def freeCoefs (s : State) : Vector Word 32 :=
  Vector.ofFn fun j : Fin 32 => if j.val < s.order.toNat then freeCoef s.draws j.val else s.coef[j]

/-- The state a mid-command fault leaves unspecified, drawn free: BITPOS, HISTORY, SIGN_MODIFIER, RD_IDX, PR_IDX,
COEF[0..ORDER-1], and RES and SMP below SAMPLE_COUNT as the command uses them (R176, U4). -/
def unspecify (run : Run) (s : State) : State :=
  { s with
    bitpos := Config.freeWord s.draws .bitpos
    history := Config.freeWord s.draws .history
    signModifier := (Config.freeWord s.draws .signModifier).getLsbD 0
    rdIdx := Config.freeWord s.draws .rdIdx
    prIdx := Config.freeWord s.draws .prIdx
    coef := freeCoefs s
    res := if usesRes run then s.res.fill s.sampleCount.toNat (fun i => Config.freeWord s.draws (.res i)) else s.res
    smp := if usesSmp run then s.smp.fill s.sampleCount.toNat (fun i => Config.freeWord s.draws (.smp i)) else s.smp
    draws := s.draws + 1 }

/-- Fault entry without the unspecified part: FAULT set, FAULT_CODE the code, BUSY cleared, DONE not written (R176). -/
def recordFault (e : BlockFault) (s : State) : State :=
  { s with fault := true, faultCode := faultCodeOf e, engine := .idle }

/-- Fault entry, the block's only exception (R176): nothing is saved and control goes nowhere. -/
def enterFault (run : Run) (e : BlockFault) (s : State) : State :=
  recordFault e (if midCommand e then unspecify run s else s)

/-! ### Commands -/

/-- What a command that ended did: the state it reached, or the fault it raised, entered from the state it started in
(the locations it may have changed are the ones R176 leaves unspecified). -/
def settle (run : Run) (start : State) : Except BlockFault State → State
  | .ok t => t
  | .error e => enterFault run e start

/-- Acceptance of a command other than CLR_FAULT and SOFT_RESET: ignored while FAULT is 1 (R134, R177). A command while
one is running has no defined meaning (R134, R201, U10). -/
def ifAccepted (s : State) (effect : State) : Host.Outcome State Fault Refusal :=
  if busy s then .refused .commandWhileBusy
  else if s.fault then .next s
  else .next effect

/-- Acceptance of CLR_FAULT and SOFT_RESET, which FAULT does not hold back (R134, R177). -/
def ifIdle (s : State) (effect : State) : Host.Outcome State Fault Refusal :=
  if busy s then .refused .commandWhileBusy else .next effect

/-- What a working command starts from: DONE cleared (R134). -/
def clearDone (s : State) : State := { s with done := false }

/-- The end of a working command: DONE set, BUSY cleared (R15, R134). -/
def finish (s : State) : State := { s with done := true, engine := .idle }

end Sys2Proof.Machine
end

