-- ==== Sys2Proof/Machine/Flags.lean ====
section
/-! DEFINITION. The one flag that takes part in computation, SIGN_MODIFIER (R13, R29), and the tests that choose a path
(R138). The status flags are written by fault entry, acceptance and completion in Ops. -/

namespace Sys2Proof.Machine

/-- `SIGN_MODIFIER <- 0`. -/
def clearSm (s : State) : State := { s with signModifier := false }

/-- RD.SM: the pending modifier is added and cleared (R92). -/
def rdSm (v : Nat) (s : State) : Nat × State :=
  (v + s.signModifier.toNat, clearSm s)

/-- The modifier a zero-run of length `z` leaves: 1 when `z <= 0xFFFF` (R98). -/
def zrunModifier (z : Nat) (old : Bool) : Bool := if z ≤ 0xFFFF then true else old

/-- Whether a zero-run code follows the residual just stored: HISTORY below 128 and not the last residual needed (R98). -/
def zeroRunDue (s : State) : Bool :=
  decide (s.history.toNat < 128) && decide (s.rdIdx.toNat + 1 < s.sampleCount.toNat)

end Sys2Proof.Machine
end

