-- ==== Sys2Proof/Machine/Predictor.lean ====
section
/-! DEFINITION. The predictor reconstructor (family PR, 42_predictor.md): PR.WARM, PR.PRED, PR.NEW, PR.ADAPT, PR.STEP and
the command PR_RUN, as their pseudocode stands (R111 to R118), with its configuration check (R174). Throughout `o` is
ORDER, `sh` QLP_SHIFT and `t` PR_IDX (R110). -/

namespace Sys2Proof.Machine

/-- A new sample: stored when it fits the entry, a fault otherwise (R111, R114, D8). -/
def storeSample (t : Nat) (x : Int) (s : State) : Except BlockFault State :=
  if fitsEntry x then .ok (setSmp s t x) else .error .sampleOvf

/-- PR.WARM(t): a running sum of residuals (R111). -/
def prWarm (t : Nat) (s : State) : Except BlockFault State :=
  storeSample t (if t = 0 then resAt s 0 else smpAt s (t - 1) + resAt s t) s

/-- The sum of PR.PRED over the first `n` coefficients; COEF[j] meets the sample `j + 1` places back (R112, R113). -/
def lpcSum (s : State) (t : Nat) (base : Int) : Nat → Int
  | 0 => 0
  | j + 1 => lpcSum s t base j + coefAt s j * (smpAt s (t - 1 - j) - base)

/-- PR.PRED(t): the base and the predicted difference (R112). -/
def prPred (t : Nat) (s : State) : Except BlockFault (Int × Int) :=
  let o := s.order.toNat
  let sh := s.qlpShift.toNat
  if sh = 0 then .error .shiftZero
  else
    let base := smpAt s (t - o - 1)
    .ok (base, asr (lpcSum s t base o + 2 ^ (sh - 1)) sh)

/-- PR.NEW(t, base, pd) (R114). -/
def prNew (t : Nat) (base pd : Int) (s : State) : Except BlockFault State :=
  storeSample t (pd + resAt s t + base) s

/-- One adjustment: `COEF[idx] <- c` when `c` is a 16-bit value, a fault otherwise (R115, D9). -/
def storeCoef (idx : Nat) (c : Int) (s : State) : Except BlockFault State :=
  if fitsCoef c then .ok (setCoef s idx c) else .error .coefOvf

/-- How far one adjustment moves the remainder: `(abs(val) >> sh) * (o - idx)` (R115 corner case f). -/
def adaptStep (val : Int) (sh o idx : Nat) : Int := asr |val| sh * ((o : Int) - idx)

/-- The loop of PR.ADAPT for a positive residual, from index `n - 1` down: stop as soon as the remainder is `<= 0` (R115). -/
def adaptPos (t : Nat) (base : Int) : Nat → Int → State → Except BlockFault State
  | 0, _, s => pure s
  | idx + 1, rem, s => do
    let val := base - smpAt s (t - 1 - idx)
    let s ← storeCoef idx (coefAt s idx - sgn val) s
    let rem := rem - adaptStep val s.qlpShift.toNat s.order.toNat idx
    if rem ≤ 0 then pure s else adaptPos t base idx rem s

/-- The loop of PR.ADAPT for a negative residual, from index `n - 1` down: go on only while the remainder is `< 0` (R115). -/
def adaptNeg (t : Nat) (base : Int) : Nat → Int → State → Except BlockFault State
  | 0, _, s => pure s
  | idx + 1, rem, s =>
    if rem < 0 then do
      let val := base - smpAt s (t - 1 - idx)
      let s ← storeCoef idx (coefAt s idx + sgn val) s
      adaptNeg t base idx (rem + adaptStep val s.qlpShift.toNat s.order.toNat idx) s
    else pure s

/-- PR.ADAPT(t, base): the branch is chosen by the sign of the residual itself; a residual of 0 adapts nothing (R115). -/
def prAdapt (t : Nat) (base : Int) (s : State) : Except BlockFault State :=
  let r := resAt s t
  if 0 < r then adaptPos t base s.order.toNat r s
  else if r < 0 then adaptNeg t base s.order.toNat r s
  else pure s

/-- `t <- t + 1`. -/
def nextSample (s : State) : State := { s with prIdx := BitVec.ofNat 32 (s.prIdx.toNat + 1) }

/-- Steps of PR.STEP in the steady state (R112, R114, R115). -/
def prSteady (t : Nat) (s : State) : Except BlockFault State := do
  let (base, pd) ← prPred t s
  let s ← prNew t base pd s
  prAdapt t base s

/-- PR.STEP: sample PR_IDX (R116, R117). -/
def prStep (s : State) : Except BlockFault State := do
  let t := s.prIdx.toNat
  let o := s.order.toNat
  let s ← if o = 0 ∨ t ≤ o then prWarm t s else prSteady t s
  pure (nextSample s)

/-- `while PR_IDX < SAMPLE_COUNT: PR.STEP()` (R118). Every PR.STEP advances PR_IDX by one, so SAMPLE_COUNT rounds are
enough (R208). -/
def prLoop : Nat → State → Except BlockFault State
  | 0, s => pure s
  | n + 1, s =>
    if s.prIdx.toNat < s.sampleCount.toNat then do
      let s ← prStep s
      prLoop n s
    else pure s

/-- Whether COEF[0..n-1] all hold 16-bit values (R11, R174). -/
def coefsLegal (s : State) : Nat → Bool
  | 0 => true
  | n + 1 => coefsLegal s n && fitsCoef (coefAt s n)

/-- check_config_PR, in the order written (R174). -/
def checkConfigPr (s : State) : Except BlockFault Unit :=
  if s.predType.toNat > 15 then .error .config
  else if s.predType.toNat ≠ 0 then .error .unsupported
  else if s.order.toNat > 31 then .error .format
  else if s.qlpShift.toNat > 15 then .error .config
  else if s.sampleCount.toNat > s.params.maxn then .error .config
  else if coefsLegal s s.order.toNat then .ok ()
  else .error .config

/-- `PR_IDX <- 0` (R118). -/
def startPr (s : State) : State := { s with prIdx := 0 }

/-- The sample loop of a whole sub-frame. -/
def prBlock (s : State) : Except BlockFault State := prLoop s.sampleCount.toNat (startPr s)

/-- PR_RUN up to its end (R118). -/
def prRunBody (s : State) : Except BlockFault State := do
  checkConfigPr s
  let s ← prBlock s
  pure (finish s)

/-- PR_RUN (R118, R134). -/
def execPrRun (s : State) : Host.Outcome State Fault Refusal :=
  ifAccepted s (settle .pr (clearDone s) (prRunBody (clearDone s)))

end Sys2Proof.Machine
end

