-- ==== Sys2Proof/WellFormed.lean ====
section
/-! DEFINITION. Which terms of `Instr` stand for an encoding (rules R62, R65, R66, R80). -/

namespace Sys2Proof

/-- A suffix read under Rice parameter `k`: `1 <= k <= 23` (R80, R90) and `s` has `k` bits (R65). -/
def suffixWf (k s : Nat) : Bool :=
  decide (1 ≤ k) && decide (k ≤ 23) && decide (s < 2 ^ k)

/-- An escape field: `1 <= w <= 31` (R20, R66) and `f` has `w` bits. -/
def fieldWf (w f : Nat) : Bool :=
  decide (1 ≤ w) && decide (w ≤ 31) && decide (f < 2 ^ w)

/-- A reserved command word is none of the six commands (R62). -/
def reservedWf (w : Word) : Bool :=
  decide (5 < w.toNat)

def Instr.wf : Instr → Bool
  | .nop => true
  | .rdRun => true
  | .prRun => true
  | .sfRun => true
  | .clrFault => true
  | .softReset => true
  | .reservedCmd w => reservedWf w
  | .cwShortP0 => true
  | .cwShortP1 => true
  | .cwShortP2 => true
  | .cwShortP3 => true
  | .cwShortP4 => true
  | .cwShortP5 => true
  | .cwShortP6 => true
  | .cwShortP7 => true
  | .cwShortP8 => true
  | .cwRiceP0 k s => suffixWf k s
  | .cwRiceP1 k s => suffixWf k s
  | .cwRiceP2 k s => suffixWf k s
  | .cwRiceP3 k s => suffixWf k s
  | .cwRiceP4 k s => suffixWf k s
  | .cwRiceP5 k s => suffixWf k s
  | .cwRiceP6 k s => suffixWf k s
  | .cwRiceP7 k s => suffixWf k s
  | .cwRiceP8 k s => suffixWf k s
  | .cwEsc w f => fieldWf w f

end Sys2Proof
end

