-- ==== Sys2Proof/Decode.lean ====
section
/-! DEFINITION. From bits to instructions and back: the command word (rules R60 to R62) and the modified Rice codeword
(rules R63 to R66). A codeword is decoded under a Rice parameter `k` and a field width `w` that are not in the stream
(R63, R67). -/

namespace Sys2Proof

/-- Why a bit string is no codeword: it ends inside the prefix, the suffix or the escape field (R69 knows no other
way), or the prefix count is none of 0 to 8 (no prefix gives that). -/
inductive Reject where
  | truncatedPrefix
  | truncatedSuffix
  | truncatedField
  | noSuchPrefix
  deriving DecidableEq, Repr

/-- The command a word written to CMD stands for (R61, R62). -/
def decodeCommand (w : Word) : Instr :=
  match w.toNat with
  | 0 => .nop
  | 1 => .rdRun
  | 2 => .prRun
  | 3 => .sfRun
  | 4 => .clrFault
  | 5 => .softReset
  | _ => .reservedCmd w

/-- The capped unary prefix (R64): with `left` ones still allowed and `p` counted, the count at the terminating zero,
or `none` when the cap is reached without one; and the bits after it. -/
def unaryPrefix : Nat → Nat → List Bool → Option (Option Nat × List Bool)
  | 0, _, bits => some (none, bits)
  | _ + 1, _, [] => none
  | _ + 1, p, false :: bits => some (some p, bits)
  | left + 1, p, true :: bits => unaryPrefix left (p + 1) bits

/-- An unsigned field of the given number of bits, the first bit the most significant (R40). -/
def takeField : Nat → Nat → List Bool → Option (Nat × List Bool)
  | 0, acc, bits => some (acc, bits)
  | _ + 1, _, [] => none
  | n + 1, acc, b :: bits => takeField n (2 * acc + b.toNat) bits

/-- Format CW_SHORT by its prefix (R63). -/
def shortInstr (p : Nat) : Option Instr :=
  match p with
  | 0 => some .cwShortP0
  | 1 => some .cwShortP1
  | 2 => some .cwShortP2
  | 3 => some .cwShortP3
  | 4 => some .cwShortP4
  | 5 => some .cwShortP5
  | 6 => some .cwShortP6
  | 7 => some .cwShortP7
  | 8 => some .cwShortP8
  | _ => none

/-- Format CW_RICE by its prefix (R63). -/
def riceInstr (p k s : Nat) : Option Instr :=
  match p with
  | 0 => some (.cwRiceP0 k s)
  | 1 => some (.cwRiceP1 k s)
  | 2 => some (.cwRiceP2 k s)
  | 3 => some (.cwRiceP3 k s)
  | 4 => some (.cwRiceP4 k s)
  | 5 => some (.cwRiceP5 k s)
  | 6 => some (.cwRiceP6 k s)
  | 7 => some (.cwRiceP7 k s)
  | 8 => some (.cwRiceP8 k s)
  | _ => none

def orReject (i : Option Instr) (rest : List Bool) : Except Reject (Instr × List Bool) :=
  match i with
  | some i => .ok (i, rest)
  | none => .error .noSuchPrefix

/-- One codeword at the head of a bit string, and the bits after the ones it reads (R63 to R66). A suffix bit that is
given back (R65) is read here all the same; how far the cursor moves is `Codeword.length`. -/
def decodeCodeword (k w : Nat) (bits : List Bool) : Except Reject (Instr × List Bool) :=
  match unaryPrefix Config.escLen 0 bits with
  | none => .error .truncatedPrefix
  | some (none, rest) =>
    match takeField w 0 rest with
    | none => .error .truncatedField
    | some (f, rest) => .ok (.cwEsc w f, rest)
  | some (some p, rest) =>
    if k = 0 then orReject (shortInstr p) rest
    else
      match takeField k 0 rest with
      | none => .error .truncatedSuffix
      | some (s, rest) => orReject (riceInstr p k s) rest

/-- What the host writes to CMD, or a string of stream bits in consumption order. -/
inductive Encoded where
  | command (w : Word)
  | codeword (bits : List Bool)
  deriving DecidableEq, Repr

def decode (k w : Nat) : Encoded → Except Reject (Instr × List Bool)
  | .command x => .ok (decodeCommand x, [])
  | .codeword bits => decodeCodeword k w bits

/-! The encoder, written from the same tables. -/

/-- `n` bits of `v`, the most significant first (R40). -/
def fieldBits : Nat → Nat → List Bool
  | 0, _ => []
  | n + 1, v => v.testBit n :: fieldBits n v

/-- The prefix of `p` ones and its terminating zero (R64). -/
def prefixBits (p : Nat) : List Bool := List.replicate p true ++ [false]

/-- The codeword an instruction stands for, if it is one. -/
def Instr.codeword? : Instr → Option Codeword
  | .nop => none
  | .rdRun => none
  | .prRun => none
  | .sfRun => none
  | .clrFault => none
  | .softReset => none
  | .reservedCmd _ => none
  | .cwShortP0 => some (.short 0)
  | .cwShortP1 => some (.short 1)
  | .cwShortP2 => some (.short 2)
  | .cwShortP3 => some (.short 3)
  | .cwShortP4 => some (.short 4)
  | .cwShortP5 => some (.short 5)
  | .cwShortP6 => some (.short 6)
  | .cwShortP7 => some (.short 7)
  | .cwShortP8 => some (.short 8)
  | .cwRiceP0 k s => some (.rice 0 k s)
  | .cwRiceP1 k s => some (.rice 1 k s)
  | .cwRiceP2 k s => some (.rice 2 k s)
  | .cwRiceP3 k s => some (.rice 3 k s)
  | .cwRiceP4 k s => some (.rice 4 k s)
  | .cwRiceP5 k s => some (.rice 5 k s)
  | .cwRiceP6 k s => some (.rice 6 k s)
  | .cwRiceP7 k s => some (.rice 7 k s)
  | .cwRiceP8 k s => some (.rice 8 k s)
  | .cwEsc w f => some (.esc w f)

/-- The bits of a codeword as the table writes them (R63, R66). -/
def codewordBits : Codeword → List Bool
  | .short p => prefixBits p
  | .rice p k s => prefixBits p ++ fieldBits k s
  | .esc w f => List.replicate Config.escLen true ++ fieldBits w f

/-- The encoding of an instruction (R61, R62, R63). -/
def encode : Instr → Encoded
  | .nop => .command 0
  | .rdRun => .command 1
  | .prRun => .command 2
  | .sfRun => .command 3
  | .clrFault => .command 4
  | .softReset => .command 5
  | .reservedCmd w => .command w
  | .cwShortP0 => .codeword (codewordBits (.short 0))
  | .cwShortP1 => .codeword (codewordBits (.short 1))
  | .cwShortP2 => .codeword (codewordBits (.short 2))
  | .cwShortP3 => .codeword (codewordBits (.short 3))
  | .cwShortP4 => .codeword (codewordBits (.short 4))
  | .cwShortP5 => .codeword (codewordBits (.short 5))
  | .cwShortP6 => .codeword (codewordBits (.short 6))
  | .cwShortP7 => .codeword (codewordBits (.short 7))
  | .cwShortP8 => .codeword (codewordBits (.short 8))
  | .cwRiceP0 k s => .codeword (codewordBits (.rice 0 k s))
  | .cwRiceP1 k s => .codeword (codewordBits (.rice 1 k s))
  | .cwRiceP2 k s => .codeword (codewordBits (.rice 2 k s))
  | .cwRiceP3 k s => .codeword (codewordBits (.rice 3 k s))
  | .cwRiceP4 k s => .codeword (codewordBits (.rice 4 k s))
  | .cwRiceP5 k s => .codeword (codewordBits (.rice 5 k s))
  | .cwRiceP6 k s => .codeword (codewordBits (.rice 6 k s))
  | .cwRiceP7 k s => .codeword (codewordBits (.rice 7 k s))
  | .cwRiceP8 k s => .codeword (codewordBits (.rice 8 k s))
  | .cwEsc w f => .codeword (codewordBits (.esc w f))

/-- The Rice parameter a codeword is read under: 0 for CW_SHORT, its own `k` for CW_RICE; CW_ESC is read under any
(R63, table column "selected_by"). -/
def Codeword.readUnder (k w : Nat) : Codeword → Bool
  | .short _ => k == 0
  | .rice _ k' _ => k == k' && k' != 0
  | .esc w' _ => w == w'

/-! The words of the opcode table as the host of this pipeline numbers them. -/

/-- How many bytes the longest codeword takes: nine ones and a field of 31 bits (R208). -/
def fetchBytes : Nat := 5

/-- Byte `j` of an instruction of `nbits` bits `w`, zero above `nbits`. -/
def tableByte (nbits w j : Nat) : Byte := BitVec.ofNat 8 ((w % 2 ^ nbits) >>> (8 * j))

/-- The bits of a codeword row, byte by byte, each byte's most significant bit first (R40). -/
def tableBits (nbits w : Nat) : List Bool :=
  (List.range fetchBytes).flatMap fun j => fieldBits 8 (tableByte nbits w j).toNat

/-- The field width a codeword row is read under here: the longest (R20). -/
def tableFieldWidth : Nat := 31

/-- The instruction read from a row's bits: 32 bits are a command word (R60), anything else stream bits, read with
`k = 0`, which is what the reset value of MAXIMUM_K gives (R90), and the widest escape field (log 11). -/
def decodeTableWord (nbits w : Nat) : Option Instr :=
  if nbits = 32 then some (decodeCommand (BitVec.ofNat 32 w))
  else
    match decodeCodeword 0 tableFieldWidth (tableBits nbits w) with
    | .ok (i, _) => some i
    | .error _ => none

end Sys2Proof
end

