-- ==== Sys2Proof/Machine/Operands.lean ====
section
/-! DEFINITION. The parameters a codeword is read under (rules R67, R90, R97) and the value and length of a codeword in
every format (rule R66). -/

namespace Sys2Proof.Machine

/-- RD.K: the Rice parameter of the next residual code (R90). -/
def rdK (s : State) : Nat := min (ilog2 (s.history.toNat / 512 + 3)) s.maximumK.toNat

/-- RD.ZK: the Rice parameter of a zero-run code; E_LOG2_ZERO when HISTORY is 0 (R97). It is asked for only when HISTORY
is below 128, so that `7 - ilog2 HISTORY` is no less than 1. -/
def rdZk (s : State) : Except BlockFault Nat :=
  if s.history.toNat = 0 then .error .log2Zero
  else .ok (min (7 - ilog2 s.history.toNat + (s.history.toNat + 16) / 64) s.maximumK.toNat)

/-- The value of a codeword (R66): the prefix; `p*(2^k - 1) + s - 1` for a suffix of 2 or more, `p*(2^k - 1)` for a
suffix of 0 or 1 (R65); the escape field. -/
def codewordValue : Codeword → Nat
  | .short p => p
  | .rice p k s => if 2 ≤ s then p * (2 ^ k - 1) + (s - 1) else p * (2 ^ k - 1)
  | .esc _ f => f

/-- How many bits are read to decode a codeword, all of which must lie below BITEND (R66). -/
def codewordReads : Codeword → Nat
  | .short p => p + 1
  | .rice p k _ => p + 1 + k
  | .esc w _ => Config.escLen + w

/-- How many of the bits read are given back: one for suffix 1, PB0 for suffix 0 (R65). -/
def codewordGivesBack (pb0 : Nat) : Codeword → Nat
  | .short _ => 0
  | .rice _ _ s => if 2 ≤ s then 0 else if s = 1 then 1 else pb0
  | .esc _ _ => 0

/-- By how much BITPOS ends up advanced (R66). -/
def codewordLength (pb0 : Nat) (c : Codeword) : Nat := codewordReads c - codewordGivesBack pb0 c

end Sys2Proof.Machine
end

