-- ==== Sys2Proof/Machine/BitSource.lean ====
section
/-! DEFINITION. The bit source (family BS, 40_bitsource.md): the bit sequence (R40), the cursor, and the three
primitives BS.READ, BS.UNARY9 and BS.UNREAD (R80, R81, R82), as their pseudocode stands. -/

namespace Sys2Proof.Machine

/-- `b(p)`: bit `7 - (p mod 8)` of byte `p div 8` (R40). -/
def bitAt (s : State) (p : Nat) : Bool := (bsByte s (p / 8)).getLsbD (7 - p % 8)

/-- BITPOS moved forward by `n` bits. -/
def advance (n : Nat) (s : State) : State := { s with bitpos := BitVec.ofNat 32 (s.bitpos.toNat + n) }

/-- The value of the `n` bits from position `p` on, the first the most significant (R40). -/
def fieldAt (s : State) (p : Nat) : Nat → Nat
  | 0 => 0
  | n + 1 => 2 * fieldAt s p n + (bitAt s (p + n)).toNat

/-- BS.READ(n) (R80). -/
def bsRead (n : Nat) (s : State) : Except BlockFault (Nat × State) :=
  if s.bitpos.toNat + n > s.bitend.toNat then .error .truncated
  else .ok (fieldAt s s.bitpos.toNat n, advance n s)

/-- The loop of BS.UNARY9, with `left` ones still allowed and `p` counted (R81). -/
def bsUnaryFrom : Nat → Nat → State → Except BlockFault (Option Nat × State)
  | 0, _, s => .ok (none, s)
  | left + 1, p, s =>
    if s.bitpos.toNat + 1 > s.bitend.toNat then .error .truncated
    else if bitAt s s.bitpos.toNat then bsUnaryFrom left (p + 1) (advance 1 s)
    else .ok (some p, advance 1 s)

/-- BS.UNARY9(): the count at the terminating zero, or `none` for ESC (R81). -/
def bsUnary9 (s : State) : Except BlockFault (Option Nat × State) := bsUnaryFrom Config.escLen 0 s

/-- BS.UNREAD(n) (R82). -/
def bsUnread (n : Nat) (s : State) : State := { s with bitpos := BitVec.ofNat 32 (s.bitpos.toNat - n) }

/-- The bits from position `p` on, `n` of them, in consumption order. -/
def bitsFrom (s : State) (p : Nat) : Nat → List Bool
  | 0 => []
  | n + 1 => bitAt s p :: bitsFrom s (p + 1) n

/-- The stream bits a codeword under `k` and `w` can take: at most nine and a suffix or field, and none at or beyond
BITEND (R45, R63). -/
def streamWindow (s : State) (k w : Nat) : List Bool :=
  bitsFrom s s.bitpos.toNat (min (s.bitend.toNat - s.bitpos.toNat) (Config.escLen + max k w))

end Sys2Proof.Machine
end

