-- ==== Sys2Proof/Machine/Residual.lean ====
section
/-! DEFINITION. The residual decoder (family RD, 41_residual_decoder.md): RD.CODE, RD.MAP, RD.STORE, RD.HIST, RD.ZRUN,
RD.STEP and the command RD_RUN, as their pseudocode stands (R91, R94 to R100), with its configuration check (R174). RD.K
and RD.ZK are in Operands, RD.SM in Flags. -/

namespace Sys2Proof.Machine

/-- RD.CODE(k, w): one codeword by the primitives (R91). -/
def rdCode (k w : Nat) (s : State) : Except BlockFault (Nat × State) := do
  let (prefixRead, s) ← bsUnary9 s
  match prefixRead with
  | none => bsRead w s
  | some p =>
    if k = 0 then pure (p, s)
    else do
      let (suffix, s) ← bsRead k s
      if suffix ≥ 2 then pure (p * (2 ^ k - 1) + (suffix - 1), s)
      else if suffix = 1 then pure (p * (2 ^ k - 1), bsUnread 1 s)
      else pure (p * (2 ^ k - 1), bsUnread s.params.giveBackOnZero s)

/-- RD.MAP(u): unsigned to signed (R68, R94). -/
def rdMap (u : Nat) : Int := if u % 2 = 1 then -(((u + 1) / 2 : Nat) : Int) else ((u / 2 : Nat) : Int)

/-- RD.STORE(i, r) (R95). -/
def rdStore (i : Nat) (r : Int) (s : State) : State := setRes s i r

/-- The exact value of the history update of step 5 (R96). -/
def histUpdate (h m u : Nat) : Int := (h : Int) + (u * m : Nat) - ((h * m) / 2 ^ 9 : Nat)

/-- `HISTORY <- h`. -/
def setHistory (h : Word) (s : State) : State := { s with history := h }

/-- RD.HIST(u) (R96). -/
def rdHist (u : Nat) (s : State) : Except BlockFault State :=
  if u ≤ 0xFFFF then
    let h := histUpdate s.history.toNat s.historyMult.toNat u
    if h > 2 ^ 32 - 1 then .error .histOvf
    else .ok (setHistory (BitVec.ofInt 32 h) s)
  else .ok (setHistory 0xFFFF s)

/-- Steps 3 to 5 on the value of a residual code: the sign modifier, the sign folding, the store at RD_IDX, the history
update (R99). -/
def useResidual (v : Nat) (s : State) : Except BlockFault State :=
  let (u, s) := rdSm v s
  rdHist u (rdStore s.rdIdx.toNat (rdMap u) s)

/-- Zeros at the `z` entries from `i` on. -/
def storeZeros : Nat → Nat → Memory 32 → Memory 32
  | 0, _, m => m
  | z + 1, i, m => storeZeros z (i + 1) (m.set i 0)

/-- `z` zero residuals after the one at RD_IDX, HISTORY 0 and the modifier they leave (R98). -/
def insertZeros (z : Nat) (s : State) : State :=
  { s with
    res := storeZeros z (s.rdIdx.toNat + 1) s.res
    rdIdx := BitVec.ofNat 32 (s.rdIdx.toNat + z)
    history := 0
    signModifier := zrunModifier z s.signModifier }

/-- The rest of RD.ZRUN once the count `z` is read (R98). -/
def useZeroRun (z : Nat) (s : State) : Except BlockFault State :=
  if z > s.sampleCount.toNat - (s.rdIdx.toNat + 1) then .error .zeroRun
  else .ok (insertZeros z s)

/-- RD.ZRUN, after residual RD_IDX has been stored and HISTORY updated (R98). -/
def rdZrun (s : State) : Except BlockFault State := do
  if zeroRunDue s then
    let zk ← rdZk s
    let (z, s) ← rdCode zk Config.zrunWidth s
    useZeroRun z s
  else pure s

/-- `i <- i + 1`. -/
def nextResidual (s : State) : State := { s with rdIdx := BitVec.ofNat 32 (s.rdIdx.toNat + 1) }

/-- RD.STEP: residual RD_IDX and whatever zero-run follows it (R99). -/
def rdStep (s : State) : Except BlockFault State := do
  let (v, s) ← rdCode (rdK s) s.sampleSize.toNat s
  let s ← useResidual v s
  let s ← rdZrun s
  pure (nextResidual s)

/-- `while RD_IDX < SAMPLE_COUNT: RD.STEP()` (R100). Every RD.STEP advances RD_IDX, so SAMPLE_COUNT rounds are enough
(R208). -/
def rdLoop : Nat → State → Except BlockFault State
  | 0, s => pure s
  | n + 1, s =>
    if s.rdIdx.toNat < s.sampleCount.toNat then do
      let s ← rdStep s
      rdLoop n s
    else pure s

/-- check_config_RD, in the order written (R174). -/
def checkConfigRd (s : State) : Except BlockFault Unit :=
  if s.historyMult.toNat > 255 then .error .config
  else if s.maximumK.toNat > 255 then .error .config
  else if s.sampleSize.toNat < 1 ∨ s.sampleSize.toNat > 31 then .error .config
  else if s.sampleCount.toNat > s.params.maxn then .error .config
  else if s.bitend.toNat > 8 * s.params.bsbytes then .error .config
  else if s.bitpos.toNat > s.bitend.toNat then .error .config
  else .ok ()

/-- The per-sub-frame reset (R39): HISTORY, SIGN_MODIFIER and RD_IDX. -/
def startRd (s : State) : State := { s with history := s.initialHistory, signModifier := false, rdIdx := 0 }

/-- The residual loop of a whole block. -/
def rdBlock (s : State) : Except BlockFault State := rdLoop s.sampleCount.toNat (startRd s)

/-- RD_RUN up to its end (R100). -/
def rdRunBody (s : State) : Except BlockFault State := do
  checkConfigRd s
  let s ← rdBlock s
  pure (finish s)

/-- RD_RUN (R100, R134). -/
def execRdRun (s : State) : Host.Outcome State Fault Refusal :=
  ifAccepted s (settle .rd (clearDone s) (rdRunBody (clearDone s)))

end Sys2Proof.Machine
end

