-- ==== Sys2Proof/Machine/Control.lean ====
section
/-! DEFINITION. The control commands (family CTL, 43_control.md): NOP, SF_RUN, CLR_FAULT, SOFT_RESET (R130 to R133) and
the reserved command words (R62, R173). -/

namespace Sys2Proof.Machine

/-- NOP: nothing; DONE keeps its value (R130). -/
def execNop (s : State) : Host.Outcome State Fault Refusal := ifAccepted s s

/-- SF_RUN up to its end: both checks before any state is changed, then the residual part, then the predictor part (R131). -/
def sfRunBody (s : State) : Except BlockFault State := do
  checkConfigRd s
  checkConfigPr s
  let s ← rdBlock s
  let s ← prBlock s
  pure (finish s)

/-- SF_RUN (R131, R134). -/
def execSfRun (s : State) : Host.Outcome State Fault Refusal :=
  ifAccepted s (settle .sf (clearDone s) (sfRunBody (clearDone s)))

/-- FAULT, FAULT_CODE and DONE cleared (R132). -/
def clearFault (s : State) : State := { s with fault := false, faultCode := 0, done := false }

/-- CLR_FAULT (R132, R134). -/
def execClrFault (s : State) : Host.Outcome State Fault Refusal := ifIdle s (clearFault s)

/-- Every register of REG back to its reset value, which is 0; RES, SMP and BSMEM as they were (R133, R191). -/
def softReset (s : State) : State :=
  { s with
    done := false
    fault := false
    faultCode := 0
    historyMult := 0
    initialHistory := 0
    maximumK := 0
    sampleSize := 0
    sampleCount := 0
    bitpos := 0
    bitend := 0
    predType := 0
    qlpShift := 0
    riceModifier := 0
    order := 0
    history := 0
    signModifier := false
    rdIdx := 0
    prIdx := 0
    coef := Vector.replicate 32 0 }

/-- SOFT_RESET (R133, R134). -/
def execSoftReset (s : State) : Host.Outcome State Fault Refusal := ifIdle s (softReset s)

/-- Every other word: E_BAD_CMD, nothing else changed, DONE included (R62, R134, R173). A word that is one of the six
commands is no reserved command (`Instr.wf`). -/
def execReservedCmd (_w : Word) (s : State) : Host.Outcome State Fault Refusal :=
  ifAccepted s (recordFault .badCmd s)

end Sys2Proof.Machine
end

