-- ==== Sys2Proof/Machine/Codewords.lean ====
section
/-! DEFINITION. One codeword as one step of a running residual decoder: what the codewords of the opcode table do by the
table of rule R66, inside the steps of RD.STEP (R99). Which of its two uses a codeword has is decided by state (R67). -/

namespace Sys2Proof.Machine

/-- The command whose residual part runs. -/
def rdRunOf (sf : Bool) : Run := if sf then .sf else .rd

/-- The command whose predictor part runs. -/
def prRunOf (sf : Bool) : Run := if sf then .sf else .pr

/-- The engine at another point of the command. -/
def standAt (e : Engine) (s : State) : State := { s with engine := e }

/-- After the last residual: RD_RUN ends, SF_RUN goes on to its predictor part (R100, R131). -/
def endResiduals (sf : Bool) (s : State) : State :=
  if sf then standAt (.predict true) (startPr s) else finish s

/-- `i <- i + 1`, and the loop condition (R99, R100). -/
def afterResidual (sf : Bool) (s : State) : State :=
  let s := nextResidual s
  if s.rdIdx.toNat < s.sampleCount.toNat then standAt (.residual sf) s else endResiduals sf s

/-- What a residual code of value `v` leads to: steps 3 to 5, then a zero-run code if one is due (R98, R99). -/
def afterResidualCode (sf : Bool) (v : Nat) (s : State) : State :=
  match useResidual v s with
  | .error e => enterFault (rdRunOf sf) e s
  | .ok s => if zeroRunDue s then standAt (.zeroRun sf) s else afterResidual sf s

/-- What a zero-run code of value `z` leads to (R98, R99). -/
def afterZeroRunCode (sf : Bool) (z : Nat) (s : State) : State :=
  match useZeroRun z s with
  | .error e => enterFault (rdRunOf sf) e s
  | .ok s => afterResidual sf s

/-- A codeword read at the cursor under `k` and `w`: refused when the state selects another format (R63, R67),
E_TRUNCATED when a bit it reads is not below BITEND (R66), else the cursor moves by its length and its value is used. -/
def readCodeword (run : Run) (k w : Nat) (c : Codeword) (use : Nat → State → State) (s : State) :
    Host.Outcome State Fault Refusal :=
  if c.readUnder k w then
    if s.bitpos.toNat + codewordReads c > s.bitend.toNat then .next (enterFault run .truncated s)
    else .next (use (codewordValue c) (advance (codewordLength s.params.giveBackOnZero c) s))
  else .refused .codewordNotSelected

/-- The meaning of a codeword where RD stands (R66, R67, R99): a residual code, or a zero-run code, before which E_LOG2_ZERO
is raised when HISTORY is 0 (R178). Where RD reads no codeword it has none. -/
def codeword (c : Codeword) (s : State) : Host.Outcome State Fault Refusal :=
  match s.engine with
  | .idle => .refused .codewordNotDue
  | .predict _ => .refused .codewordNotDue
  | .residual sf =>
    if s.rdIdx.toNat < s.sampleCount.toNat then
      readCodeword (rdRunOf sf) (rdK s) s.sampleSize.toNat c (afterResidualCode sf) s
    else .refused .codewordNotDue
  | .zeroRun sf =>
    match rdZk s with
    | .error e => .next (enterFault (rdRunOf sf) e s)
    | .ok zk => readCodeword (rdRunOf sf) zk Config.zrunWidth c (afterZeroRunCode sf) s

/-- CW_SHORT.p0 (R63, R66). -/
def execCwShortP0 (s : State) : Host.Outcome State Fault Refusal := codeword (.short 0) s
/-- CW_SHORT.p1 (R63, R66). -/
def execCwShortP1 (s : State) : Host.Outcome State Fault Refusal := codeword (.short 1) s
/-- CW_SHORT.p2 (R63, R66). -/
def execCwShortP2 (s : State) : Host.Outcome State Fault Refusal := codeword (.short 2) s
/-- CW_SHORT.p3 (R63, R66). -/
def execCwShortP3 (s : State) : Host.Outcome State Fault Refusal := codeword (.short 3) s
/-- CW_SHORT.p4 (R63, R66). -/
def execCwShortP4 (s : State) : Host.Outcome State Fault Refusal := codeword (.short 4) s
/-- CW_SHORT.p5 (R63, R66). -/
def execCwShortP5 (s : State) : Host.Outcome State Fault Refusal := codeword (.short 5) s
/-- CW_SHORT.p6 (R63, R66). -/
def execCwShortP6 (s : State) : Host.Outcome State Fault Refusal := codeword (.short 6) s
/-- CW_SHORT.p7 (R63, R66). -/
def execCwShortP7 (s : State) : Host.Outcome State Fault Refusal := codeword (.short 7) s
/-- CW_SHORT.p8 (R63, R66). -/
def execCwShortP8 (s : State) : Host.Outcome State Fault Refusal := codeword (.short 8) s
/-- CW_RICE.p0 (R63, R65, R66). -/
def execCwRiceP0 (k x : Nat) (s : State) : Host.Outcome State Fault Refusal := codeword (.rice 0 k x) s
/-- CW_RICE.p1 (R63, R65, R66). -/
def execCwRiceP1 (k x : Nat) (s : State) : Host.Outcome State Fault Refusal := codeword (.rice 1 k x) s
/-- CW_RICE.p2 (R63, R65, R66). -/
def execCwRiceP2 (k x : Nat) (s : State) : Host.Outcome State Fault Refusal := codeword (.rice 2 k x) s
/-- CW_RICE.p3 (R63, R65, R66). -/
def execCwRiceP3 (k x : Nat) (s : State) : Host.Outcome State Fault Refusal := codeword (.rice 3 k x) s
/-- CW_RICE.p4 (R63, R65, R66). -/
def execCwRiceP4 (k x : Nat) (s : State) : Host.Outcome State Fault Refusal := codeword (.rice 4 k x) s
/-- CW_RICE.p5 (R63, R65, R66). -/
def execCwRiceP5 (k x : Nat) (s : State) : Host.Outcome State Fault Refusal := codeword (.rice 5 k x) s
/-- CW_RICE.p6 (R63, R65, R66). -/
def execCwRiceP6 (k x : Nat) (s : State) : Host.Outcome State Fault Refusal := codeword (.rice 6 k x) s
/-- CW_RICE.p7 (R63, R65, R66). -/
def execCwRiceP7 (k x : Nat) (s : State) : Host.Outcome State Fault Refusal := codeword (.rice 7 k x) s
/-- CW_RICE.p8 (R63, R65, R66). -/
def execCwRiceP8 (k x : Nat) (s : State) : Host.Outcome State Fault Refusal := codeword (.rice 8 k x) s
/-- CW_ESC (R63, R66). -/
def execCwEsc (w f : Nat) (s : State) : Host.Outcome State Fault Refusal := codeword (.esc w f) s

/-- One PR.STEP as a step of a running predictor, and the loop condition (R117, R118). -/
def sampleStep (sf : Bool) (s : State) : State :=
  if s.prIdx.toNat < s.sampleCount.toNat then
    match prStep s with
    | .error e => enterFault (prRunOf sf) e s
    | .ok t => if t.prIdx.toNat < t.sampleCount.toNat then t else finish t
  else finish s

end Sys2Proof.Machine
end

