-- ==== Sys2Proof/Machine/HostAccess.lean ====
section
/-! DEFINITION. The host's accesses other than a CMD write (R42, R135 to R137): an access the block refuses has no effect
and reads as an unspecified word, and no access raises a fault (R42, R170). -/

namespace Sys2Proof.Machine

/-- A write access advances the count of free draws, so that an unspecified location may read differently after it (log 5). -/
def countWrite (s : State) : State := { s with draws := s.draws + 1 }

/-- A read returns a word and changes no state of the block (R43). -/
def answer (w : Word) (s : State) : State := { s with reply := some w, reads := s.reads + 1 }

/-- HOST.WR at an offset other than CMD's (R135). -/
def hostWr (off : Nat) (w : Word) (s : State) : State :=
  match regAt off with
  | some r => writeReg s w r
  | none => s

/-- The word HOST.RD returns (R135): an RO or RW register's stored word. CMD and an unused offset are locations and read
as an unspecified word that stays the same until a write or command (R43, R44); a misaligned offset or one above 0x0FC
is refused and may read as any word each time (R42). -/
def hostRd (off : Nat) (s : State) : Word :=
  match regAt off with
  | some r => (readReg s r).getD (Config.freeWord s.draws .cmdRead)
  | none =>
    if off % 4 = 0 ∧ off ≤ 0x0FC then Config.freeWord s.draws (.unusedReg off)
    else Config.freeWord s.reads (.refusedReg off)

/-- HOST.WRES(i, v) (R136). -/
def hostWres (i : Nat) (v : Word) (s : State) : State :=
  if i < s.params.maxn then { s with res := s.res.set i v } else s

/-- The word HOST.RRES(i) returns (R136). -/
def hostRres (i : Nat) (s : State) : Word :=
  if i < s.params.maxn then resWord s i else Config.freeWord s.reads (.refusedRes i)

/-- The word HOST.RSMP(i) returns (R136). -/
def hostRsmp (i : Nat) (s : State) : Word :=
  if i < s.params.maxn then smpWord s i else Config.freeWord s.reads (.refusedSmp i)

/-- HOST.WBS(a, byte) (R137). -/
def hostWbs (a : Nat) (b : Byte) (s : State) : State :=
  if a < s.params.bsbytes then { s with bsmem := s.bsmem.set a b } else s

/-- The byte HOST.RBS(a) returns, in the low bits of a word (R137). -/
def hostRbs (a : Nat) (s : State) : Word :=
  if a < s.params.bsbytes then (bsByte s a).setWidth 32 else Config.freeWord s.reads (.refusedByte a)

end Sys2Proof.Machine
end

