-- ==== Sys2Proof/Machine/Fetch.lean ====
section
/-! DEFINITION. What a step does before and beside an instruction: it serves the host's next access when no command runs
(R8, R48), or fetches the codeword under the cursor of a running residual decoder. -/

namespace Sys2Proof.Machine

/-- What comes next: an instruction to execute at a state, or the next state itself. -/
inductive Event where
  | run (i : Instr) (s : State)
  | done (s : State)

/-- One access of the host, taken off its list. A write to CMD is the command its word stands for (R60, R134). -/
def serve (a : HostAccess) (s : State) : Event :=
  match a with
  | .wr off w => if off = 0 then .run (decodeCommand w) (countWrite s) else .done (hostWr off w (countWrite s))
  | .rd off => .done (answer (hostRd off s) s)
  | .wres i v => .done (hostWres i v (countWrite s))
  | .rres i => .done (answer (hostRres i s) s)
  | .wsmp _ _ => .done (countWrite s)
  | .rsmp i => .done (answer (hostRsmp i s) s)
  | .wbs x b => .done (hostWbs x b (countWrite s))
  | .rbs x => .done (answer (hostRbs x s) s)

/-- The accesses left. -/
def popHost (rest : List HostAccess) (s : State) : State := { s with host := rest }

/-- The codeword under the cursor (R63); a stream that ends inside it is E_TRUNCATED (R69, R171). -/
def fetchCodeword (run : Run) (k w : Nat) (s : State) : Event :=
  match decodeCodeword k w (streamWindow s k w) with
  | .ok (i, _) => .run i s
  | .error _ => .done (enterFault run .truncated s)

/-- The next event. With no command running and no access to serve the block holds its state (R183). -/
def nextEvent (s : State) : Event :=
  match s.engine with
  | .idle =>
    match s.host with
    | [] => .done s
    | a :: rest => serve a (popHost rest s)
  | .residual sf =>
    if s.rdIdx.toNat < s.sampleCount.toNat then fetchCodeword (rdRunOf sf) (rdK s) s.sampleSize.toNat s
    else .done (endResiduals sf s)
  | .zeroRun sf =>
    match rdZk s with
    | .error e => .done (enterFault (rdRunOf sf) e s)
    | .ok zk => fetchCodeword (rdRunOf sf) zk Config.zrunWidth s
  | .predict sf => .done (sampleStep sf s)

/-- A command word as the host's next access, with no command running. -/
def placeCommand (w : Nat) (s : State) : State :=
  { s with engine := .idle, host := .wr 0 (BitVec.ofNat 32 w) :: s.host }

/-- The bytes of a codeword row at the start of BSMEM. -/
def placeBytes (nbits w : Nat) : Nat → Memory 8 → Memory 8
  | 0, m => m
  | n + 1, m => (placeBytes nbits w n m).set n (tableByte nbits w n)

/-- A codeword row as the next codeword of a running RD_RUN: its bits at the start of BSMEM, the cursor there, one
residual still to produce, and MAXIMUM_K = 0 and SAMPLE_SIZE = 31, under which `decodeTableWord` reads it (log 11). -/
def placeCodeword (nbits w : Nat) (s : State) : State :=
  { s with
    bsmem := placeBytes nbits w fetchBytes s.bsmem
    bitpos := 0
    bitend := BitVec.ofNat 32 (8 * fetchBytes)
    maximumK := 0
    sampleSize := BitVec.ofNat 32 tableFieldWidth
    rdIdx := 0
    sampleCount := 1
    done := false
    fault := false
    faultCode := 0
    engine := .residual false }

end Sys2Proof.Machine
end

