-- ==== Sys2Proof/Machine/Dispatch.lean ====
section
/-! DEFINITION. The dispatch: one arm per constructor of Instr. -/

namespace Sys2Proof.Machine

def exec (i : Instr) (s : State) : Host.Outcome State Fault Refusal :=
  match i with
  | .nop => Sys2Proof.Machine.execNop s
  | .rdRun => Sys2Proof.Machine.execRdRun s
  | .prRun => Sys2Proof.Machine.execPrRun s
  | .sfRun => Sys2Proof.Machine.execSfRun s
  | .clrFault => Sys2Proof.Machine.execClrFault s
  | .softReset => Sys2Proof.Machine.execSoftReset s
  | .reservedCmd w => Sys2Proof.Machine.execReservedCmd w s
  | .cwShortP0 => Sys2Proof.Machine.execCwShortP0 s
  | .cwShortP1 => Sys2Proof.Machine.execCwShortP1 s
  | .cwShortP2 => Sys2Proof.Machine.execCwShortP2 s
  | .cwShortP3 => Sys2Proof.Machine.execCwShortP3 s
  | .cwShortP4 => Sys2Proof.Machine.execCwShortP4 s
  | .cwShortP5 => Sys2Proof.Machine.execCwShortP5 s
  | .cwShortP6 => Sys2Proof.Machine.execCwShortP6 s
  | .cwShortP7 => Sys2Proof.Machine.execCwShortP7 s
  | .cwShortP8 => Sys2Proof.Machine.execCwShortP8 s
  | .cwRiceP0 k x => Sys2Proof.Machine.execCwRiceP0 k x s
  | .cwRiceP1 k x => Sys2Proof.Machine.execCwRiceP1 k x s
  | .cwRiceP2 k x => Sys2Proof.Machine.execCwRiceP2 k x s
  | .cwRiceP3 k x => Sys2Proof.Machine.execCwRiceP3 k x s
  | .cwRiceP4 k x => Sys2Proof.Machine.execCwRiceP4 k x s
  | .cwRiceP5 k x => Sys2Proof.Machine.execCwRiceP5 k x s
  | .cwRiceP6 k x => Sys2Proof.Machine.execCwRiceP6 k x s
  | .cwRiceP7 k x => Sys2Proof.Machine.execCwRiceP7 k x s
  | .cwRiceP8 k x => Sys2Proof.Machine.execCwRiceP8 k x s
  | .cwEsc w f => Sys2Proof.Machine.execCwEsc w f s

end Sys2Proof.Machine
end

