-- ==== Sys2Proof/Machine/Step.lean ====
section
/-! DEFINITION. One step (D1, R8): the host's next access, a command whole when it is a CMD write; inside a command, one
codeword or one sample. -/

namespace Sys2Proof.Machine

/-- An event carried out: an instruction is executed, a state is the next state. -/
def perform (e : Event) : Host.Outcome State Fault Refusal :=
  match e with
  | .run i t => exec i t
  | .done t => .next t

/-- One step. -/
def step (s : State) : Host.Outcome State Fault Refusal := perform (nextEvent s)

/-- The state whose next step runs the instruction of an opcode-table row: 32 bits are a command word and become the host's
next access, anything else a codeword and becomes the next one of a running RD_RUN (log 6, log 11). -/
def State.withFetchWord (s : State) (nbits w : Nat) : State :=
  if nbits = 32 then placeCommand w s else placeCodeword nbits w s

end Sys2Proof.Machine
end

