-- ==== Sys2Proof/Safety.lean ====
section
/-! DEFINITION. The terms claims are stated in: when a command is accepted, when it completed, what a safe run is, and the
invariant every step keeps. -/

namespace Sys2Proof.Machine

/-- `n` steps of the machine. -/
def runSteps (n : Nat) (s : State) : Host.Outcome State Fault Refusal := Host.Core.run Sys2Proof.core n s

/-- A command written now is obeyed: none is running and no fault is set (R8, R134, R177). -/
abbrev Ready (s : State) : Prop := s.engine = .idle ∧ s.fault = false

/-- A working command ended without a fault (R15). -/
abbrev Completed (t : State) : Prop := t.done = true ∧ t.fault = false

/-- A run is safe as far as it is free of faults of the block: corruption is reported and nothing is used after it (R205). -/
def Safe (s : State) : Prop := s.fault = false

/-- The bound on HISTORY of R102. -/
def historyBound : Nat := 2 ^ 25 - 1

/-- The codes FAULT_CODE can hold (R170). -/
def knownCodes : List Byte := [0, 1, 2, 3, 4, 5, 6, 7, 8, 9, 10, 12]

/-- What holds while a command runs, at each point the engine can stand (R99, R117, R174). -/
def RunningOk (s : State) : Prop :=
  match s.engine with
  | .idle => True
  | .residual sf =>
    s.fault = false ∧ s.done = false ∧ checkConfigRd s = .ok () ∧ (sf = true → checkConfigPr s = .ok ())
      ∧ s.rdIdx.toNat < s.sampleCount.toNat
  | .zeroRun sf =>
    s.fault = false ∧ s.done = false ∧ checkConfigRd s = .ok () ∧ (sf = true → checkConfigPr s = .ok ())
      ∧ zeroRunDue s = true
  | .predict _ =>
    s.fault = false ∧ s.done = false ∧ checkConfigPr s = .ok () ∧ s.prIdx.toNat < s.sampleCount.toNat

/-- The invariant: the parameters are in their ranges (R2); each buffer is in canonical form and lists only entries that
exist (R35, R42); FAULT_CODE is 0 exactly when FAULT is, and one of the codes of R170 (R16); while a command runs its
registers passed its checks and its index is within the block. -/
structure Inv (s : State) : Prop where
  params_ok : s.params.wf = true
  res_wf : s.res.wf
  smp_wf : s.smp.wf
  bsmem_wf : s.bsmem.wf
  res_exists : s.res.below s.params.maxn
  smp_exists : s.smp.below s.params.maxn
  bsmem_exists : s.bsmem.below s.params.bsbytes
  code_of_fault : s.fault = false ↔ s.faultCode = 0
  code_known : s.faultCode ∈ knownCodes
  running : RunningOk s

/-- The registers a host write stores to (R38: access RW). -/
def writable : Reg → Bool
  | .cmd => false
  | .status => false
  | .faultCode => false
  | .historyMult => true
  | .initialHistory => true
  | .maximumK => true
  | .sampleSize => true
  | .sampleCount => true
  | .bitpos => true
  | .bitend => true
  | .predType => true
  | .qlpShift => true
  | .riceModifier => true
  | .order => true
  | .history => false
  | .signModifier => false
  | .rdIdx => false
  | .prIdx => false
  | .coef _ => true

/-- The state before the host's pending accesses `rest`, its write access counted. -/
def afterWrite (s : State) (rest : List HostAccess) : State := countWrite (popHost rest s)

/-- The registers only the host writes, COEF and BITPOS apart (R17 to R27, R176), hold the same words. -/
def SameParameterRegisters (s t : State) : Prop :=
  t.historyMult = s.historyMult ∧ t.initialHistory = s.initialHistory ∧ t.maximumK = s.maximumK
    ∧ t.sampleSize = s.sampleSize ∧ t.sampleCount = s.sampleCount ∧ t.bitend = s.bitend ∧ t.predType = s.predType
    ∧ t.qlpShift = s.qlpShift ∧ t.riceModifier = s.riceModifier ∧ t.order = s.order

/-- What steps 2 to 5 of RD.STEP leave for a residual code of length `len` and value `v` (R92, R94, R95, R96): the cursor
moved, the modifier added and cleared, the residual at RD_IDX, HISTORY updated. -/
def residualDone (s : State) (len v : Nat) : State :=
  let u := v + s.signModifier.toNat
  let h := s.history.toNat
  let m := s.historyMult.toNat
  { s with
    bitpos := BitVec.ofNat 32 (s.bitpos.toNat + len)
    signModifier := false
    res := s.res.set s.rdIdx.toNat (BitVec.ofInt 32 (rdMap u))
    history := if u ≤ 0xFFFF then BitVec.ofNat 32 (h + u * m - (h * m) / 512) else 0xFFFF }

/-- How RD goes on after a residual (R98, R99, R100): a zero-run code is due, or the next residual, or the end. -/
def goOn (sf : Bool) (m : State) : State :=
  if zeroRunDue m then standAt (.zeroRun sf) m else afterResidual sf m

/-- The remaining magnitude an adaptation consumes over its first `n` coefficients, from the highest down (R115):
`(abs(val) >> sh) * (o - idx)` at `idx = o - 1, o - 2, ...`. -/
def consumed (s : State) (t : Nat) (base : Int) (n : Nat) : Int :=
  ∑ i ∈ Finset.range n, asr |base - smpAt s (t - s.order.toNat + i)| s.qlpShift.toNat * ((i : Int) + 1)

end Sys2Proof.Machine
end

