-- ==== Sys2Proof/Certificates/Slice0/Obligations.lean ====
section
/-! DEFINITION. The statements for the provers. Each docstring names the rule or section of the spec it formalises. -/

open Sys2Proof Sys2Proof.Machine

/-! ### Encodings -/

/-- Words written out from R61, R64 and R65: the six commands, and one codeword of each format. -/
def Obligations.SpecWordsDecode : Prop :=
  decodeCommand 0x00000000 = .nop ∧ decodeCommand 0x00000001 = .rdRun ∧ decodeCommand 0x00000002 = .prRun
    ∧ decodeCommand 0x00000003 = .sfRun ∧ decodeCommand 0x00000004 = .clrFault
    ∧ decodeCommand 0x00000005 = .softReset ∧ decodeCommand 0x00000016 = .reservedCmd 0x00000016
    ∧ decodeCodeword 0 16 [true, true, true, false] = .ok (.cwShortP3, [])
    ∧ decodeCodeword 3 16 [true, true, false, true, false, true] = .ok (.cwRiceP2 3 5, [])
    ∧ decodeCodeword 3 4 [true, true, true, true, true, true, true, true, true, false, true, true, false, true]
        = .ok (.cwEsc 4 6, [true])

/-- Decode after encode, for every well-formed instruction, every value of its operands, every parameters the codeword can
be read under and whatever bits follow it (30_encoding.md). -/
def Obligations.EncodeThenDecode : Prop :=
  ∀ i : Instr, i.wf = true →
    match encode i with
    | .command w => decodeCommand w = i
    | .codeword bits => ∀ (c : Codeword) (k w : Nat) (rest : List Bool), i.codeword? = some c →
        c.readUnder k w = true → decodeCodeword k w (bits ++ rest) = .ok (i, rest)

/-- Encode after decode: the bits a codeword was decoded from are its encoding and what follows; and it is well-formed
(30_encoding.md: each bit string has one meaning under its parameters). -/
def Obligations.DecodeThenEncode : Prop :=
  ∀ (k w : Nat) (bits rest : List Bool) (i : Instr), k ≤ 23 → 1 ≤ w → w ≤ 31 →
    decodeCodeword k w bits = .ok (i, rest) →
      i.wf = true ∧ ∃ own, encode i = .codeword own ∧ bits = own ++ rest

/-- A string of at least `9 + max k w` bits always decodes: no pattern of bits is an illegal codeword (R69). -/
def Obligations.LongEnoughBitsDecode : Prop :=
  ∀ (k w : Nat) (bits : List Bool), 9 + max k w ≤ bits.length → ∃ i rest, decodeCodeword k w bits = .ok (i, rest)

/-! ### The bit source -/

/-- BS.READ (R80): with `n` bits left the field has the value R40 gives and the cursor alone moves, by `n`; with fewer the
read is E_TRUNCATED. -/
def Obligations.BsReadTakesField : Prop :=
  ∀ (n : Nat) (s : State),
    (s.bitpos.toNat + n ≤ s.bitend.toNat →
      ∃ v t, bsRead n s = .ok (v, t) ∧ v < 2 ^ n
        ∧ v = ∑ j ∈ Finset.range n, (bitAt s (s.bitpos.toNat + j)).toNat * 2 ^ (n - 1 - j)
        ∧ t = { s with bitpos := t.bitpos } ∧ t.bitpos.toNat = s.bitpos.toNat + n)
    ∧ (s.bitend.toNat < s.bitpos.toNat + n → bsRead n s = .error .truncated)

/-- BS.UNARY9 (R81): `p` at most 8 exactly when `p` ones and then a zero stand at the cursor below BITEND, `p + 1` bits
consumed; ESC exactly when nine ones do, nine consumed, the tenth bit not looked at; E_TRUNCATED otherwise. -/
def Obligations.BsUnary9CountsOnes : Prop :=
  ∀ (s : State),
    (∀ p t, bsUnary9 s = .ok (some p, t) ↔
      p ≤ 8 ∧ s.bitpos.toNat + p + 1 ≤ s.bitend.toNat ∧ (∀ j < p, bitAt s (s.bitpos.toNat + j) = true)
        ∧ bitAt s (s.bitpos.toNat + p) = false ∧ t = advance (p + 1) s)
    ∧ (∀ t, bsUnary9 s = .ok (none, t) ↔
      s.bitpos.toNat + 9 ≤ s.bitend.toNat ∧ (∀ j < 9, bitAt s (s.bitpos.toNat + j) = true) ∧ t = advance 9 s)
    ∧ (∀ e, bsUnary9 s = .error e → e = .truncated)

/-- RD.CODE by the primitives (R80 to R82, R91) and by the table of formats, values and lengths (R66) are the same function,
in every state and under all parameters. -/
def Obligations.PrimitivesAgreeWithCodewordTable : Prop :=
  ∀ (k w : Nat) (s : State),
    rdCode k w s =
      match decodeCodeword k w (streamWindow s k w) with
      | .error _ => .error .truncated
      | .ok (i, _) =>
        match i.codeword? with
        | none => .error .truncated
        | some c => .ok (codewordValue c, advance (codewordLength s.params.giveBackOnZero c) s)

/-! ### Codewords as steps -/

/-- A codeword of format CW_SHORT (all nine) as a residual code: value `p`, length `p + 1` (R66, R99). It completes in every
state where it is selected (k = 0), its bits lie below BITEND and HISTORY_MULT is legal. -/
def Obligations.ShortCodewordIsResidual : Prop :=
  ∀ (i : Instr) (p : Nat) (sf : Bool) (s : State), i.codeword? = some (.short p) → s.engine = .residual sf →
    s.rdIdx.toNat < s.sampleCount.toNat → rdK s = 0 → s.bitpos.toNat + (p + 1) ≤ s.bitend.toNat →
    s.historyMult.toNat ≤ 255 →
      exec i s = .next (goOn sf (residualDone s (p + 1) p))

/-- A codeword of format CW_RICE (all nine) as a residual code, by its suffix `x` (R65, R66, R99): 2 or more, value
`p*(2^k - 1) + x - 1`, all its bits consumed; 1, value `p*(2^k - 1)`, one bit given back; 0, the same value, PB0 bits given
back. All `p + 1 + k` bits must lie below BITEND. -/
def Obligations.RiceCodewordIsResidual : Prop :=
  ∀ (i : Instr) (p k x : Nat) (sf : Bool) (s : State), i.codeword? = some (.rice p k x) → i.wf = true →
    s.engine = .residual sf → s.rdIdx.toNat < s.sampleCount.toNat → rdK s = k →
    s.bitpos.toNat + (p + 1 + k) ≤ s.bitend.toNat → s.historyMult.toNat ≤ 255 →
      (2 ≤ x → exec i s = .next (goOn sf (residualDone s (p + 1 + k) (p * (2 ^ k - 1) + (x - 1)))))
      ∧ (x = 1 → exec i s = .next (goOn sf (residualDone s (p + k) (p * (2 ^ k - 1)))))
      ∧ (x = 0 → s.params.pb0 = true → exec i s = .next (goOn sf (residualDone s (p + k) (p * (2 ^ k - 1)))))
      ∧ (x = 0 → s.params.pb0 = false → exec i s = .next (goOn sf (residualDone s (p + 1 + k) (p * (2 ^ k - 1)))))

/-- CW_ESC as a residual code, under any Rice parameter (R66, R91 corner case a, R99): value the field, length
`9 + SAMPLE_SIZE`; a value above 0xFFFF sets HISTORY to 0xFFFF (R96). -/
def Obligations.EscapeCodewordIsResidual : Prop :=
  ∀ (w f : Nat) (sf : Bool) (s : State), (Instr.cwEsc w f).wf = true → s.engine = .residual sf →
    s.rdIdx.toNat < s.sampleCount.toNat → s.sampleSize.toNat = w → s.bitpos.toNat + (9 + w) ≤ s.bitend.toNat →
    s.historyMult.toNat ≤ 255 →
      exec (.cwEsc w f) s = .next (goOn sf (residualDone s (9 + w) f))

/-- Any codeword as a zero-run code (R98): when its count `z` fits the residuals still to produce, `z` zeros follow the
residual just stored, every other entry of RES is as it was, HISTORY is 0, SIGN_MODIFIER is 1, and RD goes on after them. -/
def Obligations.ZeroRunCodewordInsertsZeros : Prop :=
  ∀ (i : Instr) (c : Codeword) (zk : Nat) (sf : Bool) (s : State), i.codeword? = some c → i.wf = true →
    s.engine = .zeroRun sf → zeroRunDue s = true → rdZk s = .ok zk → c.readUnder zk 16 = true →
    s.bitpos.toNat + codewordReads c ≤ s.bitend.toNat →
    codewordValue c ≤ s.sampleCount.toNat - (s.rdIdx.toNat + 1) →
      ∃ t, exec i s = .next (afterResidual sf t)
        ∧ t = { s with
            bitpos := BitVec.ofNat 32 (s.bitpos.toNat + codewordLength s.params.giveBackOnZero c)
            res := t.res
            rdIdx := BitVec.ofNat 32 (s.rdIdx.toNat + codewordValue c)
            history := 0
            signModifier := true }
        ∧ ∀ j, resWord t j =
            if s.rdIdx.toNat < j ∧ j ≤ s.rdIdx.toNat + codewordValue c then 0 else resWord s j

/-- The faults of a codeword step, in the order of R178: as a zero-run code E_LOG2_ZERO when HISTORY is 0, before anything is
read (R97); E_TRUNCATED when a bit it reads is not below BITEND (R66, R171); E_ZERO_RUN when the count is too large (R98). -/
def Obligations.CodewordStepFaults : Prop :=
  ∀ (i : Instr) (c : Codeword) (sf : Bool) (s : State), i.codeword? = some c →
    (s.engine = .zeroRun sf → s.history = 0 →
      ∃ t, exec i s = .next t ∧ t.fault = true ∧ t.faultCode = 6 ∧ t.engine = .idle)
    ∧ (s.engine = .residual sf → s.rdIdx.toNat < s.sampleCount.toNat →
        c.readUnder (rdK s) s.sampleSize.toNat = true → s.bitend.toNat < s.bitpos.toNat + codewordReads c →
      ∃ t, exec i s = .next t ∧ t.fault = true ∧ t.faultCode = 1 ∧ t.engine = .idle)
    ∧ (∀ zk, s.engine = .zeroRun sf → rdZk s = .ok zk → c.readUnder zk 16 = true →
        s.bitend.toNat < s.bitpos.toNat + codewordReads c →
      ∃ t, exec i s = .next t ∧ t.fault = true ∧ t.faultCode = 1 ∧ t.engine = .idle)
    ∧ (∀ zk, s.engine = .zeroRun sf → rdZk s = .ok zk → c.readUnder zk 16 = true →
        s.bitpos.toNat + codewordReads c ≤ s.bitend.toNat →
        s.sampleCount.toNat - (s.rdIdx.toNat + 1) < codewordValue c →
      ∃ t, exec i s = .next t ∧ t.fault = true ∧ t.faultCode = 5 ∧ t.engine = .idle)

/-- The frame of a codeword step that does not fault: BSMEM, SMP, COEF, the parameter registers, FAULT_CODE, the parameters
and the host's side are as they were; of RES at most the entry at RD_IDX (a residual code) or the entries after it (a
zero-run code) change; PR_IDX changes only where SF_RUN turns to its predictor part. -/
def Obligations.CodewordFrame : Prop :=
  ∀ (i : Instr) (c : Codeword) (s t : State), i.codeword? = some c → exec i s = .next t → s.fault = false →
    t.fault = false →
      t = { s with
        done := t.done
        bitpos := t.bitpos
        history := t.history
        signModifier := t.signModifier
        rdIdx := t.rdIdx
        prIdx := t.prIdx
        res := t.res
        engine := t.engine }
      ∧ (∀ a, bsByte t a = bsByte s a) ∧ (∀ j, smpWord t j = smpWord s j)
      ∧ (∀ j, j < s.rdIdx.toNat → resWord t j = resWord s j)
      ∧ (∀ sf j, s.engine = .residual sf → j ≠ s.rdIdx.toNat → resWord t j = resWord s j)
      ∧ (∀ sf j, s.engine = .zeroRun sf →
          (j ≤ s.rdIdx.toNat ∨ s.rdIdx.toNat + codewordValue c < j) → resWord t j = resWord s j)
      ∧ (t.engine = .predict true ∨ t.prIdx = s.prIdx)

/-- Where an instruction has no meaning the model refuses it by name: a codeword where no residual block is being decoded
(R80 to R82 are no commands) or where the state selects another format (R63, R67); a command while one is running (R134,
R201). The refusals are the model's own (log 8). -/
def Obligations.RefusedWhereNoMeaning : Prop :=
  (∀ (i : Instr) (c : Codeword) (sf : Bool) (s : State), i.codeword? = some c →
    (s.engine = .idle → exec i s = .refused .codewordNotDue)
    ∧ (s.engine = .predict sf → exec i s = .refused .codewordNotDue)
    ∧ (s.engine = .residual sf → s.sampleCount.toNat ≤ s.rdIdx.toNat → exec i s = .refused .codewordNotDue)
    ∧ (s.engine = .residual sf → s.rdIdx.toNat < s.sampleCount.toNat →
        c.readUnder (rdK s) s.sampleSize.toNat = false → exec i s = .refused .codewordNotSelected)
    ∧ (∀ zk, s.engine = .zeroRun sf → rdZk s = .ok zk → c.readUnder zk 16 = false →
        exec i s = .refused .codewordNotSelected))
  ∧ ∀ (i : Instr) (s : State), s.engine ≠ .idle → i.codeword? = none → exec i s = .refused .commandWhileBusy

/-! ### The residual decoder -/

/-- RD.K by the table of R90: `m` limited by MAXIMUM_K when `512*(2^m - 3) <= HISTORY <= 512*(2^(m+1) - 3) - 1`; it is at
most 23, and 0 only when MAXIMUM_K is. -/
def Obligations.RiceParameterRanges : Prop :=
  ∀ s : State,
    (∀ m, 1 ≤ m → 512 * (2 ^ m - 3) ≤ s.history.toNat → s.history.toNat ≤ 512 * (2 ^ (m + 1) - 3) - 1 →
      rdK s = min m s.maximumK.toNat)
    ∧ rdK s ≤ 23 ∧ (rdK s = 0 ↔ s.maximumK = 0)

/-- RD.ZK by the table of R97, limited by MAXIMUM_K; E_LOG2_ZERO at 0. -/
def Obligations.ZeroRunParameterTable : Prop :=
  ∀ (s : State), s.history.toNat < 128 →
    rdZk s =
      let h := s.history.toNat
      if h = 0 then .error .log2Zero
      else .ok (min s.maximumK.toNat
        (if h = 1 then 7 else if h ≤ 3 then 6 else if h ≤ 7 then 5 else if h ≤ 15 then 4 else if h ≤ 31 then 3
          else if h ≤ 47 then 2 else if h ≤ 63 then 3 else if h ≤ 111 then 2 else 3))

/-- RD.SM (R92): the modifier is added and cleared, and nothing else changes. RD.MAP (R94): an odd value is a negative
residual, an even one a residual that is not, halved; the folding is one-to-one onto the integers, with the inverse of R68. -/
def Obligations.SignModifierAndFolding : Prop :=
  (∀ (v : Nat) (s : State),
    rdSm v s = (v + (if s.signModifier then 1 else 0), { s with signModifier := false }))
  ∧ (∀ u : Nat, (u % 2 = 1 → rdMap u = -(((u + 1) / 2 : Nat) : Int)) ∧ (u % 2 = 0 → rdMap u = ((u / 2 : Nat) : Int)))
  ∧ (∀ r : Int, rdMap (if 0 ≤ r then (2 * r).toNat else (-2 * r - 1).toNat) = r)
  ∧ ∀ u : Nat, (if 0 ≤ rdMap u then (2 * rdMap u).toNat else (-2 * rdMap u - 1).toNat) = u

/-- Every residual fits its entry (R93, R95): the value of a code read under `k <= 23` and a width of at most 31, the modifier
added, is at most 2^31, its residual lies in -2^30 to 2^30, and RD.STORE writes it to that entry of RES and no other. -/
def Obligations.ResidualFitsEntry : Prop :=
  ∀ (k w v j : Nat) (s t : State), k ≤ 23 → w ≤ 31 → rdCode k w s = .ok (v, t) →
    (rdSm v t).1 ≤ 2 ^ 31 ∧ -2 ^ 30 ≤ rdMap (rdSm v t).1 ∧ rdMap (rdSm v t).1 ≤ 2 ^ 30
      ∧ resAt (rdStore j (rdMap (rdSm v t).1) t) j = rdMap (rdSm v t).1
      ∧ (∀ j', j' ≠ j → resWord (rdStore j (rdMap (rdSm v t).1) t) j' = resWord t j')
      ∧ rdStore j (rdMap (rdSm v t).1) t = { t with res := (rdStore j (rdMap (rdSm v t).1) t).res }

/-- RD.HIST (R96): E_HIST_OVF when `u <= 0xFFFF` and the new value exceeds 2^32 - 1; 0xFFFF for a larger `u`; nothing but
HISTORY changes. With a legal HISTORY_MULT the decay term is never more than HISTORY, the formula's value always fits, and
HISTORY of at least 1 never decays to 0 (R97). -/
def Obligations.HistoryUpdate : Prop :=
  ∀ (u : Nat) (s : State),
    let h := s.history.toNat
    let m := s.historyMult.toNat
    (u ≤ 0xFFFF → 2 ^ 32 - 1 < h + u * m - (h * m) / 512 → rdHist u s = .error .histOvf)
    ∧ (0xFFFF < u → rdHist u s = .ok { s with history := 0xFFFF })
    ∧ (m ≤ 255 →
      (h * m) / 512 ≤ h
      ∧ (u ≤ 0xFFFF → h + u * m - (h * m) / 512 ≤ 2 ^ 32 - 1
          ∧ rdHist u s = .ok { s with history := BitVec.ofNat 32 (h + u * m - (h * m) / 512) })
      ∧ ∀ t, rdHist u s = .ok t → 1 ≤ h → 1 ≤ t.history.toNat)

/-- The bound of R102: HISTORY stays within 2^25 - 1, E_HIST_OVF is unreachable and the Rice parameter is at most 16; the
document's bound of 0xFFFF is false. -/
def Obligations.HistoryStaysBounded : Prop :=
  (∀ (u : Nat) (s : State), s.historyMult.toNat ≤ 255 → s.history.toNat ≤ historyBound →
    rdK s ≤ 16 ∧ ∃ t, rdHist u s = .ok t ∧ t.history.toNat ≤ historyBound)
  ∧ (∀ (s t : State), Ready s → (exec .rdRun s = .next t ∨ exec .sfRun s = .next t) →
      (t.fault = true → t.faultCode ≠ 8)
      ∧ (t.fault = false → s.initialHistory.toNat ≤ historyBound → t.history.toNat ≤ historyBound))
  ∧ ∃ (u : Nat) (s t : State), s.historyMult.toNat ≤ 255 ∧ s.history.toNat ≤ 0xFFFF ∧ rdHist u s = .ok t
      ∧ 0xFFFF < t.history.toNat

/-- A completed RD_RUN has written exactly the entries below SAMPLE_COUNT and no other, each a residual in -2^30 to 2^30
(R101); the cursor moved forward and stands within BITEND; and it changed nothing but RES, BITPOS, HISTORY, SIGN_MODIFIER,
RD_IDX and DONE (R100). -/
def Obligations.RdRunWritesWholeBlock : Prop :=
  ∀ (s t : State), Ready s → exec .rdRun s = .next t → t.fault = false →
    t.done = true ∧ t.rdIdx = s.sampleCount
    ∧ (∀ j, j < s.sampleCount.toNat → ∃ w, t.res.get? j = some w ∧ -2 ^ 30 ≤ w.toInt ∧ w.toInt ≤ 2 ^ 30)
    ∧ (∀ j, s.sampleCount.toNat ≤ j → t.res.get? j = s.res.get? j)
    ∧ s.bitpos.toNat ≤ t.bitpos.toNat ∧ t.bitpos.toNat ≤ s.bitend.toNat
    ∧ (∀ a, bsByte t a = bsByte s a) ∧ (∀ j, smpWord t j = smpWord s j) ∧ (∀ j, coefWord t j = coefWord s j)
    ∧ t = { s with
        done := true
        res := t.res
        bitpos := t.bitpos
        history := t.history
        signModifier := t.signModifier
        rdIdx := t.rdIdx }

/-- RD_RUN completes on every stream of enough bits when HISTORY cannot collapse (HISTORY_MULT = 0 and INITIAL_HISTORY of at
least 128, so that no zero-run is ever due): whatever the bits are, SAMPLE_COUNT residuals are produced (R98, R100). -/
def Obligations.RdRunCompletesOnAmpleStream : Prop :=
  ∀ s : State, Ready s → checkConfigRd s = .ok () → s.historyMult = 0 → 128 ≤ s.initialHistory.toNat →
    s.bitpos.toNat + 40 * s.sampleCount.toNat ≤ s.bitend.toNat →
      ∃ t, exec .rdRun s = .next t ∧ Completed t ∧ t.rdIdx = s.sampleCount ∧ t.signModifier = false
        ∧ t.bitpos.toNat ≤ s.bitpos.toNat + 40 * s.sampleCount.toNat

/-- With enough bits RD_RUN completes or the stream's own values are at fault: a zero-run that does not fit (E_ZERO_RUN) or
one that is due at HISTORY = 0 (E_LOG2_ZERO); no other fault (R69, R102, R208). -/
def Obligations.RdRunCompletesOrValuesFault : Prop :=
  ∀ s : State, Ready s → checkConfigRd s = .ok () → s.bitpos.toNat + 80 * s.sampleCount.toNat ≤ s.bitend.toNat →
      ∃ t, exec .rdRun s = .next t
        ∧ (Completed t ∨ (t.fault = true ∧ t.done = false ∧ (t.faultCode = 5 ∨ t.faultCode = 6)))

/-- One residual (R100 corner cases a and b): SAMPLE_COUNT = 0 reads no bit and completes with HISTORY = INITIAL_HISTORY;
SAMPLE_COUNT = 1 reads one residual code and never a zero-run. -/
def Obligations.RdRunOfNoneAndOne : Prop :=
  ∀ s : State, Ready s → checkConfigRd s = .ok () →
    (s.sampleCount = 0 →
      exec .rdRun s =
        .next { s with done := true, history := s.initialHistory, signModifier := false, rdIdx := 0 })
    ∧ (s.sampleCount = 1 → ∀ v t, rdCode (rdK (startRd s)) s.sampleSize.toNat (startRd s) = .ok (v, t) →
          ∃ u, exec .rdRun s = .next u ∧ Completed u ∧ resAt u 0 = rdMap v ∧ u.bitpos = t.bitpos ∧ u.rdIdx = 1)

/-! ### The predictor reconstructor -/

/-- RD_RUN is RD.STEP while RD_IDX is below SAMPLE_COUNT (R99, R100), and PR_RUN is PR.STEP for each sample in turn (R117,
R118): the command completes in state `t` exactly when its checks pass, every one of its steps does, and `t` is what the last
of them left, with DONE set. -/
def Obligations.RunsAreTheirLoops : Prop :=
  ∀ s t : State, Ready s → t.fault = false →
    (exec .rdRun s = .next t ↔
      checkConfigRd s = .ok () ∧ ∃ (n : Nat) (σ : Nat → State), σ 0 = startRd (clearDone s)
        ∧ (∀ j < n, (σ j).rdIdx.toNat < s.sampleCount.toNat ∧ rdStep (σ j) = .ok (σ (j + 1)))
        ∧ (σ n).rdIdx = s.sampleCount ∧ t = finish (σ n))
    ∧ (exec .prRun s = .next t ↔
      checkConfigPr s = .ok () ∧ ∃ σ : Nat → State, σ 0 = startPr (clearDone s)
        ∧ (∀ j < s.sampleCount.toNat, (σ j).prIdx.toNat = j ∧ prStep (σ j) = .ok (σ (j + 1)))
        ∧ t = finish (σ s.sampleCount.toNat))

/-- Order 0 (R116): the samples are the running sums of the residuals, with no coefficient touched, for every QLP_SHIFT and
every COEF; where a running sum does not fit 32 bits the fault is E_SAMPLE_OVF, and no other can arise. -/
def Obligations.OrderZeroIsRunningSum : Prop :=
  ∀ s : State, Ready s → s.predType = 0 → s.order = 0 → s.qlpShift.toNat ≤ 15 →
    s.sampleCount.toNat ≤ s.params.maxn →
      ((∀ j < s.sampleCount.toNat, fitsEntry (∑ i ∈ Finset.range (j + 1), resAt s i) = true) →
        ∃ t, exec .prRun s = .next t ∧ Completed t ∧ t.coef = s.coef ∧ t.prIdx = s.sampleCount
          ∧ ∀ j < s.sampleCount.toNat, smpAt t j = ∑ i ∈ Finset.range (j + 1), resAt s i)
      ∧ ((∃ j < s.sampleCount.toNat, fitsEntry (∑ i ∈ Finset.range (j + 1), resAt s i) = false) →
        ∃ t, exec .prRun s = .next t ∧ t.fault = true ∧ t.faultCode = 10)

/-- Warm-up (R111, D28): in a completed PR_RUN the first ORDER + 1 samples are running sums of the residuals; when no sample
lies beyond them, QLP_SHIFT = 0 is harmless and COEF comes out unchanged. -/
def Obligations.WarmUpIsRunningSum : Prop :=
  (∀ s t : State, Ready s → exec .prRun s = .next t → t.fault = false →
    ∀ j, j < s.sampleCount.toNat → j ≤ s.order.toNat → smpAt t j = ∑ i ∈ Finset.range (j + 1), resAt s i)
  ∧ (∀ s : State, Ready s → checkConfigPr s = .ok () → s.sampleCount.toNat ≤ s.order.toNat + 1 →
    (∀ j < s.sampleCount.toNat, fitsEntry (∑ i ∈ Finset.range (j + 1), resAt s i) = true) →
      ∃ t, exec .prRun s = .next t ∧ Completed t ∧ t.coef = s.coef)

/-- A steady-state sample (R112, R113, R114): COEF[j] meets the sample j + 1 places back, each less the base; the half-step is
added and the shift rounds down; the new sample is the predicted difference plus the residual plus the base, stored when it
fits 32 bits, E_SAMPLE_OVF otherwise; E_SHIFT_ZERO comes first, and a fault of the adaptation that follows (E_COEF_OVF, R115)
last (R178 item 4). -/
def Obligations.SteadySamplePrediction : Prop :=
  ∀ s : State, 1 ≤ s.order.toNat → s.order.toNat < s.prIdx.toNat →
    let t := s.prIdx.toNat
    let o := s.order.toNat
    let sh := s.qlpShift.toNat
    let base := smpAt s (t - o - 1)
    let sum := ∑ j ∈ Finset.range o, coefAt s j * (smpAt s (t - 1 - j) - base)
    let x := (sum + 2 ^ (sh - 1)) / 2 ^ sh + resAt s t + base
    (sh = 0 → prStep s = .error .shiftZero)
    ∧ (sh ≠ 0 → fitsEntry x = false → prStep s = .error .sampleOvf)
    ∧ (sh ≠ 0 → fitsEntry x = true →
        smpAt (setSmp s t x) t = x
        ∧ (∀ u, prAdapt t base (setSmp s t x) = .ok u → prStep s = .ok (nextSample u))
        ∧ ∀ e, prAdapt t base (setSmp s t x) = .error e → prStep s = .error e)

/-- PR.ADAPT (R115, C4, D21): from the highest coefficient down, one at least and as many as it takes until the remaining
magnitude is consumed, each moved by one against the sign of `val` for a positive residual and with it for a negative one;
the coefficients below are untouched, a residual of 0 adapts nothing, and only COEF changes. It fails, with E_COEF_OVF, exactly
when a coefficient it visits (one at which magnitude remains) would leave 16 bits. -/
def Obligations.AdaptationVisitsUntilConsumed : Prop :=
  ∀ (t : Nat) (base : Int) (s : State), 1 ≤ s.order.toNat → s.order.toNat ≤ 31 → s.order.toNat < t →
    let moved (j : Nat) : Int := coefAt s j - sgn (resAt s t) * sgn (base - smpAt s (t - 1 - j))
    (∀ e, prAdapt t base s = .error e ↔
      e = .coefOvf ∧ ∃ n, n < s.order.toNat ∧ consumed s t base n < |resAt s t|
        ∧ ¬(-32768 ≤ moved (s.order.toNat - 1 - n) ∧ moved (s.order.toNat - 1 - n) ≤ 32767))
    ∧ ∀ u, prAdapt t base s = .ok u →
      u = { s with coef := u.coef }
      ∧ (resAt s t = 0 → u = s)
      ∧ (resAt s t ≠ 0 →
        ∃ n, 1 ≤ n ∧ n ≤ s.order.toNat ∧ (n = s.order.toNat ∨ |resAt s t| ≤ consumed s t base n)
          ∧ (∀ n', n' < n → consumed s t base n' < |resAt s t|)
          ∧ ∀ j, j < 32 → coefAt u j = if s.order.toNat - n ≤ j ∧ j < s.order.toNat then moved j else coefAt s j)

/-- E_SHIFT_ZERO (R25, R112): QLP_SHIFT = 0 passes the configuration check and faults at the first steady-state sample. -/
def Obligations.ShiftZeroFaultsWhenUsed : Prop :=
  ∀ s : State, Ready s → checkConfigPr s = .ok () → s.qlpShift = 0 → 1 ≤ s.order.toNat →
    s.order.toNat + 1 < s.sampleCount.toNat →
    (∀ j ≤ s.order.toNat, fitsEntry (∑ i ∈ Finset.range (j + 1), resAt s i) = true) →
      ∃ t, exec .prRun s = .next t ∧ t.fault = true ∧ t.faultCode = 7 ∧ t.done = false

/-- The frame of a completed PR_RUN (R118): SMP below SAMPLE_COUNT written, COEF below ORDER adapted to 16-bit values, PR_IDX
and DONE; BITPOS, BSMEM, RES, HISTORY, SIGN_MODIFIER and every other register as they were. -/
def Obligations.PrRunFrame : Prop :=
  ∀ (s t : State), Ready s → exec .prRun s = .next t → t.fault = false →
    t.done = true ∧ t.prIdx = s.sampleCount
    ∧ (∀ j, j < s.sampleCount.toNat → ∃ w, t.smp.get? j = some w)
    ∧ (∀ j, s.sampleCount.toNat ≤ j → t.smp.get? j = s.smp.get? j)
    ∧ (∀ j, j < s.order.toNat → -32768 ≤ coefAt t j ∧ coefAt t j ≤ 32767)
    ∧ (∀ j, s.order.toNat ≤ j → coefWord t j = coefWord s j)
    ∧ (∀ a, bsByte t a = bsByte s a) ∧ (∀ j, resWord t j = resWord s j)
    ∧ t = { s with done := true, smp := t.smp, coef := t.coef, prIdx := t.prIdx }

/-- Locality (R119): the first samples of a completed PR_RUN depend only on the first residuals: two states that differ in
nothing but residuals after entry `n` give the same samples up to entry `n`. -/
def Obligations.SamplesDependOnEarlierResiduals : Prop :=
  ∀ (n : Nat) (s t : State) (other : Memory 32) (u : State), Ready s →
    (∀ j ≤ n, resWord { s with res := other } j = resWord s j) →
    exec .prRun s = .next t → t.fault = false → exec .prRun { s with res := other } = .next u → u.fault = false →
      ∀ j, j ≤ n → j < s.sampleCount.toNat → smpAt u j = smpAt t j

/-! ### SF_RUN -/

/-- SF_RUN is RD_RUN followed by PR_RUN (R131 corner case a): one completes in a state exactly when the pair completes
there. -/
def Obligations.SfRunIsRdRunThenPrRun : Prop :=
  ∀ s u : State, Ready s → u.fault = false →
    (exec .sfRun s = .next u ↔ ∃ t, exec .rdRun s = .next t ∧ t.fault = false ∧ exec .prRun t = .next u)

/-- SF_RUN completes on every stream of enough bits when HISTORY cannot collapse (HISTORY_MULT = 0, INITIAL_HISTORY at least
128), every code is a bare prefix or an escape (MAXIMUM_K = 0), every sample is a running sum (order 0 or warm-up only) and
no sum of that many residuals can leave 32 bits: whatever the bits are, the samples are the running sums of the residuals
decoded (R66, R100, R111, R131). -/
def Obligations.SfRunCompletesOnAmpleStream : Prop :=
  ∀ s : State, Ready s → checkConfigRd s = .ok () → checkConfigPr s = .ok () → s.historyMult = 0 → s.maximumK = 0 →
    128 ≤ s.initialHistory.toNat → (s.order = 0 ∨ s.sampleCount.toNat ≤ s.order.toNat + 1) →
    4 ≤ s.sampleSize.toNat → s.sampleCount.toNat * 2 ^ (s.sampleSize.toNat - 1) < 2 ^ 31 →
    s.bitpos.toNat + 40 * s.sampleCount.toNat ≤ s.bitend.toNat →
      ∃ t, exec .sfRun s = .next t ∧ Completed t ∧ t.rdIdx = s.sampleCount ∧ t.prIdx = s.sampleCount ∧ t.coef = s.coef
        ∧ ∀ j < s.sampleCount.toNat, smpAt t j = ∑ i ∈ Finset.range (j + 1), resAt t i

/-- SF_RUN makes the predictor's check before a bit is consumed (R131 corner case b, R174, R178): a bad header faults, and
nothing but STATUS and FAULT_CODE changes. -/
def Obligations.SfRunChecksPredictorFirst : Prop :=
  ∀ (s : State) (e : BlockFault), Ready s → checkConfigRd s = .ok () → checkConfigPr s = .error e →
    exec .sfRun s = .next { s with done := false, fault := true, faultCode := faultCodeOf e }

/-- A working command run whole is the same as started and then stepped, codeword by codeword and sample by sample, until the
engine is idle: RD_RUN for `sf = false`, SF_RUN for `sf = true`, and PR_RUN, faults included (R8, R99, R100, R117, R118, R131).
That a codeword or a sample can be a step of its own is the model's choice (log 7). -/
def Obligations.WholeCommandIsItsSteps : Prop :=
  (∀ (sf : Bool) (s : State), Ready s → checkConfigRd s = .ok () → (sf = true → checkConfigPr s = .ok ()) →
    ∃ n, runSteps n { startRd (clearDone s) with engine := .residual sf }
      = exec (if sf then .sfRun else .rdRun) s)
  ∧ ∀ s : State, Ready s → checkConfigPr s = .ok () →
    ∃ n, runSteps n { startPr (clearDone s) with engine := .predict false } = exec .prRun s

/-! ### Control commands, acceptance, faults -/

/-- NOP (R130): no register, buffer or flag changes, FAULT or not; and NOP is the only command that does not clear DONE: the
outcome of every other accepted command does not depend on what DONE was. -/
def Obligations.NopChangesNothing : Prop :=
  decodeCommand 0x00000000 = .nop
  ∧ (∀ s : State, s.engine = .idle → exec .nop s = .next s)
  ∧ ∀ (s : State) (b : Bool) (i : Instr), Ready s → i ∈ [Instr.rdRun, .prRun, .sfRun, .clrFault, .softReset] →
      exec i { s with done := b } = exec i s

/-- CLR_FAULT (R132): FAULT, FAULT_CODE and DONE cleared and nothing else changed, FAULT or not. -/
def Obligations.ClrFaultClearsStatus : Prop :=
  decodeCommand 0x00000004 = .clrFault
  ∧ ∀ s : State, s.engine = .idle →
      exec .clrFault s = .next { s with fault := false, faultCode := 0, done := false }

/-- SOFT_RESET (R133): every register of REG reads 0, which is its reset value, FAULT or not; RES, SMP and BSMEM keep what
they held. -/
def Obligations.SoftResetZeroesRegisters : Prop :=
  decodeCommand 0x00000005 = .softReset
  ∧ ∀ s : State, s.engine = .idle → ∃ t, exec .softReset s = .next t
      ∧ (∀ r, r ≠ .cmd → readReg t r = some 0 ∧ readReg t r = readReg State.reset r)
      ∧ t.res = s.res ∧ t.smp = s.smp ∧ t.bsmem = s.bsmem ∧ t.params = s.params ∧ t.host = s.host
      ∧ t.reply = s.reply ∧ t.draws = s.draws ∧ t.reads = s.reads ∧ t.engine = .idle

/-- Reserved command words (R62, R173): every word but the six is one; written to CMD while FAULT is 0 it sets FAULT and
FAULT_CODE 12 and changes nothing else, DONE included; while FAULT is 1 it is ignored. -/
def Obligations.ReservedWordRaisesBadCmd : Prop :=
  (∀ w v : Word, decodeCommand w = .reservedCmd v ↔ v = w ∧ 5 < w.toNat)
  ∧ ∀ (s : State) (w : Word), s.engine = .idle → 5 < w.toNat →
      (s.fault = false → exec (.reservedCmd w) s = .next { s with fault := true, faultCode := 12 })
      ∧ (s.fault = true → exec (.reservedCmd w) s = .next s)

/-- While FAULT is 1 every command but CLR_FAULT and SOFT_RESET is ignored: no state changes and FAULT_CODE keeps the first
code (R177). -/
def Obligations.FaultHoldsCommandsBack : Prop :=
  ∀ (s : State) (i : Instr), s.engine = .idle → s.fault = true → i.codeword? = none →
    i ≠ .clrFault → i ≠ .softReset → exec i s = .next s

/-- Every working command ends (R208), in a state where none is running: it completed, or it faulted with DONE 0 (R134, R176),
with one of the codes the table of R170 gives that command. -/
def Obligations.WorkingCommandEnds : Prop :=
  ∀ (s : State) (i : Instr), Ready s → i ∈ [Instr.rdRun, .prRun, .sfRun] →
    ∃ t, exec i s = .next t ∧ t.engine = .idle
      ∧ (Completed t ∧ t.faultCode = s.faultCode
        ∨ t.fault = true ∧ t.done = false
          ∧ (i = .rdRun → t.faultCode ∈ ([1, 4, 5, 6, 8] : List Byte))
          ∧ (i = .prRun → t.faultCode ∈ ([2, 3, 4, 7, 9, 10] : List Byte))
          ∧ (i = .sfRun → t.faultCode ∈ ([1, 2, 3, 4, 5, 6, 7, 8, 9, 10] : List Byte)))

/-- What a fault leaves (R176): after one raised at command start nothing but STATUS and FAULT_CODE has changed; after any,
the parameter registers, BSMEM, the entries of RES and SMP at or above SAMPLE_COUNT and of COEF at or above ORDER are as they
were, and so are SMP after RD_RUN and RES after PR_RUN. -/
def Obligations.FaultLeavesTheRest : Prop :=
  ∀ (s t : State) (i : Instr), Ready s → i ∈ [Instr.rdRun, .prRun, .sfRun] → exec i s = .next t → t.fault = true →
    (t.faultCode ∈ ([2, 3, 4] : List Byte) → t = { s with done := false, fault := true, faultCode := t.faultCode })
    ∧ SameParameterRegisters s t ∧ t.params = s.params ∧ t.host = s.host ∧ t.reply = s.reply ∧ t.reads = s.reads
    ∧ (∀ a, bsByte t a = bsByte s a)
    ∧ (∀ j, s.sampleCount.toNat ≤ j → resWord t j = resWord s j ∧ smpWord t j = smpWord s j)
    ∧ (∀ j, s.order.toNat ≤ j → coefWord t j = coefWord s j)
    ∧ (i = .rdRun → ∀ j, smpWord t j = smpWord s j) ∧ (i = .prRun → ∀ j, resWord t j = resWord s j)

/-- The order of the configuration checks of PR_RUN (R174): a PRED_TYPE above 15, then a reserved one, then ORDER, then
QLP_SHIFT, then SAMPLE_COUNT, then a coefficient below ORDER outside 16 bits; each faults and nothing else changes. When none
fails, whatever COEF holds at or above ORDER, no configuration fault is raised. -/
def Obligations.PrRunConfigurationOrder : Prop :=
  ∀ s : State, Ready s →
    let faults (code : Byte) := exec .prRun s = .next { s with done := false, fault := true, faultCode := code }
    let illegal (j : Nat) := coefAt s j < -32768 ∨ 32767 < coefAt s j
    (15 < s.predType.toNat → faults 4)
    ∧ (1 ≤ s.predType.toNat → s.predType.toNat ≤ 15 → faults 3)
    ∧ (s.predType = 0 → 31 < s.order.toNat → faults 2)
    ∧ (s.predType = 0 → s.order.toNat ≤ 31 → 15 < s.qlpShift.toNat → faults 4)
    ∧ (s.predType = 0 → s.order.toNat ≤ 31 → s.qlpShift.toNat ≤ 15 → s.params.maxn < s.sampleCount.toNat → faults 4)
    ∧ (s.predType = 0 → s.order.toNat ≤ 31 → s.qlpShift.toNat ≤ 15 → s.sampleCount.toNat ≤ s.params.maxn →
      (∃ j, j < s.order.toNat ∧ illegal j) → faults 4)
    ∧ (s.predType = 0 → s.order.toNat ≤ 31 → s.qlpShift.toNat ≤ 15 → s.sampleCount.toNat ≤ s.params.maxn →
      (∀ j, j < s.order.toNat → ¬illegal j) →
        ∃ t, exec .prRun s = .next t ∧ (t.fault = true → t.faultCode ∈ ([7, 9, 10] : List Byte)))

/-- The configuration checks of RD_RUN (R174): a register outside its legal range is E_CONFIG and nothing else changes. -/
def Obligations.RdRunConfiguration : Prop :=
  ∀ s : State, Ready s →
    (255 < s.historyMult.toNat ∨ 255 < s.maximumK.toNat ∨ s.sampleSize.toNat < 1 ∨ 31 < s.sampleSize.toNat
      ∨ s.params.maxn < s.sampleCount.toNat ∨ 8 * s.params.bsbytes < s.bitend.toNat
      ∨ s.bitend.toNat < s.bitpos.toNat) →
    exec .rdRun s = .next { s with done := false, fault := true, faultCode := 4 }

/-! ### Whole-machine rules -/

/-- RICE_MODIFIER changes no behaviour (R26): every instruction but SOFT_RESET, which clears it, has the same outcome whatever
it holds, and leaves it as it is. It is an RW register at offset 0x038 and resets to 0. -/
def Obligations.RiceModifierHasNoEffect : Prop :=
  (∀ (i : Instr) (s : State) (w : Word), i ≠ .softReset →
    exec i { s with riceModifier := w } =
      match exec i s with
      | .next t => .next { t with riceModifier := w }
      | .fault r => .fault r
      | .refused r => .refused r)
  ∧ (∀ (i : Instr) (s t : State), i ≠ .softReset → exec i s = .next t → t.riceModifier = s.riceModifier)
  ∧ regAt 0x038 = some .riceModifier ∧ writable .riceModifier = true ∧ State.reset.riceModifier = 0

/-- No instruction changes BSMEM, the parameters or the host's side, and none but SOFT_RESET a parameter register (R34, R52,
R17 to R27). -/
def Obligations.InstructionsKeepStreamAndParameters : Prop :=
  ∀ (i : Instr) (s t : State), exec i s = .next t →
    t.bsmem = s.bsmem ∧ t.params = s.params ∧ t.host = s.host ∧ t.reply = s.reply ∧ t.reads = s.reads
      ∧ (i ≠ .softReset → SameParameterRegisters s t)

/-- RD_RUN does not look at PRED_TYPE, QLP_SHIFT, ORDER, COEF or SMP (R100 corner case c): with these different it ends with
the same DONE, FAULT and FAULT_CODE, and where it does not fault with the same RES, BITPOS, HISTORY, SIGN_MODIFIER and RD_IDX. -/
def Obligations.RdRunIgnoresPredictorState : Prop :=
  ∀ (s t : State) (pt sh o : Word) (cs : Vector Word 32) (m : Memory 32), exec .rdRun s = .next t →
    ∃ u, exec .rdRun { s with predType := pt, qlpShift := sh, order := o, coef := cs, smp := m } = .next u
      ∧ u.done = t.done ∧ u.fault = t.fault ∧ u.faultCode = t.faultCode
      ∧ (t.fault = false → u.res = t.res ∧ u.bitpos = t.bitpos ∧ u.history = t.history
          ∧ u.signModifier = t.signModifier ∧ u.rdIdx = t.rdIdx)

/-- PR_RUN does not read BITPOS, BSMEM, HISTORY, SIGN_MODIFIER, SAMPLE_SIZE or RICE_MODIFIER (R118): with these different it
ends with the same DONE, FAULT and FAULT_CODE, and where it does not fault with the same SMP, COEF and PR_IDX. -/
def Obligations.PrRunIgnoresStreamState : Prop :=
  ∀ (s t : State) (bp h sz rm : Word) (b : Bool) (m : Memory 8), exec .prRun s = .next t →
    ∃ u, exec .prRun
          { s with bitpos := bp, history := h, sampleSize := sz, riceModifier := rm, signModifier := b, bsmem := m }
        = .next u
      ∧ u.done = t.done ∧ u.fault = t.fault ∧ u.faultCode = t.faultCode
      ∧ (t.fault = false → u.smp = t.smp ∧ u.coef = t.coef ∧ u.prIdx = t.prIdx)

/-- Every step keeps the invariant `Inv`: parameters in range, buffers in canonical form and within their sizes, FAULT_CODE 0
exactly when FAULT is 0, and a running command within what its checks passed (R2, R16, R35, R42, R99, R117). -/
def Obligations.StepKeepsInvariant : Prop :=
  ∀ s t : State, Inv s → step s = .next t → Inv t

/-- The invariant holds right after reset. -/
def Obligations.ResetMeetsInvariant : Prop := Inv State.reset

/-- Between two accesses of the host no command is running (R8, R15, D20): a step from an idle state, which serves an access,
leaves an idle state; and no step is ever refused where the invariant holds. -/
def Obligations.CommandsAreAtomic : Prop :=
  (∀ s t : State, s.engine = .idle → step s = .next t → t.engine = .idle)
  ∧ ∀ s : State, Inv s → ∃ t, step s = .next t

/-! ### Steps and host accesses -/

/-- A step runs the decoded instruction: a word the host writes to CMD when no command runs (R134); the codeword under the
cursor of a running residual decoder, read under the parameters its state selects (R67). With no command and no access the
block holds its state (R183). That the host's accesses stand in a list which the step serves is the model's choice (log 6), and
so is that a codeword is a step of its own (log 7): by R8 a command is not divided. -/
def Obligations.StepRunsDecodedInstruction : Prop :=
  (∀ (s : State) (w : Word) (rest : List HostAccess), s.engine = .idle → s.host = .wr 0 w :: rest →
    step s = exec (decodeCommand w) (afterWrite s rest))
  ∧ (∀ (s : State) (sf : Bool) (i : Instr) (more : List Bool), s.engine = .residual sf →
    s.rdIdx.toNat < s.sampleCount.toNat →
    decodeCodeword (rdK s) s.sampleSize.toNat (streamWindow s (rdK s) s.sampleSize.toNat) = .ok (i, more) →
      step s = exec i s)
  ∧ (∀ (s : State) (sf : Bool) (zk : Nat) (i : Instr) (more : List Bool), s.engine = .zeroRun sf →
    rdZk s = .ok zk → decodeCodeword zk 16 (streamWindow s zk 16) = .ok (i, more) → step s = exec i s)
  ∧ ∀ s : State, s.engine = .idle → s.host = [] → step s = .next s

/-- HOST.WR then HOST.RD of an RW register returns the word as written, whatever it is, FAULT or not; every other register
reads as before (R10, R135). -/
def Obligations.RegisterReadsBackWordWritten : Prop :=
  ∀ (s : State) (off : Nat) (w : Word) (r : Reg) (rest : List HostAccess), s.engine = .idle → regAt off = some r →
    writable r = true → s.host = .wr off w :: .rd off :: rest →
      ∃ t, runSteps 2 s = .next t ∧ t.reply = some w ∧ t.host = rest
        ∧ ∀ r', r' ≠ r → readReg t r' = readReg s r'

/-- A write to an RO register, an unused offset, a misaligned offset or one above 0x0FC has no effect and raises no fault
(R10, R42, R135). -/
def Obligations.RefusedRegisterWriteHasNoEffect : Prop :=
  ∀ (s : State) (off : Nat) (w : Word) (rest : List HostAccess), s.engine = .idle → off ≠ 0 →
    (∀ r, regAt off = some r → writable r = false) → s.host = .wr off w :: rest →
      step s = .next (afterWrite s rest)

/-- A host read changes no state of the block, and reading the same register location or existing entry again, with no write
or command between, returns the same word (R43). At CMD and at the unused offsets (0x00C, 0x02C, 0x050 to 0x07C) the word is
unspecified (R44, U7), and that it stays the same until a write is the model's choice (log 5). -/
def Obligations.ReadsAreIdempotent : Prop :=
  ∀ (s : State) (a : HostAccess) (rest : List HostAccess), s.engine = .idle →
    (∃ off, a = .rd off ∧ off % 4 = 0 ∧ off ≤ 0x0FC) ∨ (∃ j, a = .rres j ∧ j < s.params.maxn)
      ∨ (∃ j, a = .rsmp j ∧ j < s.params.maxn) ∨ (∃ x, a = .rbs x ∧ x < s.params.bsbytes) →
    s.host = a :: a :: rest →
      ∃ t u, step s = .next t ∧ step t = .next u ∧ u.reply = t.reply
        ∧ t = { s with host := a :: rest, reply := t.reply, reads := s.reads + 1 }
        ∧ u = { t with host := rest, reply := t.reply, reads := t.reads + 1 }

/-- HOST.WRES and HOST.RRES (R136): an existing entry reads back as written and every other entry keeps its value; an index at
or above MAXN is refused without effect; a host write to SMP is ignored. -/
def Obligations.ResidualBufferAccess : Prop :=
  ∀ (s : State) (j : Nat) (v : Word) (rest : List HostAccess), s.engine = .idle →
    (s.host = .wres j v :: rest → j < s.params.maxn →
      ∃ t, step s = .next t ∧ t = { afterWrite s rest with res := t.res } ∧ hostRres j t = v
        ∧ ∀ j', j' ≠ j → resWord t j' = resWord s j')
    ∧ (s.host = .wres j v :: rest → s.params.maxn ≤ j → step s = .next (afterWrite s rest))
    ∧ (s.host = .wsmp j v :: rest → step s = .next (afterWrite s rest))

/-- HOST.WBS (R40, R137): the byte's bits, the most significant first, are the stream bits `8a` to `8a + 7`; every other
stream bit keeps its value; an index at or above BSBYTES is refused without effect. -/
def Obligations.ByteWriteSetsStreamBits : Prop :=
  ∀ (s : State) (a : Nat) (b : Byte) (rest : List HostAccess), s.engine = .idle → s.host = .wbs a b :: rest →
    (a < s.params.bsbytes →
      ∃ t, step s = .next t ∧ t = { afterWrite s rest with bsmem := t.bsmem }
        ∧ hostRbs a t = b.setWidth 32
        ∧ (∀ j, j < 8 → bitAt t (8 * a + j) = b.getLsbD (7 - j))
        ∧ ∀ p, p / 8 ≠ a → bitAt t p = bitAt s p)
    ∧ (s.params.bsbytes ≤ a → step s = .next (afterWrite s rest))

/-- STATUS as the host reads it (R15): bit 0 never shows BUSY, bit 1 is DONE, bit 2 is FAULT, the rest 0. -/
def Obligations.StatusReadsDoneAndFault : Prop :=
  ∀ (s : State) (rest : List HostAccess), s.engine = .idle → s.host = .rd 0x004 :: rest →
    ∃ t w, step s = .next t ∧ t.reply = some w ∧ w.getLsbD 0 = false ∧ w.getLsbD 1 = s.done
      ∧ w.getLsbD 2 = s.fault ∧ w.toNat < 8

/-! ### Reset -/

/-- After hardware reset (R190) every register of REG holds 0, no command is running, and every entry of RES and SMP and every
byte of BSMEM is unspecified: that it is unlisted and reads as a free value of its own is the model's choice (log 3). A reset
block is inert (D16): an RD_RUN issued by mistake is E_CONFIG and consumes nothing (R190), and so is an SF_RUN, while a PR_RUN
completes having written nothing (both follow from R174 at the reset values). -/
def Obligations.ResetState : Prop :=
  (∀ r, r ≠ .cmd → readReg State.reset r = some 0)
  ∧ State.reset.engine = .idle
  ∧ (∀ j, resWord State.reset j = Config.resetRes j) ∧ (∀ j, smpWord State.reset j = Config.resetSmp j)
  ∧ (∀ a, bsByte State.reset a = Config.resetByte a)
  ∧ exec .rdRun State.reset = .next { State.reset with fault := true, faultCode := 4 }
  ∧ exec .sfRun State.reset = .next { State.reset with fault := true, faultCode := 4 }
  ∧ exec .prRun State.reset = .next { State.reset with done := true }
end

