-- ==== Sys2Proof/Laws/Memory.lean ====
section
/-! SUPPORT. The laws of the buffers: a read after a write, a write elsewhere, and that every operation keeps the
canonical form and writes no entry that does not exist. -/

namespace Sys2Proof.Machine

variable {width : Nat}

@[simp] theorem Memory.get?_nil (a : Nat) : Memory.get? ([] : Memory width) a = none := rfl

theorem Memory.get?_set_same (m : Memory width) (a : Nat) (v : BitVec width) : (m.set a v).get? a = some v := by
  induction m with
  | nil => simp [Memory.set, Memory.get?]
  | cons c m ih =>
    obtain ⟨b, x⟩ := c
    simp only [Memory.set]
    split
    · simp [Memory.get?]
    · split
      · simp [Memory.get?]
      · simp [Memory.get?, *]

theorem Memory.get?_set_other (m : Memory width) (v : BitVec width) {a b : Nat} (h : b ≠ a) :
    (m.set a v).get? b = m.get? b := by
  induction m with
  | nil => simp [Memory.set, Memory.get?, Ne.symm h]
  | cons c m ih =>
    obtain ⟨d, x⟩ := c
    simp only [Memory.set]
    split
    · simp [Memory.get?, Ne.symm h]
    · split
      · subst d; simp [Memory.get?, Ne.symm h]
      · simp [Memory.get?, ih]

theorem Memory.get?_set (m : Memory width) (v : BitVec width) (a b : Nat) :
    (m.set a v).get? b = if b = a then some v else m.get? b := by
  split
  · subst b; exact Memory.get?_set_same m a v
  · exact Memory.get?_set_other m v ‹_›

theorem Memory.mem_set {m : Memory width} {a : Nat} {v : BitVec width} {c : Nat × BitVec width}
    (h : c ∈ m.set a v) : c = (a, v) ∨ c ∈ m := by
  induction m with
  | nil => simpa [Memory.set] using h
  | cons d m ih =>
    obtain ⟨b, x⟩ := d
    simp only [Memory.set] at h
    split at h
    · simpa using h
    · split at h
      · simp at h ⊢; tauto
      · simp at h ⊢; tauto

theorem Memory.below_set {m : Memory width} {n a : Nat} {v : BitVec width} (hm : m.below n) (ha : a < n) :
    (m.set a v).below n := fun c hc => by
  rcases Memory.mem_set hc with rfl | h
  · exact ha
  · exact hm c h

theorem Memory.wf_set {m : Memory width} (a : Nat) (v : BitVec width) (hm : m.wf) : (m.set a v).wf := by
  induction m with
  | nil => simp [Memory.set, Memory.wf]
  | cons d m ih =>
    obtain ⟨b, x⟩ := d
    simp only [Memory.wf, List.map_cons, List.pairwise_cons] at hm
    simp only [Memory.set]
    split
    · rename_i hab
      simp only [Memory.wf, List.map_cons, List.pairwise_cons]
      refine ⟨?_, hm⟩
      intro y hy
      rcases List.mem_cons.1 hy with rfl | hy
      · exact hab
      · exact lt_trans hab (hm.1 y hy)
    · split
      · subst b; simpa [Memory.wf] using hm
      · simp only [Memory.wf, List.map_cons, List.pairwise_cons]
        refine ⟨?_, ih hm.2⟩
        intro y hy
        obtain ⟨c, hc, rfl⟩ := List.mem_map.1 hy
        rcases Memory.mem_set hc with rfl | hc
        · simp only; omega
        · exact hm.1 _ (List.mem_map.2 ⟨c, hc, rfl⟩)

theorem Memory.get?_filter (m : Memory width) (n a : Nat) :
    Memory.get? (m.filter (fun c => decide (n ≤ c.1))) a = if n ≤ a then m.get? a else none := by
  induction m with
  | nil => simp
  | cons c m ih =>
    obtain ⟨b, x⟩ := c
    by_cases hb : n ≤ b
    · simp only [List.filter_cons, hb, decide_true, if_true, Memory.get?, ih]
      by_cases hab : b = a
      · subst b; simp [hb]
      · simp [hab]
    · simp only [List.filter_cons, hb, decide_false, Bool.false_eq_true, if_false, Memory.get?, ih]
      by_cases hab : b = a
      · subst b; simp [hb]
      · simp [hab]

theorem Memory.get?_append (m m' : Memory width) (a : Nat) :
    Memory.get? (m ++ m') a = (Memory.get? m a).or (Memory.get? m' a) := by
  induction m with
  | nil => simp
  | cons c m ih =>
    obtain ⟨b, x⟩ := c
    by_cases hb : b = a
    · simp [Memory.get?, hb]
    · simp [Memory.get?, hb, ih]

theorem Memory.get?_map_range (n : Nat) (f : Nat → BitVec width) (a : Nat) :
    Memory.get? ((List.range n).map fun i => (i, f i)) a = if a < n then some (f a) else none := by
  induction n with
  | zero => simp
  | succ n ih =>
    rw [List.range_succ, List.map_append, Memory.get?_append, ih]
    by_cases h : a < n
    · simp [h, Nat.lt_succ_of_lt h]
    · by_cases h' : n = a
      · subst a; simp [Memory.get?]
      · simp [h, Memory.get?, h', show ¬ a < n + 1 by omega]

theorem Memory.get?_fill (n : Nat) (f : Nat → BitVec width) (m : Memory width) (a : Nat) :
    (m.fill n f).get? a = if a < n then some (f a) else m.get? a := by
  rw [Memory.fill, Memory.get?_append, Memory.get?_map_range, Memory.get?_filter]
  by_cases h : a < n
  · simp [h]
  · simp [h, Nat.le_of_not_lt h]

theorem Memory.wf_fill {m : Memory width} (n : Nat) (f : Nat → BitVec width) (hm : m.wf) : (m.fill n f).wf := by
  simp only [Memory.wf, Memory.fill, List.map_append, List.map_map, List.pairwise_append]
  refine ⟨?_, ?_, ?_⟩
  · have : (Prod.fst ∘ fun i : Nat => (i, f i)) = id := rfl
    rw [this, List.map_id]
    exact List.pairwise_lt_range
  · exact hm.sublist (List.filter_sublist.map _)
  · intro x hx y hy
    obtain ⟨i, hi, rfl⟩ := List.mem_map.1 hx
    obtain ⟨c, hc, rfl⟩ := List.mem_map.1 hy
    have h1 := List.mem_range.1 hi
    have h2 := of_decide_eq_true (List.mem_filter.1 hc).2
    simp only [Function.comp_apply]
    omega

theorem Memory.below_fill {m : Memory width} {n k : Nat} (f : Nat → BitVec width) (hm : m.below k) (hn : n ≤ k) :
    (m.fill n f).below k := by
  intro c hc
  rcases List.mem_append.1 hc with h | h
  · obtain ⟨i, hi, rfl⟩ := List.mem_map.1 h
    exact lt_of_lt_of_le (List.mem_range.1 hi) hn
  · exact hm c (List.mem_filter.1 h).1

/-- What was written below `n` before does not matter to `fill n`. -/
theorem Memory.fill_set (n : Nat) (f : Nat → BitVec width) (m : Memory width) {a : Nat} (v : BitVec width) (h : a < n) :
    (m.set a v).fill n f = m.fill n f := by
  suffices (m.set a v).filter (fun c => decide (n ≤ c.1)) = m.filter (fun c => decide (n ≤ c.1)) by
    rw [Memory.fill, Memory.fill, this]
  have ha : ¬ n ≤ a := by omega
  induction m with
  | nil => simp [Memory.set, ha]
  | cons c m ih =>
    obtain ⟨b, x⟩ := c
    simp only [Memory.set]
    split
    · simp [ha]
    · split
      · subst b; simp [ha]
      · simp [List.filter_cons, ih]

end Sys2Proof.Machine
end

