-- ==== Sys2Proof/Laws/State.lean ====
section
/-! SUPPORT. One lemma for each field of State under each named update, so that no proof unfolds a record update. -/

namespace Sys2Proof.Machine

@[simp] theorem advance_done (n : Nat) (s : State) : (advance n s).done = s.done := rfl
@[simp] theorem advance_fault (n : Nat) (s : State) : (advance n s).fault = s.fault := rfl
@[simp] theorem advance_faultCode (n : Nat) (s : State) : (advance n s).faultCode = s.faultCode := rfl
@[simp] theorem advance_historyMult (n : Nat) (s : State) : (advance n s).historyMult = s.historyMult := rfl
@[simp] theorem advance_initialHistory (n : Nat) (s : State) : (advance n s).initialHistory = s.initialHistory := rfl
@[simp] theorem advance_maximumK (n : Nat) (s : State) : (advance n s).maximumK = s.maximumK := rfl
@[simp] theorem advance_sampleSize (n : Nat) (s : State) : (advance n s).sampleSize = s.sampleSize := rfl
@[simp] theorem advance_sampleCount (n : Nat) (s : State) : (advance n s).sampleCount = s.sampleCount := rfl
@[simp] theorem advance_bitpos (n : Nat) (s : State) : (advance n s).bitpos = BitVec.ofNat 32 (s.bitpos.toNat + n) := rfl
@[simp] theorem advance_bitend (n : Nat) (s : State) : (advance n s).bitend = s.bitend := rfl
@[simp] theorem advance_predType (n : Nat) (s : State) : (advance n s).predType = s.predType := rfl
@[simp] theorem advance_qlpShift (n : Nat) (s : State) : (advance n s).qlpShift = s.qlpShift := rfl
@[simp] theorem advance_riceModifier (n : Nat) (s : State) : (advance n s).riceModifier = s.riceModifier := rfl
@[simp] theorem advance_order (n : Nat) (s : State) : (advance n s).order = s.order := rfl
@[simp] theorem advance_history (n : Nat) (s : State) : (advance n s).history = s.history := rfl
@[simp] theorem advance_signModifier (n : Nat) (s : State) : (advance n s).signModifier = s.signModifier := rfl
@[simp] theorem advance_rdIdx (n : Nat) (s : State) : (advance n s).rdIdx = s.rdIdx := rfl
@[simp] theorem advance_prIdx (n : Nat) (s : State) : (advance n s).prIdx = s.prIdx := rfl
@[simp] theorem advance_coef (n : Nat) (s : State) : (advance n s).coef = s.coef := rfl
@[simp] theorem advance_res (n : Nat) (s : State) : (advance n s).res = s.res := rfl
@[simp] theorem advance_smp (n : Nat) (s : State) : (advance n s).smp = s.smp := rfl
@[simp] theorem advance_bsmem (n : Nat) (s : State) : (advance n s).bsmem = s.bsmem := rfl
@[simp] theorem advance_params (n : Nat) (s : State) : (advance n s).params = s.params := rfl
@[simp] theorem advance_engine (n : Nat) (s : State) : (advance n s).engine = s.engine := rfl
@[simp] theorem advance_host (n : Nat) (s : State) : (advance n s).host = s.host := rfl
@[simp] theorem advance_reply (n : Nat) (s : State) : (advance n s).reply = s.reply := rfl
@[simp] theorem advance_draws (n : Nat) (s : State) : (advance n s).draws = s.draws := rfl
@[simp] theorem advance_reads (n : Nat) (s : State) : (advance n s).reads = s.reads := rfl

@[simp] theorem bsUnread_done (n : Nat) (s : State) : (bsUnread n s).done = s.done := rfl
@[simp] theorem bsUnread_fault (n : Nat) (s : State) : (bsUnread n s).fault = s.fault := rfl
@[simp] theorem bsUnread_faultCode (n : Nat) (s : State) : (bsUnread n s).faultCode = s.faultCode := rfl
@[simp] theorem bsUnread_historyMult (n : Nat) (s : State) : (bsUnread n s).historyMult = s.historyMult := rfl
@[simp] theorem bsUnread_initialHistory (n : Nat) (s : State) : (bsUnread n s).initialHistory = s.initialHistory := rfl
@[simp] theorem bsUnread_maximumK (n : Nat) (s : State) : (bsUnread n s).maximumK = s.maximumK := rfl
@[simp] theorem bsUnread_sampleSize (n : Nat) (s : State) : (bsUnread n s).sampleSize = s.sampleSize := rfl
@[simp] theorem bsUnread_sampleCount (n : Nat) (s : State) : (bsUnread n s).sampleCount = s.sampleCount := rfl
@[simp] theorem bsUnread_bitpos (n : Nat) (s : State) : (bsUnread n s).bitpos = BitVec.ofNat 32 (s.bitpos.toNat - n) := rfl
@[simp] theorem bsUnread_bitend (n : Nat) (s : State) : (bsUnread n s).bitend = s.bitend := rfl
@[simp] theorem bsUnread_predType (n : Nat) (s : State) : (bsUnread n s).predType = s.predType := rfl
@[simp] theorem bsUnread_qlpShift (n : Nat) (s : State) : (bsUnread n s).qlpShift = s.qlpShift := rfl
@[simp] theorem bsUnread_riceModifier (n : Nat) (s : State) : (bsUnread n s).riceModifier = s.riceModifier := rfl
@[simp] theorem bsUnread_order (n : Nat) (s : State) : (bsUnread n s).order = s.order := rfl
@[simp] theorem bsUnread_history (n : Nat) (s : State) : (bsUnread n s).history = s.history := rfl
@[simp] theorem bsUnread_signModifier (n : Nat) (s : State) : (bsUnread n s).signModifier = s.signModifier := rfl
@[simp] theorem bsUnread_rdIdx (n : Nat) (s : State) : (bsUnread n s).rdIdx = s.rdIdx := rfl
@[simp] theorem bsUnread_prIdx (n : Nat) (s : State) : (bsUnread n s).prIdx = s.prIdx := rfl
@[simp] theorem bsUnread_coef (n : Nat) (s : State) : (bsUnread n s).coef = s.coef := rfl
@[simp] theorem bsUnread_res (n : Nat) (s : State) : (bsUnread n s).res = s.res := rfl
@[simp] theorem bsUnread_smp (n : Nat) (s : State) : (bsUnread n s).smp = s.smp := rfl
@[simp] theorem bsUnread_bsmem (n : Nat) (s : State) : (bsUnread n s).bsmem = s.bsmem := rfl
@[simp] theorem bsUnread_params (n : Nat) (s : State) : (bsUnread n s).params = s.params := rfl
@[simp] theorem bsUnread_engine (n : Nat) (s : State) : (bsUnread n s).engine = s.engine := rfl
@[simp] theorem bsUnread_host (n : Nat) (s : State) : (bsUnread n s).host = s.host := rfl
@[simp] theorem bsUnread_reply (n : Nat) (s : State) : (bsUnread n s).reply = s.reply := rfl
@[simp] theorem bsUnread_draws (n : Nat) (s : State) : (bsUnread n s).draws = s.draws := rfl
@[simp] theorem bsUnread_reads (n : Nat) (s : State) : (bsUnread n s).reads = s.reads := rfl

@[simp] theorem setRes_done (i : Nat) (r : Int) (s : State) : (setRes s i r).done = s.done := rfl
@[simp] theorem setRes_fault (i : Nat) (r : Int) (s : State) : (setRes s i r).fault = s.fault := rfl
@[simp] theorem setRes_faultCode (i : Nat) (r : Int) (s : State) : (setRes s i r).faultCode = s.faultCode := rfl
@[simp] theorem setRes_historyMult (i : Nat) (r : Int) (s : State) : (setRes s i r).historyMult = s.historyMult := rfl
@[simp] theorem setRes_initialHistory (i : Nat) (r : Int) (s : State) : (setRes s i r).initialHistory = s.initialHistory := rfl
@[simp] theorem setRes_maximumK (i : Nat) (r : Int) (s : State) : (setRes s i r).maximumK = s.maximumK := rfl
@[simp] theorem setRes_sampleSize (i : Nat) (r : Int) (s : State) : (setRes s i r).sampleSize = s.sampleSize := rfl
@[simp] theorem setRes_sampleCount (i : Nat) (r : Int) (s : State) : (setRes s i r).sampleCount = s.sampleCount := rfl
@[simp] theorem setRes_bitpos (i : Nat) (r : Int) (s : State) : (setRes s i r).bitpos = s.bitpos := rfl
@[simp] theorem setRes_bitend (i : Nat) (r : Int) (s : State) : (setRes s i r).bitend = s.bitend := rfl
@[simp] theorem setRes_predType (i : Nat) (r : Int) (s : State) : (setRes s i r).predType = s.predType := rfl
@[simp] theorem setRes_qlpShift (i : Nat) (r : Int) (s : State) : (setRes s i r).qlpShift = s.qlpShift := rfl
@[simp] theorem setRes_riceModifier (i : Nat) (r : Int) (s : State) : (setRes s i r).riceModifier = s.riceModifier := rfl
@[simp] theorem setRes_order (i : Nat) (r : Int) (s : State) : (setRes s i r).order = s.order := rfl
@[simp] theorem setRes_history (i : Nat) (r : Int) (s : State) : (setRes s i r).history = s.history := rfl
@[simp] theorem setRes_signModifier (i : Nat) (r : Int) (s : State) : (setRes s i r).signModifier = s.signModifier := rfl
@[simp] theorem setRes_rdIdx (i : Nat) (r : Int) (s : State) : (setRes s i r).rdIdx = s.rdIdx := rfl
@[simp] theorem setRes_prIdx (i : Nat) (r : Int) (s : State) : (setRes s i r).prIdx = s.prIdx := rfl
@[simp] theorem setRes_coef (i : Nat) (r : Int) (s : State) : (setRes s i r).coef = s.coef := rfl
@[simp] theorem setRes_res (i : Nat) (r : Int) (s : State) : (setRes s i r).res = s.res.set i (BitVec.ofInt 32 r) := rfl
@[simp] theorem setRes_smp (i : Nat) (r : Int) (s : State) : (setRes s i r).smp = s.smp := rfl
@[simp] theorem setRes_bsmem (i : Nat) (r : Int) (s : State) : (setRes s i r).bsmem = s.bsmem := rfl
@[simp] theorem setRes_params (i : Nat) (r : Int) (s : State) : (setRes s i r).params = s.params := rfl
@[simp] theorem setRes_engine (i : Nat) (r : Int) (s : State) : (setRes s i r).engine = s.engine := rfl
@[simp] theorem setRes_host (i : Nat) (r : Int) (s : State) : (setRes s i r).host = s.host := rfl
@[simp] theorem setRes_reply (i : Nat) (r : Int) (s : State) : (setRes s i r).reply = s.reply := rfl
@[simp] theorem setRes_draws (i : Nat) (r : Int) (s : State) : (setRes s i r).draws = s.draws := rfl
@[simp] theorem setRes_reads (i : Nat) (r : Int) (s : State) : (setRes s i r).reads = s.reads := rfl

@[simp] theorem setSmp_done (i : Nat) (x : Int) (s : State) : (setSmp s i x).done = s.done := rfl
@[simp] theorem setSmp_fault (i : Nat) (x : Int) (s : State) : (setSmp s i x).fault = s.fault := rfl
@[simp] theorem setSmp_faultCode (i : Nat) (x : Int) (s : State) : (setSmp s i x).faultCode = s.faultCode := rfl
@[simp] theorem setSmp_historyMult (i : Nat) (x : Int) (s : State) : (setSmp s i x).historyMult = s.historyMult := rfl
@[simp] theorem setSmp_initialHistory (i : Nat) (x : Int) (s : State) : (setSmp s i x).initialHistory = s.initialHistory := rfl
@[simp] theorem setSmp_maximumK (i : Nat) (x : Int) (s : State) : (setSmp s i x).maximumK = s.maximumK := rfl
@[simp] theorem setSmp_sampleSize (i : Nat) (x : Int) (s : State) : (setSmp s i x).sampleSize = s.sampleSize := rfl
@[simp] theorem setSmp_sampleCount (i : Nat) (x : Int) (s : State) : (setSmp s i x).sampleCount = s.sampleCount := rfl
@[simp] theorem setSmp_bitpos (i : Nat) (x : Int) (s : State) : (setSmp s i x).bitpos = s.bitpos := rfl
@[simp] theorem setSmp_bitend (i : Nat) (x : Int) (s : State) : (setSmp s i x).bitend = s.bitend := rfl
@[simp] theorem setSmp_predType (i : Nat) (x : Int) (s : State) : (setSmp s i x).predType = s.predType := rfl
@[simp] theorem setSmp_qlpShift (i : Nat) (x : Int) (s : State) : (setSmp s i x).qlpShift = s.qlpShift := rfl
@[simp] theorem setSmp_riceModifier (i : Nat) (x : Int) (s : State) : (setSmp s i x).riceModifier = s.riceModifier := rfl
@[simp] theorem setSmp_order (i : Nat) (x : Int) (s : State) : (setSmp s i x).order = s.order := rfl
@[simp] theorem setSmp_history (i : Nat) (x : Int) (s : State) : (setSmp s i x).history = s.history := rfl
@[simp] theorem setSmp_signModifier (i : Nat) (x : Int) (s : State) : (setSmp s i x).signModifier = s.signModifier := rfl
@[simp] theorem setSmp_rdIdx (i : Nat) (x : Int) (s : State) : (setSmp s i x).rdIdx = s.rdIdx := rfl
@[simp] theorem setSmp_prIdx (i : Nat) (x : Int) (s : State) : (setSmp s i x).prIdx = s.prIdx := rfl
@[simp] theorem setSmp_coef (i : Nat) (x : Int) (s : State) : (setSmp s i x).coef = s.coef := rfl
@[simp] theorem setSmp_res (i : Nat) (x : Int) (s : State) : (setSmp s i x).res = s.res := rfl
@[simp] theorem setSmp_smp (i : Nat) (x : Int) (s : State) : (setSmp s i x).smp = s.smp.set i (BitVec.ofInt 32 x) := rfl
@[simp] theorem setSmp_bsmem (i : Nat) (x : Int) (s : State) : (setSmp s i x).bsmem = s.bsmem := rfl
@[simp] theorem setSmp_params (i : Nat) (x : Int) (s : State) : (setSmp s i x).params = s.params := rfl
@[simp] theorem setSmp_engine (i : Nat) (x : Int) (s : State) : (setSmp s i x).engine = s.engine := rfl
@[simp] theorem setSmp_host (i : Nat) (x : Int) (s : State) : (setSmp s i x).host = s.host := rfl
@[simp] theorem setSmp_reply (i : Nat) (x : Int) (s : State) : (setSmp s i x).reply = s.reply := rfl
@[simp] theorem setSmp_draws (i : Nat) (x : Int) (s : State) : (setSmp s i x).draws = s.draws := rfl
@[simp] theorem setSmp_reads (i : Nat) (x : Int) (s : State) : (setSmp s i x).reads = s.reads := rfl

@[simp] theorem setCoef_done (j : Nat) (c : Int) (s : State) : (setCoef s j c).done = s.done := rfl
@[simp] theorem setCoef_fault (j : Nat) (c : Int) (s : State) : (setCoef s j c).fault = s.fault := rfl
@[simp] theorem setCoef_faultCode (j : Nat) (c : Int) (s : State) : (setCoef s j c).faultCode = s.faultCode := rfl
@[simp] theorem setCoef_historyMult (j : Nat) (c : Int) (s : State) : (setCoef s j c).historyMult = s.historyMult := rfl
@[simp] theorem setCoef_initialHistory (j : Nat) (c : Int) (s : State) : (setCoef s j c).initialHistory = s.initialHistory := rfl
@[simp] theorem setCoef_maximumK (j : Nat) (c : Int) (s : State) : (setCoef s j c).maximumK = s.maximumK := rfl
@[simp] theorem setCoef_sampleSize (j : Nat) (c : Int) (s : State) : (setCoef s j c).sampleSize = s.sampleSize := rfl
@[simp] theorem setCoef_sampleCount (j : Nat) (c : Int) (s : State) : (setCoef s j c).sampleCount = s.sampleCount := rfl
@[simp] theorem setCoef_bitpos (j : Nat) (c : Int) (s : State) : (setCoef s j c).bitpos = s.bitpos := rfl
@[simp] theorem setCoef_bitend (j : Nat) (c : Int) (s : State) : (setCoef s j c).bitend = s.bitend := rfl
@[simp] theorem setCoef_predType (j : Nat) (c : Int) (s : State) : (setCoef s j c).predType = s.predType := rfl
@[simp] theorem setCoef_qlpShift (j : Nat) (c : Int) (s : State) : (setCoef s j c).qlpShift = s.qlpShift := rfl
@[simp] theorem setCoef_riceModifier (j : Nat) (c : Int) (s : State) : (setCoef s j c).riceModifier = s.riceModifier := rfl
@[simp] theorem setCoef_order (j : Nat) (c : Int) (s : State) : (setCoef s j c).order = s.order := rfl
@[simp] theorem setCoef_history (j : Nat) (c : Int) (s : State) : (setCoef s j c).history = s.history := rfl
@[simp] theorem setCoef_signModifier (j : Nat) (c : Int) (s : State) : (setCoef s j c).signModifier = s.signModifier := rfl
@[simp] theorem setCoef_rdIdx (j : Nat) (c : Int) (s : State) : (setCoef s j c).rdIdx = s.rdIdx := rfl
@[simp] theorem setCoef_prIdx (j : Nat) (c : Int) (s : State) : (setCoef s j c).prIdx = s.prIdx := rfl
@[simp] theorem setCoef_coef (j : Nat) (c : Int) (s : State) : (setCoef s j c).coef = s.coef.setIfInBounds j (BitVec.ofInt 32 c) := rfl
@[simp] theorem setCoef_res (j : Nat) (c : Int) (s : State) : (setCoef s j c).res = s.res := rfl
@[simp] theorem setCoef_smp (j : Nat) (c : Int) (s : State) : (setCoef s j c).smp = s.smp := rfl
@[simp] theorem setCoef_bsmem (j : Nat) (c : Int) (s : State) : (setCoef s j c).bsmem = s.bsmem := rfl
@[simp] theorem setCoef_params (j : Nat) (c : Int) (s : State) : (setCoef s j c).params = s.params := rfl
@[simp] theorem setCoef_engine (j : Nat) (c : Int) (s : State) : (setCoef s j c).engine = s.engine := rfl
@[simp] theorem setCoef_host (j : Nat) (c : Int) (s : State) : (setCoef s j c).host = s.host := rfl
@[simp] theorem setCoef_reply (j : Nat) (c : Int) (s : State) : (setCoef s j c).reply = s.reply := rfl
@[simp] theorem setCoef_draws (j : Nat) (c : Int) (s : State) : (setCoef s j c).draws = s.draws := rfl
@[simp] theorem setCoef_reads (j : Nat) (c : Int) (s : State) : (setCoef s j c).reads = s.reads := rfl

@[simp] theorem nextResidual_done (s : State) : (nextResidual s).done = s.done := rfl
@[simp] theorem nextResidual_fault (s : State) : (nextResidual s).fault = s.fault := rfl
@[simp] theorem nextResidual_faultCode (s : State) : (nextResidual s).faultCode = s.faultCode := rfl
@[simp] theorem nextResidual_historyMult (s : State) : (nextResidual s).historyMult = s.historyMult := rfl
@[simp] theorem nextResidual_initialHistory (s : State) : (nextResidual s).initialHistory = s.initialHistory := rfl
@[simp] theorem nextResidual_maximumK (s : State) : (nextResidual s).maximumK = s.maximumK := rfl
@[simp] theorem nextResidual_sampleSize (s : State) : (nextResidual s).sampleSize = s.sampleSize := rfl
@[simp] theorem nextResidual_sampleCount (s : State) : (nextResidual s).sampleCount = s.sampleCount := rfl
@[simp] theorem nextResidual_bitpos (s : State) : (nextResidual s).bitpos = s.bitpos := rfl
@[simp] theorem nextResidual_bitend (s : State) : (nextResidual s).bitend = s.bitend := rfl
@[simp] theorem nextResidual_predType (s : State) : (nextResidual s).predType = s.predType := rfl
@[simp] theorem nextResidual_qlpShift (s : State) : (nextResidual s).qlpShift = s.qlpShift := rfl
@[simp] theorem nextResidual_riceModifier (s : State) : (nextResidual s).riceModifier = s.riceModifier := rfl
@[simp] theorem nextResidual_order (s : State) : (nextResidual s).order = s.order := rfl
@[simp] theorem nextResidual_history (s : State) : (nextResidual s).history = s.history := rfl
@[simp] theorem nextResidual_signModifier (s : State) : (nextResidual s).signModifier = s.signModifier := rfl
@[simp] theorem nextResidual_rdIdx (s : State) : (nextResidual s).rdIdx = BitVec.ofNat 32 (s.rdIdx.toNat + 1) := rfl
@[simp] theorem nextResidual_prIdx (s : State) : (nextResidual s).prIdx = s.prIdx := rfl
@[simp] theorem nextResidual_coef (s : State) : (nextResidual s).coef = s.coef := rfl
@[simp] theorem nextResidual_res (s : State) : (nextResidual s).res = s.res := rfl
@[simp] theorem nextResidual_smp (s : State) : (nextResidual s).smp = s.smp := rfl
@[simp] theorem nextResidual_bsmem (s : State) : (nextResidual s).bsmem = s.bsmem := rfl
@[simp] theorem nextResidual_params (s : State) : (nextResidual s).params = s.params := rfl
@[simp] theorem nextResidual_engine (s : State) : (nextResidual s).engine = s.engine := rfl
@[simp] theorem nextResidual_host (s : State) : (nextResidual s).host = s.host := rfl
@[simp] theorem nextResidual_reply (s : State) : (nextResidual s).reply = s.reply := rfl
@[simp] theorem nextResidual_draws (s : State) : (nextResidual s).draws = s.draws := rfl
@[simp] theorem nextResidual_reads (s : State) : (nextResidual s).reads = s.reads := rfl

@[simp] theorem nextSample_done (s : State) : (nextSample s).done = s.done := rfl
@[simp] theorem nextSample_fault (s : State) : (nextSample s).fault = s.fault := rfl
@[simp] theorem nextSample_faultCode (s : State) : (nextSample s).faultCode = s.faultCode := rfl
@[simp] theorem nextSample_historyMult (s : State) : (nextSample s).historyMult = s.historyMult := rfl
@[simp] theorem nextSample_initialHistory (s : State) : (nextSample s).initialHistory = s.initialHistory := rfl
@[simp] theorem nextSample_maximumK (s : State) : (nextSample s).maximumK = s.maximumK := rfl
@[simp] theorem nextSample_sampleSize (s : State) : (nextSample s).sampleSize = s.sampleSize := rfl
@[simp] theorem nextSample_sampleCount (s : State) : (nextSample s).sampleCount = s.sampleCount := rfl
@[simp] theorem nextSample_bitpos (s : State) : (nextSample s).bitpos = s.bitpos := rfl
@[simp] theorem nextSample_bitend (s : State) : (nextSample s).bitend = s.bitend := rfl
@[simp] theorem nextSample_predType (s : State) : (nextSample s).predType = s.predType := rfl
@[simp] theorem nextSample_qlpShift (s : State) : (nextSample s).qlpShift = s.qlpShift := rfl
@[simp] theorem nextSample_riceModifier (s : State) : (nextSample s).riceModifier = s.riceModifier := rfl
@[simp] theorem nextSample_order (s : State) : (nextSample s).order = s.order := rfl
@[simp] theorem nextSample_history (s : State) : (nextSample s).history = s.history := rfl
@[simp] theorem nextSample_signModifier (s : State) : (nextSample s).signModifier = s.signModifier := rfl
@[simp] theorem nextSample_rdIdx (s : State) : (nextSample s).rdIdx = s.rdIdx := rfl
@[simp] theorem nextSample_prIdx (s : State) : (nextSample s).prIdx = BitVec.ofNat 32 (s.prIdx.toNat + 1) := rfl
@[simp] theorem nextSample_coef (s : State) : (nextSample s).coef = s.coef := rfl
@[simp] theorem nextSample_res (s : State) : (nextSample s).res = s.res := rfl
@[simp] theorem nextSample_smp (s : State) : (nextSample s).smp = s.smp := rfl
@[simp] theorem nextSample_bsmem (s : State) : (nextSample s).bsmem = s.bsmem := rfl
@[simp] theorem nextSample_params (s : State) : (nextSample s).params = s.params := rfl
@[simp] theorem nextSample_engine (s : State) : (nextSample s).engine = s.engine := rfl
@[simp] theorem nextSample_host (s : State) : (nextSample s).host = s.host := rfl
@[simp] theorem nextSample_reply (s : State) : (nextSample s).reply = s.reply := rfl
@[simp] theorem nextSample_draws (s : State) : (nextSample s).draws = s.draws := rfl
@[simp] theorem nextSample_reads (s : State) : (nextSample s).reads = s.reads := rfl

@[simp] theorem startRd_done (s : State) : (startRd s).done = s.done := rfl
@[simp] theorem startRd_fault (s : State) : (startRd s).fault = s.fault := rfl
@[simp] theorem startRd_faultCode (s : State) : (startRd s).faultCode = s.faultCode := rfl
@[simp] theorem startRd_historyMult (s : State) : (startRd s).historyMult = s.historyMult := rfl
@[simp] theorem startRd_initialHistory (s : State) : (startRd s).initialHistory = s.initialHistory := rfl
@[simp] theorem startRd_maximumK (s : State) : (startRd s).maximumK = s.maximumK := rfl
@[simp] theorem startRd_sampleSize (s : State) : (startRd s).sampleSize = s.sampleSize := rfl
@[simp] theorem startRd_sampleCount (s : State) : (startRd s).sampleCount = s.sampleCount := rfl
@[simp] theorem startRd_bitpos (s : State) : (startRd s).bitpos = s.bitpos := rfl
@[simp] theorem startRd_bitend (s : State) : (startRd s).bitend = s.bitend := rfl
@[simp] theorem startRd_predType (s : State) : (startRd s).predType = s.predType := rfl
@[simp] theorem startRd_qlpShift (s : State) : (startRd s).qlpShift = s.qlpShift := rfl
@[simp] theorem startRd_riceModifier (s : State) : (startRd s).riceModifier = s.riceModifier := rfl
@[simp] theorem startRd_order (s : State) : (startRd s).order = s.order := rfl
@[simp] theorem startRd_history (s : State) : (startRd s).history = s.initialHistory := rfl
@[simp] theorem startRd_signModifier (s : State) : (startRd s).signModifier = false := rfl
@[simp] theorem startRd_rdIdx (s : State) : (startRd s).rdIdx = 0 := rfl
@[simp] theorem startRd_prIdx (s : State) : (startRd s).prIdx = s.prIdx := rfl
@[simp] theorem startRd_coef (s : State) : (startRd s).coef = s.coef := rfl
@[simp] theorem startRd_res (s : State) : (startRd s).res = s.res := rfl
@[simp] theorem startRd_smp (s : State) : (startRd s).smp = s.smp := rfl
@[simp] theorem startRd_bsmem (s : State) : (startRd s).bsmem = s.bsmem := rfl
@[simp] theorem startRd_params (s : State) : (startRd s).params = s.params := rfl
@[simp] theorem startRd_engine (s : State) : (startRd s).engine = s.engine := rfl
@[simp] theorem startRd_host (s : State) : (startRd s).host = s.host := rfl
@[simp] theorem startRd_reply (s : State) : (startRd s).reply = s.reply := rfl
@[simp] theorem startRd_draws (s : State) : (startRd s).draws = s.draws := rfl
@[simp] theorem startRd_reads (s : State) : (startRd s).reads = s.reads := rfl

@[simp] theorem startPr_done (s : State) : (startPr s).done = s.done := rfl
@[simp] theorem startPr_fault (s : State) : (startPr s).fault = s.fault := rfl
@[simp] theorem startPr_faultCode (s : State) : (startPr s).faultCode = s.faultCode := rfl
@[simp] theorem startPr_historyMult (s : State) : (startPr s).historyMult = s.historyMult := rfl
@[simp] theorem startPr_initialHistory (s : State) : (startPr s).initialHistory = s.initialHistory := rfl
@[simp] theorem startPr_maximumK (s : State) : (startPr s).maximumK = s.maximumK := rfl
@[simp] theorem startPr_sampleSize (s : State) : (startPr s).sampleSize = s.sampleSize := rfl
@[simp] theorem startPr_sampleCount (s : State) : (startPr s).sampleCount = s.sampleCount := rfl
@[simp] theorem startPr_bitpos (s : State) : (startPr s).bitpos = s.bitpos := rfl
@[simp] theorem startPr_bitend (s : State) : (startPr s).bitend = s.bitend := rfl
@[simp] theorem startPr_predType (s : State) : (startPr s).predType = s.predType := rfl
@[simp] theorem startPr_qlpShift (s : State) : (startPr s).qlpShift = s.qlpShift := rfl
@[simp] theorem startPr_riceModifier (s : State) : (startPr s).riceModifier = s.riceModifier := rfl
@[simp] theorem startPr_order (s : State) : (startPr s).order = s.order := rfl
@[simp] theorem startPr_history (s : State) : (startPr s).history = s.history := rfl
@[simp] theorem startPr_signModifier (s : State) : (startPr s).signModifier = s.signModifier := rfl
@[simp] theorem startPr_rdIdx (s : State) : (startPr s).rdIdx = s.rdIdx := rfl
@[simp] theorem startPr_prIdx (s : State) : (startPr s).prIdx = 0 := rfl
@[simp] theorem startPr_coef (s : State) : (startPr s).coef = s.coef := rfl
@[simp] theorem startPr_res (s : State) : (startPr s).res = s.res := rfl
@[simp] theorem startPr_smp (s : State) : (startPr s).smp = s.smp := rfl
@[simp] theorem startPr_bsmem (s : State) : (startPr s).bsmem = s.bsmem := rfl
@[simp] theorem startPr_params (s : State) : (startPr s).params = s.params := rfl
@[simp] theorem startPr_engine (s : State) : (startPr s).engine = s.engine := rfl
@[simp] theorem startPr_host (s : State) : (startPr s).host = s.host := rfl
@[simp] theorem startPr_reply (s : State) : (startPr s).reply = s.reply := rfl
@[simp] theorem startPr_draws (s : State) : (startPr s).draws = s.draws := rfl
@[simp] theorem startPr_reads (s : State) : (startPr s).reads = s.reads := rfl

@[simp] theorem clearDone_done (s : State) : (clearDone s).done = false := rfl
@[simp] theorem clearDone_fault (s : State) : (clearDone s).fault = s.fault := rfl
@[simp] theorem clearDone_faultCode (s : State) : (clearDone s).faultCode = s.faultCode := rfl
@[simp] theorem clearDone_historyMult (s : State) : (clearDone s).historyMult = s.historyMult := rfl
@[simp] theorem clearDone_initialHistory (s : State) : (clearDone s).initialHistory = s.initialHistory := rfl
@[simp] theorem clearDone_maximumK (s : State) : (clearDone s).maximumK = s.maximumK := rfl
@[simp] theorem clearDone_sampleSize (s : State) : (clearDone s).sampleSize = s.sampleSize := rfl
@[simp] theorem clearDone_sampleCount (s : State) : (clearDone s).sampleCount = s.sampleCount := rfl
@[simp] theorem clearDone_bitpos (s : State) : (clearDone s).bitpos = s.bitpos := rfl
@[simp] theorem clearDone_bitend (s : State) : (clearDone s).bitend = s.bitend := rfl
@[simp] theorem clearDone_predType (s : State) : (clearDone s).predType = s.predType := rfl
@[simp] theorem clearDone_qlpShift (s : State) : (clearDone s).qlpShift = s.qlpShift := rfl
@[simp] theorem clearDone_riceModifier (s : State) : (clearDone s).riceModifier = s.riceModifier := rfl
@[simp] theorem clearDone_order (s : State) : (clearDone s).order = s.order := rfl
@[simp] theorem clearDone_history (s : State) : (clearDone s).history = s.history := rfl
@[simp] theorem clearDone_signModifier (s : State) : (clearDone s).signModifier = s.signModifier := rfl
@[simp] theorem clearDone_rdIdx (s : State) : (clearDone s).rdIdx = s.rdIdx := rfl
@[simp] theorem clearDone_prIdx (s : State) : (clearDone s).prIdx = s.prIdx := rfl
@[simp] theorem clearDone_coef (s : State) : (clearDone s).coef = s.coef := rfl
@[simp] theorem clearDone_res (s : State) : (clearDone s).res = s.res := rfl
@[simp] theorem clearDone_smp (s : State) : (clearDone s).smp = s.smp := rfl
@[simp] theorem clearDone_bsmem (s : State) : (clearDone s).bsmem = s.bsmem := rfl
@[simp] theorem clearDone_params (s : State) : (clearDone s).params = s.params := rfl
@[simp] theorem clearDone_engine (s : State) : (clearDone s).engine = s.engine := rfl
@[simp] theorem clearDone_host (s : State) : (clearDone s).host = s.host := rfl
@[simp] theorem clearDone_reply (s : State) : (clearDone s).reply = s.reply := rfl
@[simp] theorem clearDone_draws (s : State) : (clearDone s).draws = s.draws := rfl
@[simp] theorem clearDone_reads (s : State) : (clearDone s).reads = s.reads := rfl

@[simp] theorem finish_done (s : State) : (finish s).done = true := rfl
@[simp] theorem finish_fault (s : State) : (finish s).fault = s.fault := rfl
@[simp] theorem finish_faultCode (s : State) : (finish s).faultCode = s.faultCode := rfl
@[simp] theorem finish_historyMult (s : State) : (finish s).historyMult = s.historyMult := rfl
@[simp] theorem finish_initialHistory (s : State) : (finish s).initialHistory = s.initialHistory := rfl
@[simp] theorem finish_maximumK (s : State) : (finish s).maximumK = s.maximumK := rfl
@[simp] theorem finish_sampleSize (s : State) : (finish s).sampleSize = s.sampleSize := rfl
@[simp] theorem finish_sampleCount (s : State) : (finish s).sampleCount = s.sampleCount := rfl
@[simp] theorem finish_bitpos (s : State) : (finish s).bitpos = s.bitpos := rfl
@[simp] theorem finish_bitend (s : State) : (finish s).bitend = s.bitend := rfl
@[simp] theorem finish_predType (s : State) : (finish s).predType = s.predType := rfl
@[simp] theorem finish_qlpShift (s : State) : (finish s).qlpShift = s.qlpShift := rfl
@[simp] theorem finish_riceModifier (s : State) : (finish s).riceModifier = s.riceModifier := rfl
@[simp] theorem finish_order (s : State) : (finish s).order = s.order := rfl
@[simp] theorem finish_history (s : State) : (finish s).history = s.history := rfl
@[simp] theorem finish_signModifier (s : State) : (finish s).signModifier = s.signModifier := rfl
@[simp] theorem finish_rdIdx (s : State) : (finish s).rdIdx = s.rdIdx := rfl
@[simp] theorem finish_prIdx (s : State) : (finish s).prIdx = s.prIdx := rfl
@[simp] theorem finish_coef (s : State) : (finish s).coef = s.coef := rfl
@[simp] theorem finish_res (s : State) : (finish s).res = s.res := rfl
@[simp] theorem finish_smp (s : State) : (finish s).smp = s.smp := rfl
@[simp] theorem finish_bsmem (s : State) : (finish s).bsmem = s.bsmem := rfl
@[simp] theorem finish_params (s : State) : (finish s).params = s.params := rfl
@[simp] theorem finish_engine (s : State) : (finish s).engine = .idle := rfl
@[simp] theorem finish_host (s : State) : (finish s).host = s.host := rfl
@[simp] theorem finish_reply (s : State) : (finish s).reply = s.reply := rfl
@[simp] theorem finish_draws (s : State) : (finish s).draws = s.draws := rfl
@[simp] theorem finish_reads (s : State) : (finish s).reads = s.reads := rfl

@[simp] theorem recordFault_done (e : BlockFault) (s : State) : (recordFault e s).done = s.done := rfl
@[simp] theorem recordFault_fault (e : BlockFault) (s : State) : (recordFault e s).fault = true := rfl
@[simp] theorem recordFault_faultCode (e : BlockFault) (s : State) : (recordFault e s).faultCode = faultCodeOf e := rfl
@[simp] theorem recordFault_historyMult (e : BlockFault) (s : State) : (recordFault e s).historyMult = s.historyMult := rfl
@[simp] theorem recordFault_initialHistory (e : BlockFault) (s : State) : (recordFault e s).initialHistory = s.initialHistory := rfl
@[simp] theorem recordFault_maximumK (e : BlockFault) (s : State) : (recordFault e s).maximumK = s.maximumK := rfl
@[simp] theorem recordFault_sampleSize (e : BlockFault) (s : State) : (recordFault e s).sampleSize = s.sampleSize := rfl
@[simp] theorem recordFault_sampleCount (e : BlockFault) (s : State) : (recordFault e s).sampleCount = s.sampleCount := rfl
@[simp] theorem recordFault_bitpos (e : BlockFault) (s : State) : (recordFault e s).bitpos = s.bitpos := rfl
@[simp] theorem recordFault_bitend (e : BlockFault) (s : State) : (recordFault e s).bitend = s.bitend := rfl
@[simp] theorem recordFault_predType (e : BlockFault) (s : State) : (recordFault e s).predType = s.predType := rfl
@[simp] theorem recordFault_qlpShift (e : BlockFault) (s : State) : (recordFault e s).qlpShift = s.qlpShift := rfl
@[simp] theorem recordFault_riceModifier (e : BlockFault) (s : State) : (recordFault e s).riceModifier = s.riceModifier := rfl
@[simp] theorem recordFault_order (e : BlockFault) (s : State) : (recordFault e s).order = s.order := rfl
@[simp] theorem recordFault_history (e : BlockFault) (s : State) : (recordFault e s).history = s.history := rfl
@[simp] theorem recordFault_signModifier (e : BlockFault) (s : State) : (recordFault e s).signModifier = s.signModifier := rfl
@[simp] theorem recordFault_rdIdx (e : BlockFault) (s : State) : (recordFault e s).rdIdx = s.rdIdx := rfl
@[simp] theorem recordFault_prIdx (e : BlockFault) (s : State) : (recordFault e s).prIdx = s.prIdx := rfl
@[simp] theorem recordFault_coef (e : BlockFault) (s : State) : (recordFault e s).coef = s.coef := rfl
@[simp] theorem recordFault_res (e : BlockFault) (s : State) : (recordFault e s).res = s.res := rfl
@[simp] theorem recordFault_smp (e : BlockFault) (s : State) : (recordFault e s).smp = s.smp := rfl
@[simp] theorem recordFault_bsmem (e : BlockFault) (s : State) : (recordFault e s).bsmem = s.bsmem := rfl
@[simp] theorem recordFault_params (e : BlockFault) (s : State) : (recordFault e s).params = s.params := rfl
@[simp] theorem recordFault_engine (e : BlockFault) (s : State) : (recordFault e s).engine = .idle := rfl
@[simp] theorem recordFault_host (e : BlockFault) (s : State) : (recordFault e s).host = s.host := rfl
@[simp] theorem recordFault_reply (e : BlockFault) (s : State) : (recordFault e s).reply = s.reply := rfl
@[simp] theorem recordFault_draws (e : BlockFault) (s : State) : (recordFault e s).draws = s.draws := rfl
@[simp] theorem recordFault_reads (e : BlockFault) (s : State) : (recordFault e s).reads = s.reads := rfl

@[simp] theorem clearFault_done (s : State) : (clearFault s).done = false := rfl
@[simp] theorem clearFault_fault (s : State) : (clearFault s).fault = false := rfl
@[simp] theorem clearFault_faultCode (s : State) : (clearFault s).faultCode = 0 := rfl
@[simp] theorem clearFault_historyMult (s : State) : (clearFault s).historyMult = s.historyMult := rfl
@[simp] theorem clearFault_initialHistory (s : State) : (clearFault s).initialHistory = s.initialHistory := rfl
@[simp] theorem clearFault_maximumK (s : State) : (clearFault s).maximumK = s.maximumK := rfl
@[simp] theorem clearFault_sampleSize (s : State) : (clearFault s).sampleSize = s.sampleSize := rfl
@[simp] theorem clearFault_sampleCount (s : State) : (clearFault s).sampleCount = s.sampleCount := rfl
@[simp] theorem clearFault_bitpos (s : State) : (clearFault s).bitpos = s.bitpos := rfl
@[simp] theorem clearFault_bitend (s : State) : (clearFault s).bitend = s.bitend := rfl
@[simp] theorem clearFault_predType (s : State) : (clearFault s).predType = s.predType := rfl
@[simp] theorem clearFault_qlpShift (s : State) : (clearFault s).qlpShift = s.qlpShift := rfl
@[simp] theorem clearFault_riceModifier (s : State) : (clearFault s).riceModifier = s.riceModifier := rfl
@[simp] theorem clearFault_order (s : State) : (clearFault s).order = s.order := rfl
@[simp] theorem clearFault_history (s : State) : (clearFault s).history = s.history := rfl
@[simp] theorem clearFault_signModifier (s : State) : (clearFault s).signModifier = s.signModifier := rfl
@[simp] theorem clearFault_rdIdx (s : State) : (clearFault s).rdIdx = s.rdIdx := rfl
@[simp] theorem clearFault_prIdx (s : State) : (clearFault s).prIdx = s.prIdx := rfl
@[simp] theorem clearFault_coef (s : State) : (clearFault s).coef = s.coef := rfl
@[simp] theorem clearFault_res (s : State) : (clearFault s).res = s.res := rfl
@[simp] theorem clearFault_smp (s : State) : (clearFault s).smp = s.smp := rfl
@[simp] theorem clearFault_bsmem (s : State) : (clearFault s).bsmem = s.bsmem := rfl
@[simp] theorem clearFault_params (s : State) : (clearFault s).params = s.params := rfl
@[simp] theorem clearFault_engine (s : State) : (clearFault s).engine = s.engine := rfl
@[simp] theorem clearFault_host (s : State) : (clearFault s).host = s.host := rfl
@[simp] theorem clearFault_reply (s : State) : (clearFault s).reply = s.reply := rfl
@[simp] theorem clearFault_draws (s : State) : (clearFault s).draws = s.draws := rfl
@[simp] theorem clearFault_reads (s : State) : (clearFault s).reads = s.reads := rfl

@[simp] theorem countWrite_done (s : State) : (countWrite s).done = s.done := rfl
@[simp] theorem countWrite_fault (s : State) : (countWrite s).fault = s.fault := rfl
@[simp] theorem countWrite_faultCode (s : State) : (countWrite s).faultCode = s.faultCode := rfl
@[simp] theorem countWrite_historyMult (s : State) : (countWrite s).historyMult = s.historyMult := rfl
@[simp] theorem countWrite_initialHistory (s : State) : (countWrite s).initialHistory = s.initialHistory := rfl
@[simp] theorem countWrite_maximumK (s : State) : (countWrite s).maximumK = s.maximumK := rfl
@[simp] theorem countWrite_sampleSize (s : State) : (countWrite s).sampleSize = s.sampleSize := rfl
@[simp] theorem countWrite_sampleCount (s : State) : (countWrite s).sampleCount = s.sampleCount := rfl
@[simp] theorem countWrite_bitpos (s : State) : (countWrite s).bitpos = s.bitpos := rfl
@[simp] theorem countWrite_bitend (s : State) : (countWrite s).bitend = s.bitend := rfl
@[simp] theorem countWrite_predType (s : State) : (countWrite s).predType = s.predType := rfl
@[simp] theorem countWrite_qlpShift (s : State) : (countWrite s).qlpShift = s.qlpShift := rfl
@[simp] theorem countWrite_riceModifier (s : State) : (countWrite s).riceModifier = s.riceModifier := rfl
@[simp] theorem countWrite_order (s : State) : (countWrite s).order = s.order := rfl
@[simp] theorem countWrite_history (s : State) : (countWrite s).history = s.history := rfl
@[simp] theorem countWrite_signModifier (s : State) : (countWrite s).signModifier = s.signModifier := rfl
@[simp] theorem countWrite_rdIdx (s : State) : (countWrite s).rdIdx = s.rdIdx := rfl
@[simp] theorem countWrite_prIdx (s : State) : (countWrite s).prIdx = s.prIdx := rfl
@[simp] theorem countWrite_coef (s : State) : (countWrite s).coef = s.coef := rfl
@[simp] theorem countWrite_res (s : State) : (countWrite s).res = s.res := rfl
@[simp] theorem countWrite_smp (s : State) : (countWrite s).smp = s.smp := rfl
@[simp] theorem countWrite_bsmem (s : State) : (countWrite s).bsmem = s.bsmem := rfl
@[simp] theorem countWrite_params (s : State) : (countWrite s).params = s.params := rfl
@[simp] theorem countWrite_engine (s : State) : (countWrite s).engine = s.engine := rfl
@[simp] theorem countWrite_host (s : State) : (countWrite s).host = s.host := rfl
@[simp] theorem countWrite_reply (s : State) : (countWrite s).reply = s.reply := rfl
@[simp] theorem countWrite_draws (s : State) : (countWrite s).draws = s.draws + 1 := rfl
@[simp] theorem countWrite_reads (s : State) : (countWrite s).reads = s.reads := rfl

@[simp] theorem answer_done (w : Word) (s : State) : (answer w s).done = s.done := rfl
@[simp] theorem answer_fault (w : Word) (s : State) : (answer w s).fault = s.fault := rfl
@[simp] theorem answer_faultCode (w : Word) (s : State) : (answer w s).faultCode = s.faultCode := rfl
@[simp] theorem answer_historyMult (w : Word) (s : State) : (answer w s).historyMult = s.historyMult := rfl
@[simp] theorem answer_initialHistory (w : Word) (s : State) : (answer w s).initialHistory = s.initialHistory := rfl
@[simp] theorem answer_maximumK (w : Word) (s : State) : (answer w s).maximumK = s.maximumK := rfl
@[simp] theorem answer_sampleSize (w : Word) (s : State) : (answer w s).sampleSize = s.sampleSize := rfl
@[simp] theorem answer_sampleCount (w : Word) (s : State) : (answer w s).sampleCount = s.sampleCount := rfl
@[simp] theorem answer_bitpos (w : Word) (s : State) : (answer w s).bitpos = s.bitpos := rfl
@[simp] theorem answer_bitend (w : Word) (s : State) : (answer w s).bitend = s.bitend := rfl
@[simp] theorem answer_predType (w : Word) (s : State) : (answer w s).predType = s.predType := rfl
@[simp] theorem answer_qlpShift (w : Word) (s : State) : (answer w s).qlpShift = s.qlpShift := rfl
@[simp] theorem answer_riceModifier (w : Word) (s : State) : (answer w s).riceModifier = s.riceModifier := rfl
@[simp] theorem answer_order (w : Word) (s : State) : (answer w s).order = s.order := rfl
@[simp] theorem answer_history (w : Word) (s : State) : (answer w s).history = s.history := rfl
@[simp] theorem answer_signModifier (w : Word) (s : State) : (answer w s).signModifier = s.signModifier := rfl
@[simp] theorem answer_rdIdx (w : Word) (s : State) : (answer w s).rdIdx = s.rdIdx := rfl
@[simp] theorem answer_prIdx (w : Word) (s : State) : (answer w s).prIdx = s.prIdx := rfl
@[simp] theorem answer_coef (w : Word) (s : State) : (answer w s).coef = s.coef := rfl
@[simp] theorem answer_res (w : Word) (s : State) : (answer w s).res = s.res := rfl
@[simp] theorem answer_smp (w : Word) (s : State) : (answer w s).smp = s.smp := rfl
@[simp] theorem answer_bsmem (w : Word) (s : State) : (answer w s).bsmem = s.bsmem := rfl
@[simp] theorem answer_params (w : Word) (s : State) : (answer w s).params = s.params := rfl
@[simp] theorem answer_engine (w : Word) (s : State) : (answer w s).engine = s.engine := rfl
@[simp] theorem answer_host (w : Word) (s : State) : (answer w s).host = s.host := rfl
@[simp] theorem answer_reply (w : Word) (s : State) : (answer w s).reply = some w := rfl
@[simp] theorem answer_draws (w : Word) (s : State) : (answer w s).draws = s.draws := rfl
@[simp] theorem answer_reads (w : Word) (s : State) : (answer w s).reads = s.reads + 1 := rfl

@[simp] theorem unspecify_done (run : Run) (s : State) : (unspecify run s).done = s.done := rfl
@[simp] theorem unspecify_fault (run : Run) (s : State) : (unspecify run s).fault = s.fault := rfl
@[simp] theorem unspecify_faultCode (run : Run) (s : State) : (unspecify run s).faultCode = s.faultCode := rfl
@[simp] theorem unspecify_historyMult (run : Run) (s : State) : (unspecify run s).historyMult = s.historyMult := rfl
@[simp] theorem unspecify_initialHistory (run : Run) (s : State) : (unspecify run s).initialHistory = s.initialHistory := rfl
@[simp] theorem unspecify_maximumK (run : Run) (s : State) : (unspecify run s).maximumK = s.maximumK := rfl
@[simp] theorem unspecify_sampleSize (run : Run) (s : State) : (unspecify run s).sampleSize = s.sampleSize := rfl
@[simp] theorem unspecify_sampleCount (run : Run) (s : State) : (unspecify run s).sampleCount = s.sampleCount := rfl
@[simp] theorem unspecify_bitpos (run : Run) (s : State) : (unspecify run s).bitpos = Config.freeWord s.draws .bitpos := rfl
@[simp] theorem unspecify_bitend (run : Run) (s : State) : (unspecify run s).bitend = s.bitend := rfl
@[simp] theorem unspecify_predType (run : Run) (s : State) : (unspecify run s).predType = s.predType := rfl
@[simp] theorem unspecify_qlpShift (run : Run) (s : State) : (unspecify run s).qlpShift = s.qlpShift := rfl
@[simp] theorem unspecify_riceModifier (run : Run) (s : State) : (unspecify run s).riceModifier = s.riceModifier := rfl
@[simp] theorem unspecify_order (run : Run) (s : State) : (unspecify run s).order = s.order := rfl
@[simp] theorem unspecify_history (run : Run) (s : State) : (unspecify run s).history = Config.freeWord s.draws .history := rfl
@[simp] theorem unspecify_signModifier (run : Run) (s : State) : (unspecify run s).signModifier = (Config.freeWord s.draws .signModifier).getLsbD 0 := rfl
@[simp] theorem unspecify_rdIdx (run : Run) (s : State) : (unspecify run s).rdIdx = Config.freeWord s.draws .rdIdx := rfl
@[simp] theorem unspecify_prIdx (run : Run) (s : State) : (unspecify run s).prIdx = Config.freeWord s.draws .prIdx := rfl
@[simp] theorem unspecify_coef (run : Run) (s : State) : (unspecify run s).coef = freeCoefs s := rfl
@[simp] theorem unspecify_res (run : Run) (s : State) : (unspecify run s).res = if usesRes run then s.res.fill s.sampleCount.toNat (fun i => Config.freeWord s.draws (.res i)) else s.res := rfl
@[simp] theorem unspecify_smp (run : Run) (s : State) : (unspecify run s).smp = if usesSmp run then s.smp.fill s.sampleCount.toNat (fun i => Config.freeWord s.draws (.smp i)) else s.smp := rfl
@[simp] theorem unspecify_bsmem (run : Run) (s : State) : (unspecify run s).bsmem = s.bsmem := rfl
@[simp] theorem unspecify_params (run : Run) (s : State) : (unspecify run s).params = s.params := rfl
@[simp] theorem unspecify_engine (run : Run) (s : State) : (unspecify run s).engine = s.engine := rfl
@[simp] theorem unspecify_host (run : Run) (s : State) : (unspecify run s).host = s.host := rfl
@[simp] theorem unspecify_reply (run : Run) (s : State) : (unspecify run s).reply = s.reply := rfl
@[simp] theorem unspecify_draws (run : Run) (s : State) : (unspecify run s).draws = s.draws + 1 := rfl
@[simp] theorem unspecify_reads (run : Run) (s : State) : (unspecify run s).reads = s.reads := rfl

@[simp] theorem softReset_done (s : State) : (softReset s).done = false := rfl
@[simp] theorem softReset_fault (s : State) : (softReset s).fault = false := rfl
@[simp] theorem softReset_faultCode (s : State) : (softReset s).faultCode = 0 := rfl
@[simp] theorem softReset_historyMult (s : State) : (softReset s).historyMult = 0 := rfl
@[simp] theorem softReset_initialHistory (s : State) : (softReset s).initialHistory = 0 := rfl
@[simp] theorem softReset_maximumK (s : State) : (softReset s).maximumK = 0 := rfl
@[simp] theorem softReset_sampleSize (s : State) : (softReset s).sampleSize = 0 := rfl
@[simp] theorem softReset_sampleCount (s : State) : (softReset s).sampleCount = 0 := rfl
@[simp] theorem softReset_bitpos (s : State) : (softReset s).bitpos = 0 := rfl
@[simp] theorem softReset_bitend (s : State) : (softReset s).bitend = 0 := rfl
@[simp] theorem softReset_predType (s : State) : (softReset s).predType = 0 := rfl
@[simp] theorem softReset_qlpShift (s : State) : (softReset s).qlpShift = 0 := rfl
@[simp] theorem softReset_riceModifier (s : State) : (softReset s).riceModifier = 0 := rfl
@[simp] theorem softReset_order (s : State) : (softReset s).order = 0 := rfl
@[simp] theorem softReset_history (s : State) : (softReset s).history = 0 := rfl
@[simp] theorem softReset_signModifier (s : State) : (softReset s).signModifier = false := rfl
@[simp] theorem softReset_rdIdx (s : State) : (softReset s).rdIdx = 0 := rfl
@[simp] theorem softReset_prIdx (s : State) : (softReset s).prIdx = 0 := rfl
@[simp] theorem softReset_coef (s : State) : (softReset s).coef = Vector.replicate 32 0 := rfl
@[simp] theorem softReset_res (s : State) : (softReset s).res = s.res := rfl
@[simp] theorem softReset_smp (s : State) : (softReset s).smp = s.smp := rfl
@[simp] theorem softReset_bsmem (s : State) : (softReset s).bsmem = s.bsmem := rfl
@[simp] theorem softReset_params (s : State) : (softReset s).params = s.params := rfl
@[simp] theorem softReset_engine (s : State) : (softReset s).engine = s.engine := rfl
@[simp] theorem softReset_host (s : State) : (softReset s).host = s.host := rfl
@[simp] theorem softReset_reply (s : State) : (softReset s).reply = s.reply := rfl
@[simp] theorem softReset_draws (s : State) : (softReset s).draws = s.draws := rfl
@[simp] theorem softReset_reads (s : State) : (softReset s).reads = s.reads := rfl

@[simp] theorem clearSm_done (s : State) : (clearSm s).done = s.done := rfl
@[simp] theorem clearSm_fault (s : State) : (clearSm s).fault = s.fault := rfl
@[simp] theorem clearSm_faultCode (s : State) : (clearSm s).faultCode = s.faultCode := rfl
@[simp] theorem clearSm_historyMult (s : State) : (clearSm s).historyMult = s.historyMult := rfl
@[simp] theorem clearSm_initialHistory (s : State) : (clearSm s).initialHistory = s.initialHistory := rfl
@[simp] theorem clearSm_maximumK (s : State) : (clearSm s).maximumK = s.maximumK := rfl
@[simp] theorem clearSm_sampleSize (s : State) : (clearSm s).sampleSize = s.sampleSize := rfl
@[simp] theorem clearSm_sampleCount (s : State) : (clearSm s).sampleCount = s.sampleCount := rfl
@[simp] theorem clearSm_bitpos (s : State) : (clearSm s).bitpos = s.bitpos := rfl
@[simp] theorem clearSm_bitend (s : State) : (clearSm s).bitend = s.bitend := rfl
@[simp] theorem clearSm_predType (s : State) : (clearSm s).predType = s.predType := rfl
@[simp] theorem clearSm_qlpShift (s : State) : (clearSm s).qlpShift = s.qlpShift := rfl
@[simp] theorem clearSm_riceModifier (s : State) : (clearSm s).riceModifier = s.riceModifier := rfl
@[simp] theorem clearSm_order (s : State) : (clearSm s).order = s.order := rfl
@[simp] theorem clearSm_history (s : State) : (clearSm s).history = s.history := rfl
@[simp] theorem clearSm_signModifier (s : State) : (clearSm s).signModifier = false := rfl
@[simp] theorem clearSm_rdIdx (s : State) : (clearSm s).rdIdx = s.rdIdx := rfl
@[simp] theorem clearSm_prIdx (s : State) : (clearSm s).prIdx = s.prIdx := rfl
@[simp] theorem clearSm_coef (s : State) : (clearSm s).coef = s.coef := rfl
@[simp] theorem clearSm_res (s : State) : (clearSm s).res = s.res := rfl
@[simp] theorem clearSm_smp (s : State) : (clearSm s).smp = s.smp := rfl
@[simp] theorem clearSm_bsmem (s : State) : (clearSm s).bsmem = s.bsmem := rfl
@[simp] theorem clearSm_params (s : State) : (clearSm s).params = s.params := rfl
@[simp] theorem clearSm_engine (s : State) : (clearSm s).engine = s.engine := rfl
@[simp] theorem clearSm_host (s : State) : (clearSm s).host = s.host := rfl
@[simp] theorem clearSm_reply (s : State) : (clearSm s).reply = s.reply := rfl
@[simp] theorem clearSm_draws (s : State) : (clearSm s).draws = s.draws := rfl
@[simp] theorem clearSm_reads (s : State) : (clearSm s).reads = s.reads := rfl

@[simp] theorem setHistory_done (h : Word) (s : State) : (setHistory h s).done = s.done := rfl
@[simp] theorem setHistory_fault (h : Word) (s : State) : (setHistory h s).fault = s.fault := rfl
@[simp] theorem setHistory_faultCode (h : Word) (s : State) : (setHistory h s).faultCode = s.faultCode := rfl
@[simp] theorem setHistory_historyMult (h : Word) (s : State) : (setHistory h s).historyMult = s.historyMult := rfl
@[simp] theorem setHistory_initialHistory (h : Word) (s : State) : (setHistory h s).initialHistory = s.initialHistory := rfl
@[simp] theorem setHistory_maximumK (h : Word) (s : State) : (setHistory h s).maximumK = s.maximumK := rfl
@[simp] theorem setHistory_sampleSize (h : Word) (s : State) : (setHistory h s).sampleSize = s.sampleSize := rfl
@[simp] theorem setHistory_sampleCount (h : Word) (s : State) : (setHistory h s).sampleCount = s.sampleCount := rfl
@[simp] theorem setHistory_bitpos (h : Word) (s : State) : (setHistory h s).bitpos = s.bitpos := rfl
@[simp] theorem setHistory_bitend (h : Word) (s : State) : (setHistory h s).bitend = s.bitend := rfl
@[simp] theorem setHistory_predType (h : Word) (s : State) : (setHistory h s).predType = s.predType := rfl
@[simp] theorem setHistory_qlpShift (h : Word) (s : State) : (setHistory h s).qlpShift = s.qlpShift := rfl
@[simp] theorem setHistory_riceModifier (h : Word) (s : State) : (setHistory h s).riceModifier = s.riceModifier := rfl
@[simp] theorem setHistory_order (h : Word) (s : State) : (setHistory h s).order = s.order := rfl
@[simp] theorem setHistory_history (h : Word) (s : State) : (setHistory h s).history = h := rfl
@[simp] theorem setHistory_signModifier (h : Word) (s : State) : (setHistory h s).signModifier = s.signModifier := rfl
@[simp] theorem setHistory_rdIdx (h : Word) (s : State) : (setHistory h s).rdIdx = s.rdIdx := rfl
@[simp] theorem setHistory_prIdx (h : Word) (s : State) : (setHistory h s).prIdx = s.prIdx := rfl
@[simp] theorem setHistory_coef (h : Word) (s : State) : (setHistory h s).coef = s.coef := rfl
@[simp] theorem setHistory_res (h : Word) (s : State) : (setHistory h s).res = s.res := rfl
@[simp] theorem setHistory_smp (h : Word) (s : State) : (setHistory h s).smp = s.smp := rfl
@[simp] theorem setHistory_bsmem (h : Word) (s : State) : (setHistory h s).bsmem = s.bsmem := rfl
@[simp] theorem setHistory_params (h : Word) (s : State) : (setHistory h s).params = s.params := rfl
@[simp] theorem setHistory_engine (h : Word) (s : State) : (setHistory h s).engine = s.engine := rfl
@[simp] theorem setHistory_host (h : Word) (s : State) : (setHistory h s).host = s.host := rfl
@[simp] theorem setHistory_reply (h : Word) (s : State) : (setHistory h s).reply = s.reply := rfl
@[simp] theorem setHistory_draws (h : Word) (s : State) : (setHistory h s).draws = s.draws := rfl
@[simp] theorem setHistory_reads (h : Word) (s : State) : (setHistory h s).reads = s.reads := rfl

@[simp] theorem insertZeros_done (z : Nat) (s : State) : (insertZeros z s).done = s.done := rfl
@[simp] theorem insertZeros_fault (z : Nat) (s : State) : (insertZeros z s).fault = s.fault := rfl
@[simp] theorem insertZeros_faultCode (z : Nat) (s : State) : (insertZeros z s).faultCode = s.faultCode := rfl
@[simp] theorem insertZeros_historyMult (z : Nat) (s : State) : (insertZeros z s).historyMult = s.historyMult := rfl
@[simp] theorem insertZeros_initialHistory (z : Nat) (s : State) : (insertZeros z s).initialHistory = s.initialHistory := rfl
@[simp] theorem insertZeros_maximumK (z : Nat) (s : State) : (insertZeros z s).maximumK = s.maximumK := rfl
@[simp] theorem insertZeros_sampleSize (z : Nat) (s : State) : (insertZeros z s).sampleSize = s.sampleSize := rfl
@[simp] theorem insertZeros_sampleCount (z : Nat) (s : State) : (insertZeros z s).sampleCount = s.sampleCount := rfl
@[simp] theorem insertZeros_bitpos (z : Nat) (s : State) : (insertZeros z s).bitpos = s.bitpos := rfl
@[simp] theorem insertZeros_bitend (z : Nat) (s : State) : (insertZeros z s).bitend = s.bitend := rfl
@[simp] theorem insertZeros_predType (z : Nat) (s : State) : (insertZeros z s).predType = s.predType := rfl
@[simp] theorem insertZeros_qlpShift (z : Nat) (s : State) : (insertZeros z s).qlpShift = s.qlpShift := rfl
@[simp] theorem insertZeros_riceModifier (z : Nat) (s : State) : (insertZeros z s).riceModifier = s.riceModifier := rfl
@[simp] theorem insertZeros_order (z : Nat) (s : State) : (insertZeros z s).order = s.order := rfl
@[simp] theorem insertZeros_history (z : Nat) (s : State) : (insertZeros z s).history = 0 := rfl
@[simp] theorem insertZeros_signModifier (z : Nat) (s : State) : (insertZeros z s).signModifier = zrunModifier z s.signModifier := rfl
@[simp] theorem insertZeros_rdIdx (z : Nat) (s : State) : (insertZeros z s).rdIdx = BitVec.ofNat 32 (s.rdIdx.toNat + z) := rfl
@[simp] theorem insertZeros_prIdx (z : Nat) (s : State) : (insertZeros z s).prIdx = s.prIdx := rfl
@[simp] theorem insertZeros_coef (z : Nat) (s : State) : (insertZeros z s).coef = s.coef := rfl
@[simp] theorem insertZeros_res (z : Nat) (s : State) : (insertZeros z s).res = storeZeros z (s.rdIdx.toNat + 1) s.res := rfl
@[simp] theorem insertZeros_smp (z : Nat) (s : State) : (insertZeros z s).smp = s.smp := rfl
@[simp] theorem insertZeros_bsmem (z : Nat) (s : State) : (insertZeros z s).bsmem = s.bsmem := rfl
@[simp] theorem insertZeros_params (z : Nat) (s : State) : (insertZeros z s).params = s.params := rfl
@[simp] theorem insertZeros_engine (z : Nat) (s : State) : (insertZeros z s).engine = s.engine := rfl
@[simp] theorem insertZeros_host (z : Nat) (s : State) : (insertZeros z s).host = s.host := rfl
@[simp] theorem insertZeros_reply (z : Nat) (s : State) : (insertZeros z s).reply = s.reply := rfl
@[simp] theorem insertZeros_draws (z : Nat) (s : State) : (insertZeros z s).draws = s.draws := rfl
@[simp] theorem insertZeros_reads (z : Nat) (s : State) : (insertZeros z s).reads = s.reads := rfl

@[simp] theorem standAt_done (e : Engine) (s : State) : (standAt e s).done = s.done := rfl
@[simp] theorem standAt_fault (e : Engine) (s : State) : (standAt e s).fault = s.fault := rfl
@[simp] theorem standAt_faultCode (e : Engine) (s : State) : (standAt e s).faultCode = s.faultCode := rfl
@[simp] theorem standAt_historyMult (e : Engine) (s : State) : (standAt e s).historyMult = s.historyMult := rfl
@[simp] theorem standAt_initialHistory (e : Engine) (s : State) : (standAt e s).initialHistory = s.initialHistory := rfl
@[simp] theorem standAt_maximumK (e : Engine) (s : State) : (standAt e s).maximumK = s.maximumK := rfl
@[simp] theorem standAt_sampleSize (e : Engine) (s : State) : (standAt e s).sampleSize = s.sampleSize := rfl
@[simp] theorem standAt_sampleCount (e : Engine) (s : State) : (standAt e s).sampleCount = s.sampleCount := rfl
@[simp] theorem standAt_bitpos (e : Engine) (s : State) : (standAt e s).bitpos = s.bitpos := rfl
@[simp] theorem standAt_bitend (e : Engine) (s : State) : (standAt e s).bitend = s.bitend := rfl
@[simp] theorem standAt_predType (e : Engine) (s : State) : (standAt e s).predType = s.predType := rfl
@[simp] theorem standAt_qlpShift (e : Engine) (s : State) : (standAt e s).qlpShift = s.qlpShift := rfl
@[simp] theorem standAt_riceModifier (e : Engine) (s : State) : (standAt e s).riceModifier = s.riceModifier := rfl
@[simp] theorem standAt_order (e : Engine) (s : State) : (standAt e s).order = s.order := rfl
@[simp] theorem standAt_history (e : Engine) (s : State) : (standAt e s).history = s.history := rfl
@[simp] theorem standAt_signModifier (e : Engine) (s : State) : (standAt e s).signModifier = s.signModifier := rfl
@[simp] theorem standAt_rdIdx (e : Engine) (s : State) : (standAt e s).rdIdx = s.rdIdx := rfl
@[simp] theorem standAt_prIdx (e : Engine) (s : State) : (standAt e s).prIdx = s.prIdx := rfl
@[simp] theorem standAt_coef (e : Engine) (s : State) : (standAt e s).coef = s.coef := rfl
@[simp] theorem standAt_res (e : Engine) (s : State) : (standAt e s).res = s.res := rfl
@[simp] theorem standAt_smp (e : Engine) (s : State) : (standAt e s).smp = s.smp := rfl
@[simp] theorem standAt_bsmem (e : Engine) (s : State) : (standAt e s).bsmem = s.bsmem := rfl
@[simp] theorem standAt_params (e : Engine) (s : State) : (standAt e s).params = s.params := rfl
@[simp] theorem standAt_engine (e : Engine) (s : State) : (standAt e s).engine = e := rfl
@[simp] theorem standAt_host (e : Engine) (s : State) : (standAt e s).host = s.host := rfl
@[simp] theorem standAt_reply (e : Engine) (s : State) : (standAt e s).reply = s.reply := rfl
@[simp] theorem standAt_draws (e : Engine) (s : State) : (standAt e s).draws = s.draws := rfl
@[simp] theorem standAt_reads (e : Engine) (s : State) : (standAt e s).reads = s.reads := rfl

@[simp] theorem rdStore_eq (i : Nat) (r : Int) (s : State) : rdStore i r s = setRes s i r := rfl

@[simp] theorem popHost_done (rest : List HostAccess) (s : State) : (popHost rest s).done = s.done := rfl
@[simp] theorem popHost_fault (rest : List HostAccess) (s : State) : (popHost rest s).fault = s.fault := rfl
@[simp] theorem popHost_faultCode (rest : List HostAccess) (s : State) : (popHost rest s).faultCode = s.faultCode := rfl
@[simp] theorem popHost_historyMult (rest : List HostAccess) (s : State) : (popHost rest s).historyMult = s.historyMult := rfl
@[simp] theorem popHost_initialHistory (rest : List HostAccess) (s : State) : (popHost rest s).initialHistory = s.initialHistory := rfl
@[simp] theorem popHost_maximumK (rest : List HostAccess) (s : State) : (popHost rest s).maximumK = s.maximumK := rfl
@[simp] theorem popHost_sampleSize (rest : List HostAccess) (s : State) : (popHost rest s).sampleSize = s.sampleSize := rfl
@[simp] theorem popHost_sampleCount (rest : List HostAccess) (s : State) : (popHost rest s).sampleCount = s.sampleCount := rfl
@[simp] theorem popHost_bitpos (rest : List HostAccess) (s : State) : (popHost rest s).bitpos = s.bitpos := rfl
@[simp] theorem popHost_bitend (rest : List HostAccess) (s : State) : (popHost rest s).bitend = s.bitend := rfl
@[simp] theorem popHost_predType (rest : List HostAccess) (s : State) : (popHost rest s).predType = s.predType := rfl
@[simp] theorem popHost_qlpShift (rest : List HostAccess) (s : State) : (popHost rest s).qlpShift = s.qlpShift := rfl
@[simp] theorem popHost_riceModifier (rest : List HostAccess) (s : State) : (popHost rest s).riceModifier = s.riceModifier := rfl
@[simp] theorem popHost_order (rest : List HostAccess) (s : State) : (popHost rest s).order = s.order := rfl
@[simp] theorem popHost_history (rest : List HostAccess) (s : State) : (popHost rest s).history = s.history := rfl
@[simp] theorem popHost_signModifier (rest : List HostAccess) (s : State) : (popHost rest s).signModifier = s.signModifier := rfl
@[simp] theorem popHost_rdIdx (rest : List HostAccess) (s : State) : (popHost rest s).rdIdx = s.rdIdx := rfl
@[simp] theorem popHost_prIdx (rest : List HostAccess) (s : State) : (popHost rest s).prIdx = s.prIdx := rfl
@[simp] theorem popHost_coef (rest : List HostAccess) (s : State) : (popHost rest s).coef = s.coef := rfl
@[simp] theorem popHost_res (rest : List HostAccess) (s : State) : (popHost rest s).res = s.res := rfl
@[simp] theorem popHost_smp (rest : List HostAccess) (s : State) : (popHost rest s).smp = s.smp := rfl
@[simp] theorem popHost_bsmem (rest : List HostAccess) (s : State) : (popHost rest s).bsmem = s.bsmem := rfl
@[simp] theorem popHost_params (rest : List HostAccess) (s : State) : (popHost rest s).params = s.params := rfl
@[simp] theorem popHost_engine (rest : List HostAccess) (s : State) : (popHost rest s).engine = s.engine := rfl
@[simp] theorem popHost_host (rest : List HostAccess) (s : State) : (popHost rest s).host = rest := rfl
@[simp] theorem popHost_reply (rest : List HostAccess) (s : State) : (popHost rest s).reply = s.reply := rfl
@[simp] theorem popHost_draws (rest : List HostAccess) (s : State) : (popHost rest s).draws = s.draws := rfl
@[simp] theorem popHost_reads (rest : List HostAccess) (s : State) : (popHost rest s).reads = s.reads := rfl

@[simp] theorem afterResidual_fault (sf : Bool) (s : State) : (afterResidual sf s).fault = s.fault := by
  unfold afterResidual endResiduals; dsimp only; split <;> (try split) <;> simp
@[simp] theorem afterResidual_faultCode (sf : Bool) (s : State) : (afterResidual sf s).faultCode = s.faultCode := by
  unfold afterResidual endResiduals; dsimp only; split <;> (try split) <;> simp
@[simp] theorem afterResidual_historyMult (sf : Bool) (s : State) : (afterResidual sf s).historyMult = s.historyMult := by
  unfold afterResidual endResiduals; dsimp only; split <;> (try split) <;> simp
@[simp] theorem afterResidual_initialHistory (sf : Bool) (s : State) : (afterResidual sf s).initialHistory = s.initialHistory := by
  unfold afterResidual endResiduals; dsimp only; split <;> (try split) <;> simp
@[simp] theorem afterResidual_maximumK (sf : Bool) (s : State) : (afterResidual sf s).maximumK = s.maximumK := by
  unfold afterResidual endResiduals; dsimp only; split <;> (try split) <;> simp
@[simp] theorem afterResidual_sampleSize (sf : Bool) (s : State) : (afterResidual sf s).sampleSize = s.sampleSize := by
  unfold afterResidual endResiduals; dsimp only; split <;> (try split) <;> simp
@[simp] theorem afterResidual_sampleCount (sf : Bool) (s : State) : (afterResidual sf s).sampleCount = s.sampleCount := by
  unfold afterResidual endResiduals; dsimp only; split <;> (try split) <;> simp
@[simp] theorem afterResidual_bitpos (sf : Bool) (s : State) : (afterResidual sf s).bitpos = s.bitpos := by
  unfold afterResidual endResiduals; dsimp only; split <;> (try split) <;> simp
@[simp] theorem afterResidual_bitend (sf : Bool) (s : State) : (afterResidual sf s).bitend = s.bitend := by
  unfold afterResidual endResiduals; dsimp only; split <;> (try split) <;> simp
@[simp] theorem afterResidual_predType (sf : Bool) (s : State) : (afterResidual sf s).predType = s.predType := by
  unfold afterResidual endResiduals; dsimp only; split <;> (try split) <;> simp
@[simp] theorem afterResidual_qlpShift (sf : Bool) (s : State) : (afterResidual sf s).qlpShift = s.qlpShift := by
  unfold afterResidual endResiduals; dsimp only; split <;> (try split) <;> simp
@[simp] theorem afterResidual_riceModifier (sf : Bool) (s : State) : (afterResidual sf s).riceModifier = s.riceModifier := by
  unfold afterResidual endResiduals; dsimp only; split <;> (try split) <;> simp
@[simp] theorem afterResidual_order (sf : Bool) (s : State) : (afterResidual sf s).order = s.order := by
  unfold afterResidual endResiduals; dsimp only; split <;> (try split) <;> simp
@[simp] theorem afterResidual_history (sf : Bool) (s : State) : (afterResidual sf s).history = s.history := by
  unfold afterResidual endResiduals; dsimp only; split <;> (try split) <;> simp
@[simp] theorem afterResidual_signModifier (sf : Bool) (s : State) : (afterResidual sf s).signModifier = s.signModifier := by
  unfold afterResidual endResiduals; dsimp only; split <;> (try split) <;> simp
@[simp] theorem afterResidual_coef (sf : Bool) (s : State) : (afterResidual sf s).coef = s.coef := by
  unfold afterResidual endResiduals; dsimp only; split <;> (try split) <;> simp
@[simp] theorem afterResidual_res (sf : Bool) (s : State) : (afterResidual sf s).res = s.res := by
  unfold afterResidual endResiduals; dsimp only; split <;> (try split) <;> simp
@[simp] theorem afterResidual_smp (sf : Bool) (s : State) : (afterResidual sf s).smp = s.smp := by
  unfold afterResidual endResiduals; dsimp only; split <;> (try split) <;> simp
@[simp] theorem afterResidual_bsmem (sf : Bool) (s : State) : (afterResidual sf s).bsmem = s.bsmem := by
  unfold afterResidual endResiduals; dsimp only; split <;> (try split) <;> simp
@[simp] theorem afterResidual_params (sf : Bool) (s : State) : (afterResidual sf s).params = s.params := by
  unfold afterResidual endResiduals; dsimp only; split <;> (try split) <;> simp
@[simp] theorem afterResidual_host (sf : Bool) (s : State) : (afterResidual sf s).host = s.host := by
  unfold afterResidual endResiduals; dsimp only; split <;> (try split) <;> simp
@[simp] theorem afterResidual_reply (sf : Bool) (s : State) : (afterResidual sf s).reply = s.reply := by
  unfold afterResidual endResiduals; dsimp only; split <;> (try split) <;> simp
@[simp] theorem afterResidual_draws (sf : Bool) (s : State) : (afterResidual sf s).draws = s.draws := by
  unfold afterResidual endResiduals; dsimp only; split <;> (try split) <;> simp
@[simp] theorem afterResidual_reads (sf : Bool) (s : State) : (afterResidual sf s).reads = s.reads := by
  unfold afterResidual endResiduals; dsimp only; split <;> (try split) <;> simp

@[simp] theorem enterFault_done (run : Run) (e : BlockFault) (s : State) : (enterFault run e s).done = s.done := by
  unfold enterFault; cases midCommand e <;> rfl
@[simp] theorem enterFault_fault (run : Run) (e : BlockFault) (s : State) : (enterFault run e s).fault = true := by
  unfold enterFault; cases midCommand e <;> rfl
@[simp] theorem enterFault_faultCode (run : Run) (e : BlockFault) (s : State) : (enterFault run e s).faultCode = faultCodeOf e := by
  unfold enterFault; cases midCommand e <;> rfl
@[simp] theorem enterFault_historyMult (run : Run) (e : BlockFault) (s : State) : (enterFault run e s).historyMult = s.historyMult := by
  unfold enterFault; cases midCommand e <;> rfl
@[simp] theorem enterFault_initialHistory (run : Run) (e : BlockFault) (s : State) : (enterFault run e s).initialHistory = s.initialHistory := by
  unfold enterFault; cases midCommand e <;> rfl
@[simp] theorem enterFault_maximumK (run : Run) (e : BlockFault) (s : State) : (enterFault run e s).maximumK = s.maximumK := by
  unfold enterFault; cases midCommand e <;> rfl
@[simp] theorem enterFault_sampleSize (run : Run) (e : BlockFault) (s : State) : (enterFault run e s).sampleSize = s.sampleSize := by
  unfold enterFault; cases midCommand e <;> rfl
@[simp] theorem enterFault_sampleCount (run : Run) (e : BlockFault) (s : State) : (enterFault run e s).sampleCount = s.sampleCount := by
  unfold enterFault; cases midCommand e <;> rfl
@[simp] theorem enterFault_bitend (run : Run) (e : BlockFault) (s : State) : (enterFault run e s).bitend = s.bitend := by
  unfold enterFault; cases midCommand e <;> rfl
@[simp] theorem enterFault_predType (run : Run) (e : BlockFault) (s : State) : (enterFault run e s).predType = s.predType := by
  unfold enterFault; cases midCommand e <;> rfl
@[simp] theorem enterFault_qlpShift (run : Run) (e : BlockFault) (s : State) : (enterFault run e s).qlpShift = s.qlpShift := by
  unfold enterFault; cases midCommand e <;> rfl
@[simp] theorem enterFault_riceModifier (run : Run) (e : BlockFault) (s : State) : (enterFault run e s).riceModifier = s.riceModifier := by
  unfold enterFault; cases midCommand e <;> rfl
@[simp] theorem enterFault_order (run : Run) (e : BlockFault) (s : State) : (enterFault run e s).order = s.order := by
  unfold enterFault; cases midCommand e <;> rfl
@[simp] theorem enterFault_bsmem (run : Run) (e : BlockFault) (s : State) : (enterFault run e s).bsmem = s.bsmem := by
  unfold enterFault; cases midCommand e <;> rfl
@[simp] theorem enterFault_params (run : Run) (e : BlockFault) (s : State) : (enterFault run e s).params = s.params := by
  unfold enterFault; cases midCommand e <;> rfl
@[simp] theorem enterFault_engine (run : Run) (e : BlockFault) (s : State) : (enterFault run e s).engine = .idle := by
  unfold enterFault; cases midCommand e <;> rfl
@[simp] theorem enterFault_host (run : Run) (e : BlockFault) (s : State) : (enterFault run e s).host = s.host := by
  unfold enterFault; cases midCommand e <;> rfl
@[simp] theorem enterFault_reply (run : Run) (e : BlockFault) (s : State) : (enterFault run e s).reply = s.reply := by
  unfold enterFault; cases midCommand e <;> rfl
@[simp] theorem enterFault_reads (run : Run) (e : BlockFault) (s : State) : (enterFault run e s).reads = s.reads := by
  unfold enterFault; cases midCommand e <;> rfl

end Sys2Proof.Machine
end

