-- ==== Sys2Proof/Laws/BitSource.lean ====
section
/-! SUPPORT. The bit source: the primitives (R80 to R82) beside the decoder of bit strings, on the same window of the
stream. -/

namespace Sys2Proof.Machine

@[simp] theorem bitAt_advance (n : Nat) (s : State) (p : Nat) : bitAt (advance n s) p = bitAt s p := rfl

@[simp] theorem fieldAt_advance (n : Nat) (s : State) (p m : Nat) : fieldAt (advance n s) p m = fieldAt s p m := by
  induction m with
  | zero => rfl
  | succ m ih => simp [fieldAt, ih]

@[simp] theorem bitsFrom_advance (n : Nat) (s : State) (p m : Nat) : bitsFrom (advance n s) p m = bitsFrom s p m := by
  induction m generalizing p with
  | zero => rfl
  | succ m ih => simp [bitsFrom, ih]

@[simp] theorem advance_zero (s : State) : advance 0 s = s := by
  simp [advance]

theorem advance_toNat {n : Nat} {s : State} (h : s.bitpos.toNat + n ≤ s.bitend.toNat) :
    (advance n s).bitpos.toNat = s.bitpos.toNat + n := by
  have := s.bitend.isLt
  simp only [advance_bitpos, BitVec.toNat_ofNat]
  omega

theorem advance_advance {a b : Nat} {s : State} (h : s.bitpos.toNat + a ≤ s.bitend.toNat) :
    advance b (advance a s) = advance (a + b) s := by
  have := advance_toNat h
  simp only [advance] at *
  simp [this, Nat.add_assoc]

/-- A bit given back is the last one consumed (R82). -/
theorem unread_advance {a b : Nat} {s : State} (h : s.bitpos.toNat + a ≤ s.bitend.toNat) (hb : b ≤ a) :
    bsUnread b (advance a s) = advance (a - b) s := by
  have h1 := advance_toNat h
  simp only [bsUnread, advance] at *
  rw [h1, show s.bitpos.toNat + a - b = s.bitpos.toNat + (a - b) by omega]

theorem fieldAt_lt (s : State) (p n : Nat) : fieldAt s p n < 2 ^ n := by
  induction n with
  | zero => simp [fieldAt]
  | succ n ih =>
    have := Bool.toNat_lt (bitAt s (p + n))
    simp only [fieldAt, Nat.pow_succ]
    omega

theorem fieldAt_succ_left (s : State) (p n : Nat) :
    fieldAt s p (n + 1) = (bitAt s p).toNat * 2 ^ n + fieldAt s (p + 1) n := by
  induction n with
  | zero => simp [fieldAt]
  | succ n ih =>
    rw [fieldAt, ih, fieldAt, Nat.pow_succ, show p + 1 + n = p + (n + 1) by omega]
    ring

/-- A field taken off the window of the stream. -/
theorem takeField_bitsFrom (s : State) (n : Nat) : ∀ (acc p m : Nat),
    takeField n acc (bitsFrom s p m)
      = if n ≤ m then some (acc * 2 ^ n + fieldAt s p n, bitsFrom s (p + n) (m - n)) else none := by
  induction n with
  | zero => intro acc p m; simp [takeField, fieldAt]
  | succ n ih =>
    intro acc p m
    cases m with
    | zero => simp [takeField, bitsFrom]
    | succ m =>
      rw [bitsFrom, takeField, ih]
      by_cases h : n ≤ m
      · rw [if_pos h, if_pos (by omega), fieldAt_succ_left, Nat.pow_succ, show p + 1 + n = p + (n + 1) by omega,
          show m + 1 - (n + 1) = m - n by omega]
        congr 2
        ring
      · rw [if_neg h, if_neg (by omega)]

theorem bsRead_ok {n : Nat} {s : State} (h : s.bitpos.toNat + n ≤ s.bitend.toNat) :
    bsRead n s = .ok (fieldAt s s.bitpos.toNat n, advance n s) := by
  simp [bsRead, Nat.not_lt.2 h]

theorem bsRead_truncated {n : Nat} {s : State} (h : s.bitend.toNat < s.bitpos.toNat + n) :
    bsRead n s = .error .truncated := by
  simp [bsRead, h]

/-- The unary prefix by BS.UNARY9 and off a window of the stream that is long enough, or ends at BITEND. -/
theorem unary_agrees (left : Nat) : ∀ (p m : Nat) (s : State), s.bitpos.toNat + m ≤ s.bitend.toNat →
    (left ≤ m ∨ s.bitend.toNat ≤ s.bitpos.toNat + m) →
    (unaryPrefix left p (bitsFrom s s.bitpos.toNat m) = none ∧ bsUnaryFrom left p s = .error .truncated)
    ∨ ∃ r c, unaryPrefix left p (bitsFrom s s.bitpos.toNat m) = some (r, bitsFrom s (s.bitpos.toNat + c) (m - c))
        ∧ bsUnaryFrom left p s = .ok (r, advance c s) ∧ c ≤ m
        ∧ (r = none ∧ c = left ∨ ∃ q, r = some q ∧ q + 1 = p + c ∧ c ≤ left) := by
  induction left with
  | zero => intro p m s _ _; exact .inr ⟨none, 0, by simp [unaryPrefix, bsUnaryFrom]⟩
  | succ left ih =>
    intro p m s hm hw
    cases m with
    | zero =>
      left
      refine ⟨by simp [bitsFrom, unaryPrefix], ?_⟩
      have : s.bitpos.toNat + 1 > s.bitend.toNat := by omega
      simp [bsUnaryFrom, this]
    | succ m =>
      have h1 : s.bitpos.toNat + 1 ≤ s.bitend.toNat := by omega
      have h2 := advance_toNat h1
      cases hb : bitAt s s.bitpos.toNat with
      | false =>
        right
        refine ⟨some p, 1, by simp [bitsFrom, unaryPrefix, hb], ?_, by omega, .inr ⟨p, rfl, rfl, by omega⟩⟩
        simp [bsUnaryFrom, hb, Nat.not_lt.2 h1]
      | true =>
        have hs : bsUnaryFrom (left + 1) p s = bsUnaryFrom left (p + 1) (advance 1 s) := by
          simp [bsUnaryFrom, hb, Nat.not_lt.2 h1]
        have hd : unaryPrefix (left + 1) p (bitsFrom s s.bitpos.toNat (m + 1))
            = unaryPrefix left (p + 1) (bitsFrom (advance 1 s) (advance 1 s).bitpos.toNat m) := by
          rw [h2, bitsFrom_advance]; simp [bitsFrom, unaryPrefix, hb]
        have key := ih (p + 1) m (advance 1 s) (by rw [h2]; simp; omega) (by rw [h2]; simp; omega)
        rw [hs, hd]
        rcases key with ⟨k1, k2⟩ | ⟨r, c, k1, k2, k3, k4⟩
        · exact .inl ⟨k1, k2⟩
        · right
          refine ⟨r, c + 1, ?_, ?_, by omega, ?_⟩
          · rw [k1, h2, bitsFrom_advance, show s.bitpos.toNat + 1 + c = s.bitpos.toNat + (c + 1) by omega,
              show m + 1 - (c + 1) = m - c by omega]
          · rw [k2, advance_advance h1, Nat.add_comm]
          · rcases k4 with ⟨k4, k5⟩ | ⟨q, k4, k5, k6⟩
            · exact .inl ⟨k4, by omega⟩
            · exact .inr ⟨q, k4, by omega, by omega⟩

end Sys2Proof.Machine
end

