-- ==== Sys2Proof/Laws/Predictor.lean ====
section
/-! SUPPORT. The predictor reconstructor: what each of its operations can do, said once, and what a stretch of the sample
loop changes and leaves. -/

namespace Sys2Proof.Machine

/-! ### Entries and coefficients -/

theorem toInt_ofInt_of_fits {x : Int} (h : fitsEntry x = true) : (BitVec.ofInt 32 x).toInt = x := by
  simp only [fitsEntry, Bool.and_eq_true, decide_eq_true_eq] at h
  rw [BitVec.toInt_ofInt]
  exact Int.bmod_eq_of_le (by omega) (by omega)

theorem smpAt_setSmp {s : State} {i : Nat} {x : Int} (h : fitsEntry x = true) : smpAt (setSmp s i x) i = x := by
  simp only [smpAt, smpWord, setSmp_smp, Memory.get?_set_same, Option.getD_some, toInt_ofInt_of_fits h]

theorem smpAt_setSmp_other {s : State} {i j : Nat} {x : Int} (h : j ≠ i) : smpAt (setSmp s i x) j = smpAt s j := by
  simp only [smpAt, smpWord, setSmp_smp, Memory.get?_set_other _ _ h]

@[simp] theorem resAt_setSmp (s : State) (i j : Nat) (x : Int) : resAt (setSmp s i x) j = resAt s j := rfl
@[simp] theorem resAt_setCoef (s : State) (i j : Nat) (x : Int) : resAt (setCoef s i x) j = resAt s j := rfl
@[simp] theorem smpAt_setCoef (s : State) (i j : Nat) (x : Int) : smpAt (setCoef s i x) j = smpAt s j := rfl
@[simp] theorem coefAt_setSmp (s : State) (i j : Nat) (x : Int) : coefAt (setSmp s i x) j = coefAt s j := rfl

theorem coefWord_setCoef (s : State) (i j : Nat) (c : Int) :
    coefWord (setCoef s i c) j = if j = i ∧ i < 32 then BitVec.ofInt 32 c else coefWord s j := by
  simp only [coefWord, setCoef_coef, Vector.getElem?_setIfInBounds]
  by_cases h : i = j
  · subst h
    by_cases h' : i < 32
    · simp [h']
    · simp [h']
  · simp [h, Ne.symm h]

theorem toInt_ofInt_of_fitsCoef {x : Int} (h : fitsCoef x = true) : (BitVec.ofInt 32 x).toInt = x := by
  simp only [fitsCoef, Bool.and_eq_true, decide_eq_true_eq] at h
  rw [BitVec.toInt_ofInt]
  exact Int.bmod_eq_of_le (by omega) (by omega)

theorem coefAt_setCoef {s : State} {i j : Nat} {c : Int} (h : fitsCoef c = true) :
    coefAt (setCoef s i c) j = if j = i ∧ i < 32 then c else coefAt s j := by
  simp only [coefAt, coefWord_setCoef]
  split
  · exact toInt_ofInt_of_fitsCoef h
  · rfl

/-- The magnitude consumed, coefficient by coefficient (R115): it starts at 0 and never falls. -/
@[simp] theorem consumed_zero (s : State) (t : Nat) (base : Int) : consumed s t base 0 = 0 := by simp [consumed]

theorem consumed_succ (s : State) (t : Nat) (base : Int) (n : Nat) :
    consumed s t base (n + 1)
      = consumed s t base n + asr |base - smpAt s (t - s.order.toNat + n)| s.qlpShift.toNat * ((n : Int) + 1) := by
  simp [consumed, Finset.sum_range_succ]

theorem consumed_le_add (s : State) (t : Nat) (base : Int) (n k : Nat) :
    consumed s t base n ≤ consumed s t base (n + k) := by
  induction k with
  | zero => exact le_rfl
  | succ k ih =>
    have h : 0 ≤ asr |base - smpAt s (t - s.order.toNat + (n + k))| s.qlpShift.toNat :=
      Int.ediv_nonneg (abs_nonneg _) (by positivity)
    rw [← Nat.add_assoc, consumed_succ]
    exact le_trans ih (le_add_of_nonneg_right (mul_nonneg h (by omega)))

@[simp] theorem consumed_setCoef (s : State) (i : Nat) (c : Int) (t : Nat) (base : Int) (n : Nat) :
    consumed (setCoef s i c) t base n = consumed s t base n := rfl

theorem storeSample_cases (t : Nat) (x : Int) (s : State) :
    (fitsEntry x = true ∧ storeSample t x s = .ok (setSmp s t x))
      ∨ (fitsEntry x = false ∧ storeSample t x s = .error .sampleOvf) := by
  unfold storeSample
  cases h : fitsEntry x <;> simp

theorem storeCoef_cases (i : Nat) (c : Int) (s : State) :
    (fitsCoef c = true ∧ storeCoef i c s = .ok (setCoef s i c))
      ∨ (fitsCoef c = false ∧ storeCoef i c s = .error .coefOvf) := by
  unfold storeCoef
  cases h : fitsCoef c <;> simp

/-! ### PR.ADAPT -/

/-- What an adaptation over the coefficients below `n` can do: only COEF changes, only below `n`, and legal coefficients
stay legal (R115). -/
structure Adapted (n : Nat) (s t : State) : Prop where
  frame : t = { s with coef := t.coef }
  kept : ∀ j, n ≤ j → coefWord t j = coefWord s j
  legal : ∀ j, fitsCoef (coefAt s j) = true → fitsCoef (coefAt t j) = true

theorem Adapted.refl (n : Nat) (s : State) : Adapted n s s := ⟨rfl, fun _ _ => rfl, fun _ h => h⟩

theorem Adapted.trans {n : Nat} {s t u : State} (h : Adapted n s t) (h' : Adapted n t u) : Adapted n s u where
  frame := by
    have h1 := h.frame
    have h2 := h'.frame
    generalize u.coef = a at h2 ⊢
    rw [h2, h1]
  kept := fun j hj => (h'.kept j hj).trans (h.kept j hj)
  legal := fun j hj => h'.legal j (h.legal j hj)

theorem Adapted.mono {m n : Nat} {s t : State} (h : Adapted m s t) (hmn : m ≤ n) : Adapted n s t :=
  ⟨h.frame, fun j hj => h.kept j (by omega), h.legal⟩

theorem adapted_setCoef {s : State} {i : Nat} {c : Int} (h : fitsCoef c = true) : Adapted (i + 1) s (setCoef s i c) where
  frame := rfl
  kept := fun j hj => by rw [coefWord_setCoef, if_neg (by omega)]
  legal := fun j hj => by
    rw [coefAt_setCoef h]
    split
    · exact h
    · exact hj

theorem adaptPos_cases (t : Nat) (base : Int) (n : Nat) : ∀ (rem : Int) (s : State),
    adaptPos t base n rem s = .error .coefOvf ∨ ∃ u, adaptPos t base n rem s = .ok u ∧ Adapted n s u := by
  induction n with
  | zero => intro rem s; exact .inr ⟨s, rfl, .refl _ _⟩
  | succ i ih =>
    intro rem s
    rw [adaptPos]
    dsimp only
    rcases storeCoef_cases i (coefAt s i - sgn (base - smpAt s (t - 1 - i))) s with ⟨h1, h2⟩ | ⟨_, h2⟩
    · rw [h2]
      simp only [bind, Except.bind]
      have hset := adapted_setCoef (s := s) (i := i) h1
      split
      · exact .inr ⟨_, rfl, hset⟩
      · rcases ih (rem - adaptStep (base - smpAt s (t - 1 - i))
            (setCoef s i (coefAt s i - sgn (base - smpAt s (t - 1 - i)))).qlpShift.toNat
            (setCoef s i (coefAt s i - sgn (base - smpAt s (t - 1 - i)))).order.toNat i)
          (setCoef s i (coefAt s i - sgn (base - smpAt s (t - 1 - i)))) with h3 | ⟨u, h3, h4⟩
        · exact .inl h3
        · exact .inr ⟨u, h3, hset.trans (h4.mono (by omega))⟩
    · rw [h2]; exact .inl rfl

theorem adaptNeg_cases (t : Nat) (base : Int) (n : Nat) : ∀ (rem : Int) (s : State),
    adaptNeg t base n rem s = .error .coefOvf ∨ ∃ u, adaptNeg t base n rem s = .ok u ∧ Adapted n s u := by
  induction n with
  | zero => intro rem s; exact .inr ⟨s, rfl, .refl _ _⟩
  | succ i ih =>
    intro rem s
    rw [adaptNeg]
    split
    · dsimp only
      rcases storeCoef_cases i (coefAt s i + sgn (base - smpAt s (t - 1 - i))) s with ⟨h1, h2⟩ | ⟨_, h2⟩
      · rw [h2]
        simp only [bind, Except.bind]
        have hset := adapted_setCoef (s := s) (i := i) h1
        rcases ih (rem + adaptStep (base - smpAt s (t - 1 - i))
            (setCoef s i (coefAt s i + sgn (base - smpAt s (t - 1 - i)))).qlpShift.toNat
            (setCoef s i (coefAt s i + sgn (base - smpAt s (t - 1 - i)))).order.toNat i)
          (setCoef s i (coefAt s i + sgn (base - smpAt s (t - 1 - i)))) with h3 | ⟨u, h3, h4⟩
        · exact .inl h3
        · exact .inr ⟨u, h3, hset.trans (h4.mono (by omega))⟩
      · rw [h2]; exact .inl rfl
    · exact .inr ⟨s, rfl, .refl _ _⟩

/-- PR.ADAPT raises E_COEF_OVF or changes coefficients below ORDER only (R115). -/
theorem prAdapt_cases (t : Nat) (base : Int) (s : State) :
    prAdapt t base s = .error .coefOvf ∨ ∃ u, prAdapt t base s = .ok u ∧ Adapted s.order.toNat s u := by
  unfold prAdapt
  dsimp only
  split
  · exact adaptPos_cases t base _ _ s
  · split
    · exact adaptNeg_cases t base _ _ s
    · exact .inr ⟨s, rfl, .refl _ _⟩

/-! ### PR.STEP and the sample loop -/

/-- What a stretch of the sample loop from `s` to `t` has done. -/
structure PrMoved (s t : State) : Prop where
  frame : t = { s with prIdx := t.prIdx, smp := t.smp, coef := t.coef }
  idx_le : s.prIdx.toNat ≤ t.prIdx.toNat
  written : ∀ j, s.prIdx.toNat ≤ j → j < t.prIdx.toNat → ∃ w, t.smp.get? j = some w
  kept : ∀ j, (j < s.prIdx.toNat ∨ t.prIdx.toNat ≤ j) → t.smp.get? j = s.smp.get? j
  coef_kept : ∀ j, s.order.toNat ≤ j → coefWord t j = coefWord s j
  coef_legal : ∀ j, fitsCoef (coefAt s j) = true → fitsCoef (coefAt t j) = true
  wf : s.smp.wf → t.smp.wf
  below : ∀ n, t.prIdx.toNat ≤ n → s.smp.below n → t.smp.below n
  fill : ∀ n f, t.prIdx.toNat ≤ n → t.smp.fill n f = s.smp.fill n f

theorem PrMoved.refl (s : State) : PrMoved s s where
  frame := rfl
  idx_le := le_rfl
  written := fun j h1 h2 => absurd h2 (by omega)
  kept := fun _ _ => rfl
  coef_kept := fun _ _ => rfl
  coef_legal := fun _ h => h
  wf := id
  below := fun _ _ => id
  fill := fun _ _ _ => rfl

theorem PrMoved.order {s t : State} (h : PrMoved s t) : t.order = s.order := by rw [h.frame]
theorem PrMoved.sampleCount {s t : State} (h : PrMoved s t) : t.sampleCount = s.sampleCount := by rw [h.frame]

theorem PrMoved.trans {s t u : State} (h : PrMoved s t) (h' : PrMoved t u) : PrMoved s u where
  frame := by
    have h1 := h.frame
    have h2 := h'.frame
    generalize u.prIdx = a at h2 ⊢
    generalize u.smp = b at h2 ⊢
    generalize u.coef = c at h2 ⊢
    rw [h2, h1]
  idx_le := le_trans h.idx_le h'.idx_le
  written := by
    intro j h1 h2
    by_cases hj : j < t.prIdx.toNat
    · rw [h'.kept j (.inl hj)]; exact h.written j h1 hj
    · exact h'.written j (by omega) h2
  kept := by
    intro j hj
    have h1 := h.idx_le
    have h2 := h'.idx_le
    rw [h'.kept j (by omega), h.kept j (by omega)]
  coef_kept := fun j hj => (h'.coef_kept j (by rw [h.order]; exact hj)).trans (h.coef_kept j hj)
  coef_legal := fun j hj => h'.coef_legal j (h.coef_legal j hj)
  wf := h'.wf ∘ h.wf
  below := fun n hn hb => h'.below n hn (h.below n (le_trans h'.idx_le hn) hb)
  fill := fun n f hn => by rw [h'.fill n f hn, h.fill n f (le_trans h'.idx_le hn)]

theorem nextSample_toNat {s : State} (h : s.prIdx.toNat < s.sampleCount.toNat) :
    (nextSample s).prIdx.toNat = s.prIdx.toNat + 1 := by
  have := s.sampleCount.isLt
  simp only [nextSample_prIdx, BitVec.toNat_ofNat]
  omega

/-- A sample stored at PR_IDX and an adaptation after it, moved on by one. -/
theorem sample_moved {s u : State} {x : Int} (hi : s.prIdx.toNat < s.sampleCount.toNat)
    (h : Adapted s.order.toNat (setSmp s s.prIdx.toNat x) u) : PrMoved s (nextSample u) := by
  have hu : u.smp = s.smp.set s.prIdx.toNat (BitVec.ofInt 32 x) := by rw [h.frame]; rfl
  have hup : u.prIdx = s.prIdx := by rw [h.frame]; rfl
  have hun : (nextSample u).prIdx.toNat = s.prIdx.toNat + 1 := by
    rw [nextSample_toNat (by rw [h.frame]; exact hi), hup]
  constructor
  · have hf := h.frame
    generalize u.coef = a at hf
    rw [hf]; rfl
  · omega
  · intro j h1 h2
    obtain rfl : j = s.prIdx.toNat := by omega
    exact ⟨_, by rw [nextSample_smp, hu, Memory.get?_set_same]⟩
  · intro j hj
    rw [nextSample_smp, hu, Memory.get?_set_other _ _ (by omega)]
  · intro j hj; exact h.kept j hj
  · intro j hj; exact h.legal j hj
  · intro hw; rw [nextSample_smp, hu]; exact Memory.wf_set _ _ hw
  · intro n hn hb; rw [nextSample_smp, hu]; exact Memory.below_set hb (by omega)
  · intro n f hn; rw [nextSample_smp, hu]; exact Memory.fill_set _ _ _ _ (by omega)

/-- PR.STEP: one of its three faults, or one sample stored and COEF adapted below ORDER (R117). -/
theorem prStep_cases {s : State} (hi : s.prIdx.toNat < s.sampleCount.toNat) :
    prStep s = .error .shiftZero ∨ prStep s = .error .sampleOvf ∨ prStep s = .error .coefOvf
      ∨ ∃ t, prStep s = .ok t ∧ PrMoved s t ∧ t.prIdx.toNat = s.prIdx.toNat + 1 := by
  unfold prStep
  dsimp only
  split
  · unfold prWarm
    rcases storeSample_cases s.prIdx.toNat
      (if s.prIdx.toNat = 0 then resAt s 0 else smpAt s (s.prIdx.toNat - 1) + resAt s s.prIdx.toNat) s with ⟨_, h⟩ | ⟨_, h⟩
    · rw [h]
      refine .inr (.inr (.inr ⟨_, rfl, sample_moved hi (.refl _ _), ?_⟩))
      exact nextSample_toNat (s := setSmp s _ _) hi
    · rw [h]; exact .inr (.inl rfl)
  · unfold prSteady prPred
    dsimp only
    split
    · exact .inl rfl
    · simp only [bind, Except.bind]
      unfold prNew
      rcases storeSample_cases s.prIdx.toNat
        (asr (lpcSum s s.prIdx.toNat (smpAt s (s.prIdx.toNat - s.order.toNat - 1)) s.order.toNat
            + 2 ^ (s.qlpShift.toNat - 1)) s.qlpShift.toNat + resAt s s.prIdx.toNat
          + smpAt s (s.prIdx.toNat - s.order.toNat - 1)) s with ⟨_, h⟩ | ⟨_, h⟩
      · rw [h]
        dsimp only
        rcases prAdapt_cases s.prIdx.toNat (smpAt s (s.prIdx.toNat - s.order.toNat - 1))
          (setSmp s s.prIdx.toNat (asr (lpcSum s s.prIdx.toNat (smpAt s (s.prIdx.toNat - s.order.toNat - 1)) s.order.toNat
            + 2 ^ (s.qlpShift.toNat - 1)) s.qlpShift.toNat + resAt s s.prIdx.toNat
          + smpAt s (s.prIdx.toNat - s.order.toNat - 1))) with h' | ⟨u, h', hu⟩
        · rw [h']; exact .inr (.inr (.inl rfl))
        · rw [h']
          refine .inr (.inr (.inr ⟨_, rfl, sample_moved hi hu, ?_⟩))
          rw [nextSample_toNat (by rw [hu.frame]; exact hi), hu.frame]; rfl
      · rw [h]; exact .inr (.inl rfl)

theorem prStep_moved {s t : State} (hi : s.prIdx.toNat < s.sampleCount.toNat) (h : prStep s = .ok t) :
    PrMoved s t ∧ t.prIdx.toNat = s.prIdx.toNat + 1 := by
  rcases prStep_cases hi with h1 | h1 | h1 | ⟨u, h1, h2⟩ <;> rw [h1] at h <;> simp at h
  subst h; exact h2

theorem prLoop_moved (n : Nat) : ∀ {s t : State}, s.prIdx.toNat ≤ s.sampleCount.toNat →
    s.sampleCount.toNat ≤ s.prIdx.toNat + n → prLoop n s = .ok t → PrMoved s t ∧ t.prIdx = s.sampleCount := by
  induction n with
  | zero =>
    intro s t hi hn h
    simp only [prLoop, pure, Except.pure, Except.ok.injEq] at h
    subst h
    exact ⟨.refl s, BitVec.eq_of_toNat_eq (by omega)⟩
  | succ n ih =>
    intro s t hi hn h
    rw [prLoop] at h
    split at h
    · rename_i hlt
      cases h1 : prStep s with
      | error e => simp [h1, bind, Except.bind] at h
      | ok m =>
        simp only [h1, bind, Except.bind] at h
        obtain ⟨hm, hm1⟩ := prStep_moved hlt h1
        have hsc := hm.sampleCount
        obtain ⟨g1, g2⟩ := ih (by rw [hsc]; omega) (by rw [hsc]; omega) h
        rw [hsc] at g2
        exact ⟨hm.trans g1, g2⟩
    · simp only [pure, Except.pure, Except.ok.injEq] at h
      subst h
      exact ⟨.refl s, BitVec.eq_of_toNat_eq (by omega)⟩

theorem prLoop_error (n : Nat) : ∀ {s : State} {e : BlockFault}, prLoop n s = .error e →
    e = .shiftZero ∨ e = .sampleOvf ∨ e = .coefOvf := by
  induction n with
  | zero => intro s e h; simp [prLoop, pure, Except.pure] at h
  | succ n ih =>
    intro s e h
    rw [prLoop] at h
    split at h
    · rename_i hlt
      rcases prStep_cases hlt with h1 | h1 | h1 | ⟨u, h1, h2⟩ <;> simp only [h1, bind, Except.bind, Except.error.injEq] at h
      · simp [← h]
      · simp [← h]
      · simp [← h]
      · exact ih h
    · simp [pure, Except.pure] at h

theorem coefsLegal_iff (s : State) (n : Nat) :
    coefsLegal s n = true ↔ ∀ j, j < n → fitsCoef (coefAt s j) = true := by
  induction n with
  | zero => simp [coefsLegal]
  | succ n ih =>
    rw [coefsLegal, Bool.and_eq_true, ih]
    constructor
    · rintro ⟨h1, h2⟩ j hj
      rcases Nat.lt_succ_iff_lt_or_eq.1 hj with h | rfl
      · exact h1 j h
      · exact h2
    · intro h; exact ⟨fun j hj => h j (by omega), h n (by omega)⟩

theorem coefAt_congr {s s' : State} (h : s'.coef = s.coef) (j : Nat) : coefAt s' j = coefAt s j := by
  simp only [coefAt, coefWord, h]

theorem coefsLegal_congr {s s' : State} (h : s'.coef = s.coef) (n : Nat) : coefsLegal s' n = coefsLegal s n := by
  rw [Bool.eq_iff_iff, coefsLegal_iff, coefsLegal_iff]
  simp only [coefAt_congr h]

/-- check_config_PR looks at its own registers only (R174). -/
theorem checkConfigPr_congr {s s' : State} (h1 : s'.predType = s.predType) (h2 : s'.order = s.order)
    (h3 : s'.qlpShift = s.qlpShift) (h4 : s'.sampleCount = s.sampleCount) (h5 : s'.params = s.params)
    (h6 : s'.coef = s.coef) : checkConfigPr s' = checkConfigPr s := by
  simp only [checkConfigPr, h1, h2, h3, h4, h5, coefsLegal_congr h6]

/-- check_config_PR passed: every register it looks at is legal (R174). -/
theorem checkConfigPr_ok {s : State} (h : checkConfigPr s = .ok ()) :
    s.predType = 0 ∧ s.order.toNat ≤ 31 ∧ s.qlpShift.toNat ≤ 15 ∧ s.sampleCount.toNat ≤ s.params.maxn
      ∧ ∀ j, j < s.order.toNat → fitsCoef (coefAt s j) = true := by
  unfold checkConfigPr at h
  repeat' split at h
  all_goals first | (simp at h; done) | skip
  rename_i h1 h2 h3 h4 h5 h6
  exact ⟨BitVec.eq_of_toNat_eq (by simpa using h2), by omega, by omega, by omega, (coefsLegal_iff _ _).1 h6⟩

theorem checkConfigPr_cases (s : State) :
    checkConfigPr s = .ok () ∨ checkConfigPr s = .error .config ∨ checkConfigPr s = .error .unsupported
      ∨ checkConfigPr s = .error .format := by
  unfold checkConfigPr
  repeat' split
  all_goals simp

/-- The whole sample loop of a sub-frame (R118). -/
theorem prBlock_moved {s t : State} (h : prBlock s = .ok t) : PrMoved (startPr s) t ∧ t.prIdx = s.sampleCount := by
  have := prLoop_moved s.sampleCount.toNat (s := startPr s) (by simp) (by simp) h
  simpa using this

/-- PR_RUN by its parts (R118). -/
theorem prRunBody_eq (s : State) : prRunBody s = (checkConfigPr s).bind fun _ => (prBlock s).map finish := by
  unfold prRunBody
  cases checkConfigPr s with
  | error e => rfl
  | ok u => cases prBlock s <;> rfl

end Sys2Proof.Machine
end

