-- ==== Sys2Proof/Laws/Codeword.lean ====
section
/-! SUPPORT. Codewords: what a decoded instruction is, that RD.CODE by the primitives (R91) and by the table of formats,
values and lengths (R66) agree, and the bounds on values and lengths. -/

namespace Sys2Proof

/-- A codeword as the decoder makes it under `k` and `w`: the format selected, and every part in its range. -/
def Codeword.Fits (k w : Nat) : Codeword → Prop
  | .short p => k = 0 ∧ p ≤ 8
  | .rice p k' x => k' = k ∧ k ≠ 0 ∧ p ≤ 8 ∧ x < 2 ^ k
  | .esc w' f => w' = w ∧ f < 2 ^ w

end Sys2Proof

namespace Sys2Proof.Machine

theorem codeword?_short {p : Nat} {i : Instr} (h : shortInstr p = some i) : i.codeword? = some (.short p) := by
  unfold shortInstr at h
  split at h <;> simp at h <;> subst h <;> rfl

theorem codeword?_rice {p k s : Nat} {i : Instr} (h : riceInstr p k s = some i) : i.codeword? = some (.rice p k s) := by
  unfold riceInstr at h
  split at h <;> simp at h <;> subst h <;> rfl

theorem shortInstr_some {p : Nat} (h : p ≤ 8) : ∃ i, shortInstr p = some i := by
  interval_cases p <;> exact ⟨_, rfl⟩

theorem riceInstr_some {p : Nat} (k s : Nat) (h : p ≤ 8) : ∃ i, riceInstr p k s = some i := by
  interval_cases p <;> exact ⟨_, rfl⟩

theorem readUnder_of_fits {k w : Nat} {c : Codeword} (h : c.Fits k w) : c.readUnder k w = true := by
  cases c with
  | short p => simp [Codeword.readUnder, h.1]
  | rice p k' x => simp [Codeword.readUnder, h.1, h.2.1]
  | esc w' f => simp [Codeword.readUnder, h.1]

/-- R91: `0 <= v <= max(2^w - 1, 9*2^k - 10, 8)`. -/
theorem codewordValue_le {k w : Nat} {c : Codeword} (h : c.Fits k w) :
    codewordValue c ≤ max (2 ^ w - 1) (max (9 * 2 ^ k - 10) 8) := by
  cases c with
  | short p => have := h.2; simp only [codewordValue]; omega
  | esc w' f => have := h.2; simp only [codewordValue]; omega
  | rice p k' x =>
    obtain ⟨rfl, hk, hp, hx⟩ := h
    have h2 : 2 ≤ 2 ^ k' := by
      calc 2 = 2 ^ 1 := rfl
        _ ≤ 2 ^ k' := Nat.pow_le_pow_right (by omega) (by omega)
    have hm : p * (2 ^ k' - 1) ≤ 8 * (2 ^ k' - 1) := Nat.mul_le_mul_right _ hp
    simp only [codewordValue]
    split <;> omega

theorem codewordGivesBack_le (pb0 : Nat) (hpb : pb0 ≤ 1) (c : Codeword) : codewordGivesBack pb0 c ≤ 1 := by
  cases c <;> simp only [codewordGivesBack]
  · omega
  · split
    · omega
    · split <;> omega
  · omega

theorem giveBackOnZero_le (p : Params) : p.giveBackOnZero ≤ 1 := Nat.le_of_lt_succ (Bool.toNat_lt _)

/-- A codeword is at least one bit long and no longer than what is read. -/
theorem codewordLength_bounds {k w : Nat} {c : Codeword} (p : Params) (h : c.Fits k w) :
    1 ≤ codewordLength p.giveBackOnZero c ∧ codewordLength p.giveBackOnZero c ≤ codewordReads c
      ∧ codewordReads c ≤ Config.escLen + max k w := by
  have hg := codewordGivesBack_le _ (giveBackOnZero_le p) c
  have he : Config.escLen = 9 := rfl
  cases c with
  | short p =>
    have := h.2
    simp only [codewordLength, codewordReads, codewordGivesBack] at *
    omega
  | rice p k' x =>
    obtain ⟨rfl, hk, hp, hx⟩ := h
    simp only [codewordLength, codewordReads] at *
    omega
  | esc w' f =>
    obtain ⟨rfl, hf⟩ := h
    simp only [codewordLength, codewordReads, codewordGivesBack] at *
    omega

/-- One codeword off a window of the stream that is long enough, or ends at BITEND: either both readings lack bits,
or the decoder's codeword has the value and the length RD.CODE gives it. -/
theorem rdCode_agrees (k w : Nat) (s : State) :
    (∃ e, decodeCodeword k w (streamWindow s k w) = .error e ∧ rdCode k w s = .error .truncated)
    ∨ ∃ i c rest, decodeCodeword k w (streamWindow s k w) = .ok (i, rest) ∧ i.codeword? = some c
        ∧ c.Fits k w ∧ s.bitpos.toNat + codewordReads c ≤ s.bitend.toNat
        ∧ rdCode k w s = .ok (codewordValue c, advance (codewordLength s.params.giveBackOnZero c) s) := by
  by_cases hb : s.bitpos.toNat ≤ s.bitend.toNat
  swap
  · left
    refine ⟨.truncatedPrefix, ?_, ?_⟩
    · simp [decodeCodeword, streamWindow, show s.bitend.toNat - s.bitpos.toNat = 0 by omega, bitsFrom, Config.escLen, unaryPrefix]
    · have : s.bitpos.toNat + 1 > s.bitend.toNat := by omega
      simp [rdCode, bsUnary9, Config.escLen, bsUnaryFrom, this, bind, Except.bind]
  set m := min (s.bitend.toNat - s.bitpos.toNat) (Config.escLen + max k w) with hm
  have hesc : Config.escLen = 9 := rfl
  rcases unary_agrees Config.escLen 0 m s (by omega) (by omega) with ⟨h1, h2⟩ | ⟨r, c, h1, h2, h3, h4⟩
  · left
    exact ⟨.truncatedPrefix, by simp [decodeCodeword, streamWindow, ← hm, h1], by simp [rdCode, bsUnary9, h2, bind, Except.bind]⟩
  · have hc : s.bitpos.toNat + c ≤ s.bitend.toNat := by omega
    have hca := advance_toNat hc
    rcases h4 with ⟨rfl, hc9⟩ | ⟨q, rfl, hq, hcl⟩
    · by_cases hw : w ≤ m - c
      · right
        refine ⟨.cwEsc w (fieldAt s (s.bitpos.toNat + c) w), .esc w (fieldAt s (s.bitpos.toNat + c) w), bitsFrom s (s.bitpos.toNat + c + w) (m - c - w), ?_, rfl, ⟨rfl, fieldAt_lt _ _ _⟩, ?_, ?_⟩
        · simp [decodeCodeword, streamWindow, ← hm, h1, takeField_bitsFrom, hw]
        · simp only [codewordReads]; omega
        · have := bsRead_ok (n := w) (s := advance c s) (by rw [hca]; simp; omega)
          simp only [rdCode, bsUnary9, h2, bind, Except.bind, this, hca]
          rw [advance_advance hc]
          simp [codewordValue, codewordLength, codewordReads, codewordGivesBack, hc9]
      · left
        refine ⟨.truncatedField, by simp [decodeCodeword, streamWindow, ← hm, h1, takeField_bitsFrom, hw], ?_⟩
        have := bsRead_truncated (n := w) (s := advance c s) (by rw [hca]; simp; omega)
        simp only [rdCode, bsUnary9, h2, bind, Except.bind, this]
    · have hq8 : q ≤ 8 := by omega
      by_cases hk : k = 0
      · right
        obtain ⟨i, hi⟩ := shortInstr_some hq8
        refine ⟨i, .short q, bitsFrom s (s.bitpos.toNat + c) (m - c), ?_, codeword?_short hi, ⟨hk, hq8⟩, ?_, ?_⟩
        · rw [decodeCodeword, streamWindow, ← hm, h1]; simp [hk, hi, orReject]
        · simp only [codewordReads]; omega
        · simp only [rdCode, bsUnary9, h2, bind, Except.bind, hk]
          simp [codewordValue, codewordLength, codewordReads, codewordGivesBack, pure, Except.pure, hq]
      · by_cases hkm : k ≤ m - c
        · right
          have hf := fieldAt_lt s (s.bitpos.toNat + c) k
          obtain ⟨i, hi⟩ := riceInstr_some k (fieldAt s (s.bitpos.toNat + c) k) hq8
          refine ⟨i, .rice q k (fieldAt s (s.bitpos.toNat + c) k), bitsFrom s (s.bitpos.toNat + c + k) (m - c - k), ?_, codeword?_rice hi, ⟨rfl, hk, hq8, hf⟩, ?_, ?_⟩
          · simp [decodeCodeword, streamWindow, ← hm, h1, hk, hi, orReject, takeField_bitsFrom, hkm]
          · simp only [codewordReads]; omega
          · have := bsRead_ok (n := k) (s := advance c s) (by rw [hca]; simp; omega)
            simp only [rdCode, bsUnary9, h2, bind, Except.bind, this, hca, hk, if_false]
            rw [advance_advance hc]
            have hck : s.bitpos.toNat + (c + k) ≤ s.bitend.toNat := by omega
            simp only [codewordValue, codewordLength, codewordReads, codewordGivesBack, pure, Except.pure, fieldAt_advance]
            generalize fieldAt s (s.bitpos.toNat + c) k = x
            by_cases h2x : 2 ≤ x
            · simp [h2x]; rw [show q + 1 + k = c + k by omega]
            · by_cases h1x : x = 1
              · simp [h1x]; rw [unread_advance hck (by omega), show c + k - 1 = q + k by omega]
              · have hpb : s.params.giveBackOnZero ≤ 1 := Nat.le_of_lt_succ (Bool.toNat_lt _)
                simp [h2x, h1x]
                rw [unread_advance hck (by omega), show q + 1 + k = c + k by omega]
        · left
          refine ⟨.truncatedSuffix, by simp [decodeCodeword, streamWindow, ← hm, h1, hk, takeField_bitsFrom, hkm], ?_⟩
          have := bsRead_truncated (n := k) (s := advance c s) (by rw [hca]; simp; omega)
          simp only [rdCode, bsUnary9, h2, bind, Except.bind, this, hk, if_false]
end Sys2Proof.Machine
end

