-- ==== Sys2Proof/Laws/Encoding.lean ====
section
/-! SUPPORT. Bit strings: fields, prefixes and codewords off a string of bits, and the encoder's strings (R63 to R66). -/

namespace Sys2Proof

@[simp] theorem fieldBits_length (n v : Nat) : (fieldBits n v).length = n := by
  induction n with
  | zero => rfl
  | succ n ih => simp [fieldBits, ih]

/-- A field's bits, read as a field, give the value's low bits (R40). -/
theorem takeField_fieldBits (n : Nat) : ∀ (acc v : Nat) (rest : List Bool),
    takeField n acc (fieldBits n v ++ rest) = some (acc * 2 ^ n + v % 2 ^ n, rest) := by
  induction n with
  | zero => intro acc v rest; simp [takeField, fieldBits, Nat.mod_one]
  | succ n ih =>
    intro acc v rest
    rw [fieldBits, List.cons_append, takeField, ih, Nat.pow_succ, Nat.mod_mul, Nat.testBit_eq_decide_div_mod_eq]
    congr 2
    have h : (decide (v / 2 ^ n % 2 = 1)).toNat = v / 2 ^ n % 2 := by
      rcases Nat.mod_two_eq_zero_or_one (v / 2 ^ n) with h | h <;> simp [h]
    rw [h]; ring

/-- A field read off a string is the string's front, with the value below `2^n`. -/
theorem takeField_some (n : Nat) : ∀ (acc : Nat) (bits rest : List Bool) (f : Nat),
    takeField n acc bits = some (f, rest) → ∃ v, f = acc * 2 ^ n + v ∧ v < 2 ^ n ∧ bits = fieldBits n v ++ rest := by
  induction n with
  | zero => intro acc bits rest f h; simp [takeField] at h; exact ⟨0, by simp [h, fieldBits]⟩
  | succ n ih =>
    intro acc bits rest f h
    cases bits with
    | nil => simp [takeField] at h
    | cons b bits =>
      obtain ⟨v, rfl, hv, rfl⟩ := ih _ _ _ _ h
      have hb := Bool.toNat_lt b
      refine ⟨b.toNat * 2 ^ n + v, by rw [Nat.pow_succ]; ring, by rw [Nat.pow_succ]; nlinarith, ?_⟩
      have h1 : (b.toNat * 2 ^ n + v).testBit n = b := by
        rw [Nat.testBit_eq_decide_div_mod_eq, Nat.add_comm, Nat.add_mul_div_right _ _ (by positivity),
          Nat.div_eq_of_lt hv]
        cases b <;> rfl
      have h2 : ∀ m, m ≤ n → fieldBits m (b.toNat * 2 ^ n + v) = fieldBits m v := by
        intro m
        induction m with
        | zero => intro _; rfl
        | succ m ihm =>
          intro hm
          rw [fieldBits, fieldBits, ihm (by omega), Nat.mul_comm,
            Nat.testBit_two_pow_mul_add _ hv, if_pos (by omega)]
      rw [fieldBits, h1, h2 n (le_refl n), List.cons_append]

theorem takeField_none_iff (n : Nat) : ∀ (acc : Nat) (bits : List Bool),
    takeField n acc bits = none ↔ bits.length < n := by
  induction n with
  | zero => intro acc bits; simp [takeField]
  | succ n ih =>
    intro acc bits
    cases bits with
    | nil => simp [takeField]
    | cons b bits => simp [takeField, ih]

/-- `q` ones and a zero, with `q` below the cap. -/
theorem unaryPrefix_zero (q : Nat) : ∀ (left p : Nat) (rest : List Bool), q < left →
    unaryPrefix left p (prefixBits q ++ rest) = some (some (p + q), rest) := by
  induction q with
  | zero =>
    intro left p rest h
    obtain ⟨m, rfl⟩ := Nat.exists_eq_succ_of_ne_zero (Nat.ne_of_gt h)
    simp [prefixBits, unaryPrefix]
  | succ q ih =>
    intro left p rest h
    obtain ⟨m, rfl⟩ := Nat.exists_eq_succ_of_ne_zero (show left ≠ 0 by omega)
    have : prefixBits (q + 1) = true :: prefixBits q := by simp [prefixBits, List.replicate_succ]
    rw [this, List.cons_append, unaryPrefix, ih m (p + 1) rest (by omega)]
    congr 3; omega

/-- As many ones as the cap allows. -/
theorem unaryPrefix_cap (left : Nat) : ∀ (p : Nat) (rest : List Bool),
    unaryPrefix left p (List.replicate left true ++ rest) = some (none, rest) := by
  induction left with
  | zero => intro p rest; rfl
  | succ left ih => intro p rest; rw [List.replicate_succ, List.cons_append, unaryPrefix, ih]

/-- What a prefix read off a string was, in both of its outcomes. -/
theorem unaryPrefix_some (left : Nat) : ∀ (p : Nat) (bits rest : List Bool) (r : Option Nat),
    unaryPrefix left p bits = some (r, rest) →
      (r = none ∧ bits = List.replicate left true ++ rest)
      ∨ ∃ q, r = some (p + q) ∧ q < left ∧ bits = prefixBits q ++ rest := by
  induction left with
  | zero => intro p bits rest r h; simp [unaryPrefix] at h; exact .inl ⟨h.1.symm, by simp [h.2]⟩
  | succ left ih =>
    intro p bits rest r h
    cases bits with
    | nil => simp [unaryPrefix] at h
    | cons b bits =>
      cases b with
      | false => simp [unaryPrefix] at h; exact .inr ⟨0, by simp [h.1], by omega, by simp [prefixBits, h.2]⟩
      | true =>
        rcases ih _ _ _ _ h with ⟨h1, h2⟩ | ⟨q, h1, h2, h3⟩
        · exact .inl ⟨h1, by rw [h2, List.replicate_succ, List.cons_append]⟩
        · refine .inr ⟨q + 1, by rw [h1]; congr 1; omega, by omega, ?_⟩
          rw [h3]; simp [prefixBits, List.replicate_succ]

theorem unaryPrefix_none (left : Nat) : ∀ (p : Nat) (bits : List Bool),
    unaryPrefix left p bits = none → bits.length < left := by
  induction left with
  | zero => intro p bits h; simp [unaryPrefix] at h
  | succ left ih =>
    intro p bits h
    cases bits with
    | nil => simp
    | cons b bits =>
      cases b with
      | false => simp [unaryPrefix] at h
      | true => have := ih _ _ h; simp; omega

theorem unaryPrefix_length (left : Nat) (p : Nat) (bits rest : List Bool) (r : Option Nat)
    (h : unaryPrefix left p bits = some (r, rest)) : bits.length ≤ rest.length + left := by
  rcases unaryPrefix_some left p bits rest r h with ⟨_, rfl⟩ | ⟨q, _, hq, rfl⟩
  · simp; omega
  · simp [prefixBits]; omega

/-- The encoding of an instruction that is a codeword. -/
theorem encode_of_codeword {i : Instr} {c : Codeword} (h : i.codeword? = some c) :
    encode i = .codeword (codewordBits c) := by
  cases i <;> simp [Instr.codeword?] at h <;> subst h <;> rfl

/-- The prefix of a codeword of format CW_SHORT is at most 8 (R63). -/
theorem short_le {i : Instr} {p : Nat} (h : i.codeword? = some (.short p)) : p ≤ 8 ∧ shortInstr p = some i := by
  cases i <;> simp [Instr.codeword?] at h <;> subst h <;> exact ⟨by omega, rfl⟩

theorem rice_le {i : Instr} {p k x : Nat} (h : i.codeword? = some (.rice p k x)) :
    p ≤ 8 ∧ riceInstr p k x = some i ∧ (i.wf = true ↔ 1 ≤ k ∧ k ≤ 23 ∧ x < 2 ^ k) := by
  cases i <;> simp [Instr.codeword?] at h <;> obtain ⟨rfl, rfl, rfl⟩ := h <;>
    exact ⟨by omega, rfl, by simp [Instr.wf, suffixWf, and_assoc]⟩

theorem esc_wf {i : Instr} {w f : Nat} (h : i.codeword? = some (.esc w f)) :
    i = .cwEsc w f ∧ (i.wf = true ↔ 1 ≤ w ∧ w ≤ 31 ∧ f < 2 ^ w) := by
  cases i <;> simp [Instr.codeword?] at h
  obtain ⟨rfl, rfl⟩ := h
  exact ⟨rfl, by simp [Instr.wf, fieldWf, and_assoc]⟩

end Sys2Proof
end

