-- ==== Sys2Proof/Laws/Residual.lean ====
section
/-! SUPPORT. The residual decoder: what each of its operations can do, said once. -/

namespace Sys2Proof.Machine

/-- RD.CODE as one fact (R91): E_TRUNCATED, or a value in the range of R91 and a cursor moved by at least one bit, at most
`9 + max k w`, and within BITEND. -/
theorem rdCode_cases (k w : Nat) (s : State) :
    rdCode k w s = .error .truncated
    ∨ ∃ v n, rdCode k w s = .ok (v, advance n s) ∧ 1 ≤ n ∧ n ≤ 9 + max k w
        ∧ s.bitpos.toNat + n ≤ s.bitend.toNat ∧ v ≤ max (2 ^ w - 1) (max (9 * 2 ^ k - 10) 8)
        ∧ (k = 0 → v ≤ max (2 ^ w - 1) 8) := by
  rcases rdCode_agrees k w s with ⟨e, _, h⟩ | ⟨i, c, rest, _, _, hf, hb, h⟩
  · exact .inl h
  · obtain ⟨h1, h2, h3⟩ := codewordLength_bounds s.params hf
    refine .inr ⟨_, _, h, h1, by simp [Config.escLen] at h3; omega, by omega, codewordValue_le hf, ?_⟩
    rintro rfl
    have := codewordValue_le hf
    omega

theorem bitsFrom_congr {s s' : State} (h : s'.bsmem = s.bsmem) (n : Nat) : ∀ p, bitsFrom s' p n = bitsFrom s p n := by
  induction n with
  | zero => intro p; rfl
  | succ n ih => intro p; rw [bitsFrom, bitsFrom, ih]; simp only [bitAt, bsByte, h]

/-- RD.CODE looks at the stream, the cursor and PB0 only (R91): two states that agree on them give the same value and
the same length. -/
theorem rdCode_congr (k w : Nat) {s s' : State} (hm : s'.bsmem = s.bsmem) (hp : s'.bitpos = s.bitpos)
    (he : s'.bitend = s.bitend) (hpar : s'.params = s.params) :
    (rdCode k w s = .error .truncated ∧ rdCode k w s' = .error .truncated)
    ∨ ∃ v n, rdCode k w s = .ok (v, advance n s) ∧ rdCode k w s' = .ok (v, advance n s') := by
  have hw : streamWindow s' k w = streamWindow s k w := by simp only [streamWindow, hp, he, bitsFrom_congr hm]
  rcases rdCode_agrees k w s with ⟨e, h1, h2⟩ | ⟨i, c, rest, h1, h2, _, _, h5⟩
  · rcases rdCode_agrees k w s' with ⟨e', _, h2'⟩ | ⟨i', c', rest', h1', _⟩
    · exact .inl ⟨h2, h2'⟩
    · rw [hw, h1] at h1'; simp at h1'
  · rcases rdCode_agrees k w s' with ⟨e', h1', _⟩ | ⟨i', c', rest', h1', h2', _, _, h5'⟩
    · rw [hw, h1] at h1'; simp at h1'
    · rw [hw, h1] at h1'
      simp only [Except.ok.injEq, Prod.mk.injEq] at h1'
      obtain ⟨rfl, rfl⟩ := h1'
      rw [h2] at h2'
      simp only [Option.some.injEq] at h2'
      subst h2'
      exact .inr ⟨_, _, h5, by rw [h5', hpar]⟩

/-- With `9 + max k w` bits left a code is never truncated. -/
theorem rdCode_ample {k w : Nat} {s : State} (h : s.bitpos.toNat + (9 + max k w) ≤ s.bitend.toNat) :
    ∃ v n, rdCode k w s = .ok (v, advance n s) := by
  have read : ∀ m (t : State), t.bitpos.toNat + m ≤ t.bitend.toNat → bsRead m t = .ok (fieldAt t t.bitpos.toNat m, advance m t) :=
    fun m t ht => bsRead_ok ht
  rcases rdCode_cases k w s with h1 | ⟨v, n, h1, _⟩
  · exfalso
    rcases unary_agrees Config.escLen 0 9 s (by omega) (.inl (by decide)) with ⟨h2, _⟩ | ⟨r, c, _, h2, h3, _⟩
    · have : ∀ left p m, left ≤ m → ∀ q, unaryPrefix left p (bitsFrom s q m) ≠ none := by
        intro left
        induction left with
        | zero => intro p m _ q; simp [unaryPrefix]
        | succ left ih =>
          intro p m hm q
          obtain ⟨m, rfl⟩ := Nat.exists_eq_succ_of_ne_zero (show m ≠ 0 by omega)
          rw [bitsFrom]
          cases bitAt s q with
          | false => simp [unaryPrefix]
          | true => exact ih _ _ (by omega) _
      exact this _ _ _ (by decide) _ h2
    · have hc := advance_toNat (n := c) (s := s) (by omega)
      have ht : ∀ m, m ≤ max k w → (advance c s).bitpos.toNat + m ≤ (advance c s).bitend.toNat := by
        intro m hm; rw [hc]; simp only [advance_bitend]; omega
      cases r with
      | none => simp [rdCode, bsUnary9, h2, bind, Except.bind, read w _ (ht w (by omega))] at h1
      | some p =>
        by_cases hk : k = 0
        · simp [rdCode, bsUnary9, h2, bind, Except.bind, hk, pure, Except.pure] at h1
        · simp only [rdCode, bsUnary9, h2, bind, Except.bind, hk, if_false, read k _ (ht k (by omega))] at h1
          split at h1
          · simp [pure, Except.pure] at h1
          · split at h1 <;> simp [pure, Except.pure] at h1
  · exact ⟨v, n, h1⟩

/-- RD.HIST writes HISTORY or raises E_HIST_OVF (R96). -/
theorem rdHist_cases (u : Nat) (s : State) :
    rdHist u s = .error .histOvf ∨ ∃ h, rdHist u s = .ok (setHistory h s) := by
  unfold rdHist
  split
  · dsimp only
    split
    · exact .inl rfl
    · exact .inr ⟨_, rfl⟩
  · exact .inr ⟨_, rfl⟩

/-- HISTORY within the bound of R102 stays within it. -/
theorem history_bound {h m u : Nat} (hm : m ≤ 255) (hh : h ≤ historyBound) (hu : u ≤ 0xFFFF) :
    h + u * m - h * m / 512 ≤ historyBound := by
  simp only [historyBound] at *
  have hd := Nat.div_add_mod (h * m) 512
  have hlt := Nat.mod_lt (h * m) (show 0 < 512 by norm_num)
  generalize h * m / 512 = q at *
  rcases Nat.eq_zero_or_pos m with rfl | hm0
  · omega
  have h1 : u * m ≤ 0xFFFF * m := Nat.mul_le_mul_right _ hu
  have h2 : h * (512 - m) ≤ (2 ^ 25 - 1) * (512 - m) := Nat.mul_le_mul_right _ hh
  rw [Nat.mul_sub, Nat.mul_sub] at h2
  have h3 : h * m ≤ h * 512 := Nat.mul_le_mul_left _ (by omega)
  omega

/-- With a legal HISTORY_MULT the new HISTORY always fits a word: where the gain exceeds the decay, HISTORY is below 2^25. -/
theorem history_fits {h m u : Nat} (hm : m ≤ 255) (hh : h < 2 ^ 32) (hu : u ≤ 0xFFFF) :
    h + u * m - h * m / 512 ≤ 2 ^ 32 - 1 := by
  have hd := Nat.div_add_mod (h * m) 512
  have hlt := Nat.mod_lt (h * m) (show 0 < 512 by norm_num)
  generalize h * m / 512 = q at *
  by_cases hq : u * m ≤ q
  · omega
  · have h1 : u * m ≤ 0xFFFF * 255 := Nat.mul_le_mul hu hm
    have h2 : h * m < (512 * u) * m := by rw [Nat.mul_assoc]; omega
    have h3 : h < 512 * u := Nat.lt_of_mul_lt_mul_right h2
    omega

theorem history_mul_div_le {h m : Nat} (hm : m ≤ 255) : h * m / 512 ≤ h := by
  have : h * m ≤ h * 512 := Nat.mul_le_mul_left _ (by omega)
  omega

/-- RD.HIST by its formula, when the result fits a word (R96). -/
theorem rdHist_formula {u : Nat} {s : State} (hm : s.historyMult.toNat ≤ 255) (hu : u ≤ 0xFFFF)
    (hf : s.history.toNat + u * s.historyMult.toNat - s.history.toNat * s.historyMult.toNat / 512 ≤ 2 ^ 32 - 1) :
    rdHist u s = .ok (setHistory (BitVec.ofNat 32 (s.history.toNat + u * s.historyMult.toNat
      - s.history.toNat * s.historyMult.toNat / 512)) s) := by
  have hle := history_mul_div_le (h := s.history.toNat) hm
  have he : histUpdate s.history.toNat s.historyMult.toNat u
      = ((s.history.toNat + u * s.historyMult.toNat - s.history.toNat * s.historyMult.toNat / 512 : Nat) : Int) := by
    simp only [histUpdate]; push_cast [Nat.cast_sub (show s.history.toNat * s.historyMult.toNat / 512
      ≤ s.history.toNat + u * s.historyMult.toNat by omega)]; rfl
  simp only [rdHist, if_pos hu, he]
  rw [if_neg (by omega), BitVec.ofInt_natCast]

/-- The value of HISTORY an update leaves with a legal HISTORY_MULT: E_HIST_OVF does not arise. -/
theorem rdHist_ok {u : Nat} {s : State} (hm : s.historyMult.toNat ≤ 255) :
    rdHist u s = .ok (setHistory (if u ≤ 0xFFFF then BitVec.ofNat 32 (s.history.toNat + u * s.historyMult.toNat
      - s.history.toNat * s.historyMult.toNat / 512) else 0xFFFF) s) := by
  by_cases hu : u ≤ 0xFFFF
  · rw [rdHist_formula hm hu (history_fits hm s.history.isLt hu), if_pos hu]
  · simp [rdHist, hu]

/-- Steps 3 to 5 of RD.STEP, in general (R92, R94 to R96). -/
theorem useResidual_cases (v : Nat) (s : State) :
    useResidual v s = .error .histOvf
    ∨ ∃ h, useResidual v s
        = .ok (setHistory h (setRes (clearSm s) s.rdIdx.toNat (rdMap (v + s.signModifier.toNat)))) := by
  unfold useResidual
  rcases rdHist_cases (v + s.signModifier.toNat)
    (rdStore s.rdIdx.toNat (rdMap (v + s.signModifier.toNat)) (clearSm s)) with h | ⟨x, h⟩
  · exact .inl h
  · exact .inr ⟨x, h⟩

/-- Steps 2 to 5 of RD.STEP with a legal HISTORY_MULT. -/
theorem useResidual_ok {v n : Nat} {s : State} (hm : s.historyMult.toNat ≤ 255) :
    useResidual v (advance n s) = .ok (residualDone s n v) :=
  rdHist_ok (s := rdStore s.rdIdx.toNat (rdMap (v + s.signModifier.toNat)) (clearSm (advance n s))) hm

/-- The rest of RD.ZRUN (R98). -/
theorem useZeroRun_cases (z : Nat) (s : State) :
    (s.sampleCount.toNat - (s.rdIdx.toNat + 1) < z ∧ useZeroRun z s = .error .zeroRun)
    ∨ (z ≤ s.sampleCount.toNat - (s.rdIdx.toNat + 1) ∧ useZeroRun z s = .ok (insertZeros z s)) := by
  unfold useZeroRun
  by_cases h : z > s.sampleCount.toNat - (s.rdIdx.toNat + 1)
  · exact .inl ⟨h, if_pos h⟩
  · exact .inr ⟨Nat.le_of_not_lt h, if_neg h⟩

theorem get?_storeZeros (z : Nat) : ∀ (i : Nat) (m : Memory 32) (j : Nat),
    (storeZeros z i m).get? j = if i ≤ j ∧ j < i + z then some 0 else m.get? j := by
  induction z with
  | zero => intro i m j; simp [storeZeros]
  | succ z ih =>
    intro i m j
    rw [storeZeros, ih, Memory.get?_set]
    by_cases h1 : j = i
    · subst h1; simp
    · by_cases h2 : i + 1 ≤ j ∧ j < i + 1 + z
      · rw [if_pos h2, if_pos (by omega)]
      · rw [if_neg h2, if_neg h1, if_neg (by omega)]

theorem storeZeros_wf (z : Nat) : ∀ (i : Nat) (m : Memory 32), m.wf → (storeZeros z i m).wf := by
  induction z with
  | zero => intro i m h; exact h
  | succ z ih => intro i m h; exact ih _ _ (Memory.wf_set _ _ h)

theorem storeZeros_below (z : Nat) {n : Nat} : ∀ (i : Nat) (m : Memory 32), m.below n → i + z ≤ n →
    (storeZeros z i m).below n := by
  induction z with
  | zero => intro i m h _; exact h
  | succ z ih => intro i m h hz; exact ih _ _ (Memory.below_set h (by omega)) (by omega)

theorem fill_storeZeros (n : Nat) (f : Nat → Word) (z : Nat) : ∀ (i : Nat) (m : Memory 32), i + z ≤ n →
    (storeZeros z i m).fill n f = m.fill n f := by
  induction z with
  | zero => intro i m _; rfl
  | succ z ih => intro i m hz; rw [storeZeros, ih _ _ (by omega), Memory.fill_set _ _ _ _ (by omega)]

/-- RD.K is at most 23 (R90). -/
theorem rdK_le (s : State) : rdK s ≤ 23 := by
  have h : s.history.toNat / 512 + 3 < 2 ^ 24 := by have := s.history.isLt; omega
  have : ilog2 (s.history.toNat / 512 + 3) < 24 := (Nat.log2_lt (by omega)).2 h
  unfold rdK
  omega

theorem rdK_le_16 {s : State} (h : s.history.toNat ≤ historyBound) : rdK s ≤ 16 := by
  have h : s.history.toNat / 512 + 3 < 2 ^ 17 := by simp only [historyBound] at h; omega
  have : ilog2 (s.history.toNat / 512 + 3) < 17 := (Nat.log2_lt (by omega)).2 h
  unfold rdK
  omega

/-- RD.ZK is at most 7 where a zero-run is due, or E_LOG2_ZERO (R97). -/
theorem rdZk_cases (s : State) :
    (s.history.toNat = 0 ∧ rdZk s = .error .log2Zero)
    ∨ (s.history.toNat ≠ 0 ∧ ∃ zk, rdZk s = .ok zk ∧ zk ≤ s.maximumK.toNat ∧ (s.history.toNat < 128 → zk ≤ 8)) := by
  unfold rdZk
  by_cases h : s.history.toNat = 0
  · exact .inl ⟨h, if_pos h⟩
  · refine .inr ⟨h, _, if_neg h, by omega, ?_⟩
    intro hlt
    have h2 : (s.history.toNat + 16) / 64 ≤ 2 := by omega
    by_cases h1 : s.history.toNat = 1
    · rw [h1]; simp [ilog2]; omega
    · have : 1 ≤ ilog2 s.history.toNat := (Nat.le_log2 h).2 (by omega)
      omega

end Sys2Proof.Machine
end

