-- ==== Sys2Proof/Laws/Exec.lean ====
section
/-! SUPPORT. What `exec` is, instruction group by instruction group, and a codeword's step said once. -/

namespace Sys2Proof.Machine

/-- Every codeword row is the one operation `codeword` on its format (R63, R66). -/
theorem exec_codeword {i : Instr} {c : Codeword} (h : i.codeword? = some c) (s : State) : exec i s = codeword c s := by
  cases i <;> simp [Instr.codeword?] at h <;> subst h <;> rfl

theorem ifAccepted_ready {s e : State} (h : Ready s) : ifAccepted s e = .next e := by
  simp [ifAccepted, busy, h.1, h.2]

theorem ifAccepted_fault {s e : State} (hi : s.engine = .idle) (h : s.fault = true) : ifAccepted s e = .next s := by
  simp [ifAccepted, busy, hi, h]

theorem ifAccepted_busy {s e : State} (hi : s.engine ≠ .idle) : ifAccepted s e = .refused .commandWhileBusy := by
  simp [ifAccepted, busy, hi]

theorem ifIdle_idle {s e : State} (h : s.engine = .idle) : ifIdle s e = .next e := by
  simp [ifIdle, busy, h]

theorem ifIdle_busy {s e : State} (hi : s.engine ≠ .idle) : ifIdle s e = .refused .commandWhileBusy := by
  simp [ifIdle, busy, hi]

/-- A codeword as a residual code, where its format is selected and its bits are there. -/
theorem codeword_residual {c : Codeword} {sf : Bool} {s : State} (he : s.engine = .residual sf)
    (hi : s.rdIdx.toNat < s.sampleCount.toNat) (hr : c.readUnder (rdK s) s.sampleSize.toNat = true)
    (hb : s.bitpos.toNat + codewordReads c ≤ s.bitend.toNat) :
    codeword c s
      = .next (afterResidualCode sf (codewordValue c) (advance (codewordLength s.params.giveBackOnZero c) s)) := by
  simp [codeword, he, hi, readCodeword, hr, Nat.not_lt.2 hb]

/-- With a legal HISTORY_MULT a residual code leads on. -/
theorem afterResidualCode_ok {sf : Bool} {v n : Nat} {s : State} (hm : s.historyMult.toNat ≤ 255) :
    afterResidualCode sf v (advance n s) = goOn sf (residualDone s n v) := by
  simp [afterResidualCode, useResidual_ok hm, goOn]

/-- A codeword as a zero-run code, where its format is selected and its bits are there. -/
theorem codeword_zeroRun {c : Codeword} {sf : Bool} {zk : Nat} {s : State} (he : s.engine = .zeroRun sf)
    (hz : rdZk s = .ok zk) (hr : c.readUnder zk 16 = true) (hb : s.bitpos.toNat + codewordReads c ≤ s.bitend.toNat) :
    codeword c s
      = .next (afterZeroRunCode sf (codewordValue c) (advance (codewordLength s.params.giveBackOnZero c) s)) := by
  simp [codeword, he, hz, readCodeword, Config.zrunWidth, hr, Nat.not_lt.2 hb]

end Sys2Proof.Machine
end

