-- ==== Sys2Proof/Laws/RdRun.lean ====
section
/-! SUPPORT. RD.STEP and the residual loop: what a run of residuals changes and what it leaves, said once for a stretch of
the loop and carried through it by transitivity. -/

namespace Sys2Proof.Machine

/-- A residual in the range of R93. -/
def ResidualRange (w : Word) : Prop := -2 ^ 30 ≤ w.toInt ∧ w.toInt ≤ 2 ^ 30

/-- What a stretch of the residual loop from `s` to `t` has done: the frame, the cursor and the index moved on and within
their limits, the entries between the two indices written, the others not. -/
structure RdMoved (s t : State) : Prop where
  frame : t = { s with
    bitpos := t.bitpos, history := t.history, signModifier := t.signModifier, rdIdx := t.rdIdx, res := t.res }
  bitpos_le : s.bitpos.toNat ≤ t.bitpos.toNat
  bitpos_end : t.bitpos.toNat ≤ s.bitend.toNat
  idx_le : s.rdIdx.toNat ≤ t.rdIdx.toNat
  idx_end : t.rdIdx.toNat ≤ s.sampleCount.toNat
  written : ∀ j, s.rdIdx.toNat ≤ j → j < t.rdIdx.toNat → ∃ w, t.res.get? j = some w ∧ ResidualRange w
  kept : ∀ j, (j < s.rdIdx.toNat ∨ t.rdIdx.toNat ≤ j) → t.res.get? j = s.res.get? j
  wf : s.res.wf → t.res.wf
  below : ∀ n, s.sampleCount.toNat ≤ n → s.res.below n → t.res.below n
  fill : ∀ f, t.res.fill s.sampleCount.toNat f = s.res.fill s.sampleCount.toNat f

theorem RdMoved.refl {s : State} (hb : s.bitpos.toNat ≤ s.bitend.toNat) (hi : s.rdIdx.toNat ≤ s.sampleCount.toNat) :
    RdMoved s s where
  frame := rfl
  bitpos_le := le_rfl
  bitpos_end := hb
  idx_le := le_rfl
  idx_end := hi
  written := fun j h1 h2 => absurd h2 (by omega)
  kept := fun _ _ => rfl
  wf := id
  below := fun _ _ => id
  fill := fun _ => rfl

theorem RdMoved.bitend {s t : State} (h : RdMoved s t) : t.bitend = s.bitend := by rw [h.frame]
theorem RdMoved.sampleCount {s t : State} (h : RdMoved s t) : t.sampleCount = s.sampleCount := by rw [h.frame]
theorem RdMoved.sampleSize {s t : State} (h : RdMoved s t) : t.sampleSize = s.sampleSize := by rw [h.frame]
theorem RdMoved.historyMult {s t : State} (h : RdMoved s t) : t.historyMult = s.historyMult := by rw [h.frame]
theorem RdMoved.maximumK {s t : State} (h : RdMoved s t) : t.maximumK = s.maximumK := by rw [h.frame]

theorem RdMoved.trans {s t u : State} (h : RdMoved s t) (h' : RdMoved t u) : RdMoved s u where
  frame := by
    have h1 := h.frame
    have h2 := h'.frame
    generalize h'1 : u.bitpos = a at h2 ⊢
    generalize h'2 : u.history = b at h2 ⊢
    generalize h'3 : u.signModifier = c at h2 ⊢
    generalize h'4 : u.rdIdx = d at h2 ⊢
    generalize h'5 : u.res = e at h2 ⊢
    rw [h2, h1]
  bitpos_le := le_trans h.bitpos_le h'.bitpos_le
  bitpos_end := by have := h'.bitpos_end; rwa [h.bitend] at this
  idx_le := le_trans h.idx_le h'.idx_le
  idx_end := by have := h'.idx_end; rwa [h.sampleCount] at this
  written := by
    intro j h1 h2
    by_cases hj : j < t.rdIdx.toNat
    · rw [h'.kept j (.inl hj)]; exact h.written j h1 hj
    · exact h'.written j (by omega) h2
  kept := by
    intro j hj
    have h1 := h.idx_le
    have h2 := h'.idx_le
    rw [h'.kept j (by omega), h.kept j (by omega)]
  wf := h'.wf ∘ h.wf
  below := fun n hn hb => h'.below n (by rw [h.sampleCount]; exact hn) (h.below n hn hb)
  fill := fun f => by rw [← h.sampleCount, h'.fill, h.sampleCount, h.fill]

/-- The range of a residual (R93). -/
theorem rdMap_range {u : Nat} (h : u ≤ 2 ^ 31) : -2 ^ 30 ≤ rdMap u ∧ rdMap u ≤ 2 ^ 30 := by
  unfold rdMap
  split <;> omega

theorem residualRange_ofInt {r : Int} (h1 : -2 ^ 30 ≤ r) (h2 : r ≤ 2 ^ 30) : ResidualRange (BitVec.ofInt 32 r) := by
  have : (BitVec.ofInt 32 r).toInt = r := by rw [BitVec.toInt_ofInt]; exact Int.bmod_eq_of_le (by omega) (by omega)
  exact ⟨by rw [this]; exact h1, by rw [this]; exact h2⟩

/-- The value of a residual code is below `2^31` (R91). -/
theorem value_lt {k w v : Nat} (hk : k ≤ 23) (hw : w ≤ 31) (hv : v ≤ max (2 ^ w - 1) (max (9 * 2 ^ k - 10) 8)) :
    v < 2 ^ 31 := by
  have h1 : 2 ^ w ≤ 2 ^ 31 := Nat.pow_le_pow_right (by omega) hw
  have h2 : 2 ^ k ≤ 2 ^ 23 := Nat.pow_le_pow_right (by omega) hk
  omega

/-- Steps 2 to 5 of RD.STEP, short of the index: E_TRUNCATED, E_HIST_OVF, or the state after the residual is stored. -/
inductive ResidualRead (s : State) : Except BlockFault State → Prop where
  | truncated : ResidualRead s (.error .truncated)
  | histOvf : ResidualRead s (.error .histOvf)
  | stored (v n : Nat) (h : Word) (hn : 1 ≤ n) (hn40 : s.sampleSize.toNat ≤ 31 → n ≤ 40)
      (hb : s.bitpos.toNat + n ≤ s.bitend.toNat) (hv : s.sampleSize.toNat ≤ 31 → v < 2 ^ 31)
      (hcode : rdCode (rdK s) s.sampleSize.toNat s = .ok (v, advance n s))
      (huse : useResidual v (advance n s)
        = .ok (setHistory h (setRes (clearSm (advance n s)) s.rdIdx.toNat (rdMap (v + s.signModifier.toNat))))) :
      ResidualRead s
        (.ok (setHistory h (setRes (clearSm (advance n s)) s.rdIdx.toNat (rdMap (v + s.signModifier.toNat)))))

/-- Steps 1 to 5 of RD.STEP. -/
def readResidual (s : State) : Except BlockFault State := do
  let (v, s) ← rdCode (rdK s) s.sampleSize.toNat s
  useResidual v s

theorem rdStep_eq (s : State) :
    rdStep s = (readResidual s).bind fun m => (rdZrun m).bind fun t => .ok (nextResidual t) := by
  unfold rdStep readResidual
  cases rdCode (rdK s) s.sampleSize.toNat s <;> rfl

theorem readResidual_cases (s : State) : ResidualRead s (readResidual s) := by
  rcases rdCode_cases (rdK s) s.sampleSize.toNat s with h | ⟨v, n, h, h1, h2, h3, h4, _⟩
  · have : readResidual s = .error .truncated := by simp [readResidual, h, bind, Except.bind]
    rw [this]; exact .truncated
  · have hr : readResidual s = useResidual v (advance n s) := by simp [readResidual, h, bind, Except.bind]
    have hk := rdK_le s
    rw [hr]
    rcases useResidual_cases v (advance n s) with h5 | ⟨x, h5⟩
    · rw [h5]; exact .histOvf
    · rw [h5]
      exact .stored v n x h1 (fun hw => by omega) h3 (fun hw => value_lt hk hw h4) h h5

/-- What follows a residual: nothing, E_LOG2_ZERO, E_TRUNCATED, E_ZERO_RUN, or zeros (R98). -/
inductive ZeroRunRead (m : State) : Except BlockFault State → Prop where
  | notDue (h : zeroRunDue m = false) : ZeroRunRead m (.ok m)
  | log2Zero (h : zeroRunDue m = true) (hz : m.history.toNat = 0) : ZeroRunRead m (.error .log2Zero)
  | truncated (h : zeroRunDue m = true) : ZeroRunRead m (.error .truncated)
  | tooLong (h : zeroRunDue m = true) : ZeroRunRead m (.error .zeroRun)
  | zeros (h : zeroRunDue m = true) (zk z n : Nat) (hzk : rdZk m = .ok zk) (hn : 1 ≤ n) (hn25 : n ≤ 25)
      (hb : m.bitpos.toNat + n ≤ m.bitend.toNat) (hz : z ≤ 0xFFFF)
      (hle : z ≤ m.sampleCount.toNat - (m.rdIdx.toNat + 1))
      (hcode : rdCode zk 16 m = .ok (z, advance n m)) : ZeroRunRead m (.ok (insertZeros z (advance n m)))

theorem rdZrun_cases (m : State) : ZeroRunRead m (rdZrun m) := by
  cases hd : zeroRunDue m with
  | false =>
    have : rdZrun m = .ok m := by simp [rdZrun, hd, pure, Except.pure]
    rw [this]; exact .notDue hd
  | true =>
    rcases rdZk_cases m with ⟨h0, h⟩ | ⟨h0, zk, h, h1, h2⟩
    · have : rdZrun m = .error .log2Zero := by simp [rdZrun, hd, h, bind, Except.bind]
      rw [this]; exact .log2Zero hd h0
    · have hzk : zk ≤ 8 := h2 (by simp [zeroRunDue] at hd; exact hd.1)
      have h8 : 2 ^ zk ≤ 2 ^ 8 := Nat.pow_le_pow_right (by omega) hzk
      rcases rdCode_cases zk 16 m with h3 | ⟨z, n, h3, h4, h5, h6, h7, _⟩
      · have : rdZrun m = .error .truncated := by simp [rdZrun, hd, h, Config.zrunWidth, h3, bind, Except.bind]
        rw [this]; exact .truncated hd
      · have hr : rdZrun m = useZeroRun z (advance n m) := by
          simp [rdZrun, hd, h, Config.zrunWidth, h3, bind, Except.bind]
        rw [hr]
        rcases useZeroRun_cases z (advance n m) with ⟨_, h9⟩ | ⟨h8', h9⟩
        · rw [h9]; exact .tooLong hd
        · rw [h9]
          exact .zeros hd zk z n h h4 (by omega) h6 (by omega) (by simpa using h8') h3

/-- The residual just stored, seen from the state before it: everything of `RdMoved` but the index. -/
theorem stored_moved {s : State} {v n : Nat} {h : Word} (hi : s.rdIdx.toNat < s.sampleCount.toNat)
    (hb : s.bitpos.toNat + n ≤ s.bitend.toNat) (hv : v < 2 ^ 31) :
    RdMoved s (nextResidual
      (setHistory h (setRes (clearSm (advance n s)) s.rdIdx.toNat (rdMap (v + s.signModifier.toNat))))) := by
  have hc := s.sampleCount.isLt
  have hm := Bool.toNat_lt s.signModifier
  have hr := rdMap_range (u := v + s.signModifier.toNat) (by omega)
  have hidx : (BitVec.ofNat 32 (s.rdIdx.toNat + 1)).toNat = s.rdIdx.toNat + 1 := by
    rw [BitVec.toNat_ofNat]; omega
  constructor
  · apply State.ext <;> simp
  · simp only [nextResidual_bitpos, setHistory_bitpos, setRes_bitpos, clearSm_bitpos, advance_toNat hb]; omega
  · simp only [nextResidual_bitpos, setHistory_bitpos, setRes_bitpos, clearSm_bitpos, advance_toNat hb]; omega
  · simp only [nextResidual_rdIdx, setHistory_rdIdx, setRes_rdIdx, clearSm_rdIdx, advance_rdIdx, hidx]; omega
  · simp only [nextResidual_rdIdx, setHistory_rdIdx, setRes_rdIdx, clearSm_rdIdx, advance_rdIdx, hidx]; omega
  · intro j h1 h2
    simp only [nextResidual_rdIdx, setHistory_rdIdx, setRes_rdIdx, clearSm_rdIdx, advance_rdIdx, hidx] at h2
    obtain rfl : j = s.rdIdx.toNat := by omega
    exact ⟨_, Memory.get?_set_same _ _ _, residualRange_ofInt hr.1 hr.2⟩
  · intro j hj
    simp only [nextResidual_rdIdx, setHistory_rdIdx, setRes_rdIdx, clearSm_rdIdx, advance_rdIdx, hidx] at hj
    exact Memory.get?_set_other _ _ (by omega)
  · exact Memory.wf_set _ _
  · intro m hm hb'; exact Memory.below_set hb' (by omega)
  · intro f; exact Memory.fill_set _ _ _ _ hi

/-- One RD.STEP moves the loop on by at least one residual and at most 65 bits. -/
theorem rdStep_moved {s t : State} (hi : s.rdIdx.toNat < s.sampleCount.toNat) (hs : s.sampleSize.toNat ≤ 31)
    (h : rdStep s = .ok t) :
    RdMoved s t ∧ s.rdIdx.toNat < t.rdIdx.toNat ∧ t.bitpos.toNat ≤ s.bitpos.toNat + 65 := by
  have hc := s.sampleCount.isLt
  rw [rdStep_eq] at h
  have hr := readResidual_cases s
  generalize readResidual s = r at hr h
  cases hr with
  | truncated => simp [Except.bind] at h
  | histOvf => simp [Except.bind] at h
  | stored v n x hn hn40 hb hv hcode huse =>
    simp only [Except.bind] at h
    have hm := stored_moved (h := x) hi hb (hv hs)
    have hadv := advance_toNat hb
    generalize hM : setHistory x (setRes (clearSm (advance n s)) s.rdIdx.toNat (rdMap (v + s.signModifier.toNat))) = m at h hm
    have hmi : m.rdIdx = s.rdIdx := by rw [← hM]; rfl
    have hmb : m.bitpos.toNat = s.bitpos.toNat + n := by rw [← hM]; exact hadv
    have hmc : m.sampleCount = s.sampleCount := by rw [← hM]; rfl
    have hme : m.bitend = s.bitend := by rw [← hM]; rfl
    have hi1 : (nextResidual m).rdIdx.toNat = s.rdIdx.toNat + 1 := by
      simp only [nextResidual_rdIdx, hmi, BitVec.toNat_ofNat]; omega
    have h40 := hn40 hs
    have hz := rdZrun_cases m
    generalize rdZrun m = z at hz h
    cases hz with
    | notDue => simp only [Except.ok.injEq] at h; subst h; exact ⟨hm, by omega, by simp only [nextResidual_bitpos]; omega⟩
    | log2Zero => simp at h
    | truncated => simp at h
    | tooLong => simp at h
    | zeros hd zk z n' hzk hn' hn25 hb' hz hle hcode' =>
      simp only [Except.ok.injEq] at h; subst h
      have hadv' := advance_toNat hb'
      have hlt : m.rdIdx.toNat + 1 < m.sampleCount.toNat := by simp [zeroRunDue] at hd; exact hd.2
      have hti : (nextResidual (insertZeros z (advance n' m))).rdIdx.toNat = s.rdIdx.toNat + 1 + z := by
        simp only [nextResidual_rdIdx, insertZeros_rdIdx, advance_rdIdx, hmi, BitVec.toNat_ofNat]
        rw [hmi, hmc] at hle
        omega
      refine ⟨hm.trans ?_, by omega, ?_⟩
      · constructor
        · apply State.ext <;> simp
        · simp only [nextResidual_bitpos, insertZeros_bitpos, hadv']; omega
        · simp only [nextResidual_bitpos, insertZeros_bitpos, hadv', nextResidual_bitend]; omega
        · omega
        · simp only [hti, nextResidual_sampleCount]; rw [hmi] at hle hlt; omega
        · intro j h1 h2
          refine ⟨0, ?_, by decide, by decide⟩
          simp only [nextResidual_res, insertZeros_res, advance_res, advance_rdIdx, get?_storeZeros]
          rw [if_pos]
          rw [hmi]; omega
        · intro j hj
          simp only [nextResidual_res, insertZeros_res, advance_res, advance_rdIdx, get?_storeZeros]
          rw [if_neg]
          rw [hmi]; omega
        · exact storeZeros_wf _ _ _
        · intro k hk hbel
          refine storeZeros_below _ _ _ hbel ?_
          simp only [nextResidual_sampleCount, advance_rdIdx] at hk ⊢
          omega
        · intro f
          refine fill_storeZeros _ _ _ _ _ ?_
          simp only [nextResidual_sampleCount, advance_rdIdx]
          omega
      · simp only [nextResidual_bitpos, insertZeros_bitpos, hadv']; omega

/-- The residual loop, run long enough, ends with every residual written. -/
theorem rdLoop_moved (n : Nat) : ∀ {s t : State}, s.rdIdx.toNat ≤ s.sampleCount.toNat →
    s.bitpos.toNat ≤ s.bitend.toNat → s.sampleSize.toNat ≤ 31 → s.sampleCount.toNat ≤ s.rdIdx.toNat + n →
    rdLoop n s = .ok t →
      RdMoved s t ∧ t.rdIdx = s.sampleCount
        ∧ t.bitpos.toNat ≤ s.bitpos.toNat + 65 * (s.sampleCount.toNat - s.rdIdx.toNat) := by
  induction n with
  | zero =>
    intro s t hi hb _ hn h
    simp only [rdLoop, pure, Except.pure, Except.ok.injEq] at h
    subst h
    exact ⟨.refl hb hi, BitVec.eq_of_toNat_eq (by omega), by omega⟩
  | succ n ih =>
    intro s t hi hb hs hn h
    rw [rdLoop] at h
    split at h
    · rename_i hlt
      cases h1 : rdStep s with
      | error e => simp [h1, bind, Except.bind] at h
      | ok m =>
        simp only [h1, bind, Except.bind] at h
        obtain ⟨hm, hm1, hm2⟩ := rdStep_moved hlt hs h1
        have hsc := hm.sampleCount
        have hie := hm.idx_end
        obtain ⟨g1, g2, g3⟩ := ih (by rw [hsc]; exact hie) (by rw [hm.bitend]; exact hm.bitpos_end)
          (by rw [hm.sampleSize]; exact hs) (by rw [hsc]; omega) h
        rw [hsc] at g2 g3
        exact ⟨hm.trans g1, g2, by omega⟩
    · simp only [pure, Except.pure, Except.ok.injEq] at h
      subst h
      exact ⟨.refl hb hi, BitVec.eq_of_toNat_eq (by omega), by omega⟩

/-- check_config_RD passed: every register it looks at is in range (R174). -/
theorem checkConfigRd_ok {s : State} (h : checkConfigRd s = .ok ()) :
    s.historyMult.toNat ≤ 255 ∧ s.maximumK.toNat ≤ 255 ∧ 1 ≤ s.sampleSize.toNat ∧ s.sampleSize.toNat ≤ 31
      ∧ s.sampleCount.toNat ≤ s.params.maxn ∧ s.bitend.toNat ≤ 8 * s.params.bsbytes
      ∧ s.bitpos.toNat ≤ s.bitend.toNat := by
  unfold checkConfigRd at h
  repeat' split at h
  all_goals first | (simp at h; done) | omega

theorem checkConfigRd_cases (s : State) : checkConfigRd s = .ok () ∨ checkConfigRd s = .error .config := by
  unfold checkConfigRd
  repeat' split
  all_goals simp

/-- The whole residual block (R100): every entry below SAMPLE_COUNT written. -/
theorem rdBlock_moved {s t : State} (hc : checkConfigRd s = .ok ()) (h : rdBlock s = .ok t) :
    RdMoved (startRd s) t ∧ t.rdIdx = s.sampleCount
      ∧ t.bitpos.toNat ≤ s.bitpos.toNat + 65 * s.sampleCount.toNat := by
  obtain ⟨_, _, _, h4, _, _, h7⟩ := checkConfigRd_ok hc
  have := rdLoop_moved s.sampleCount.toNat (s := startRd s) (by simp) (by simpa using h7) (by simpa using h4)
    (by simp) h
  simpa using this

/-- RD_RUN by its parts (R100). -/
theorem rdRunBody_eq (s : State) : rdRunBody s = (checkConfigRd s).bind fun _ => (rdBlock s).map finish := by
  unfold rdRunBody
  cases checkConfigRd s with
  | error e => rfl
  | ok u => cases rdBlock s <;> rfl

/-- How RD.STEP can fail; E_HIST_OVF not under the bound of R102, and the bound is kept. -/
theorem rdStep_error {s : State} {e : BlockFault} (h : rdStep s = .error e) :
    e = .truncated ∨ e = .histOvf ∨ e = .log2Zero ∨ e = .zeroRun := by
  rw [rdStep_eq] at h
  have hr := readResidual_cases s
  generalize readResidual s = r at hr h
  cases hr with
  | truncated => simp [Except.bind] at h; simp [← h]
  | histOvf => simp [Except.bind] at h; simp [← h]
  | stored v n x hn hn40 hb hv hcode huse =>
    simp only [Except.bind] at h
    have hz := rdZrun_cases (setHistory x (setRes (clearSm (advance n s)) s.rdIdx.toNat (rdMap (v + s.signModifier.toNat))))
    generalize rdZrun (setHistory x (setRes (clearSm (advance n s)) s.rdIdx.toNat (rdMap (v + s.signModifier.toNat)))) = z at hz h
    cases hz <;> simp at h <;> simp [← h]

theorem rdLoop_error (n : Nat) : ∀ {s : State} {e : BlockFault}, rdLoop n s = .error e →
    e = .truncated ∨ e = .histOvf ∨ e = .log2Zero ∨ e = .zeroRun := by
  induction n with
  | zero => intro s e h; simp [rdLoop, pure, Except.pure] at h
  | succ n ih =>
    intro s e h
    rw [rdLoop] at h
    split at h
    · cases h1 : rdStep s with
      | error e' => simp [h1, bind, Except.bind] at h; subst h; exact rdStep_error h1
      | ok m => simp only [h1, bind, Except.bind] at h; exact ih h
    · simp [pure, Except.pure] at h

/-- HISTORY under the bound of R102 through steps 2 to 5. -/
theorem residualDone_history_bound {s : State} {n v : Nat} (hm : s.historyMult.toNat ≤ 255)
    (hh : s.history.toNat ≤ historyBound) : (residualDone s n v).history.toNat ≤ historyBound := by
  simp only [residualDone]
  split
  · have := history_bound hm hh ‹_›
    rw [BitVec.toNat_ofNat]
    exact le_trans (Nat.mod_le _ _) this
  · decide

theorem readResidual_ok {s : State} (hm : s.historyMult.toNat ≤ 255) :
    readResidual s = .error .truncated
      ∨ ∃ v n, rdCode (rdK s) s.sampleSize.toNat s = .ok (v, advance n s) ∧ readResidual s = .ok (residualDone s n v) := by
  rcases rdCode_cases (rdK s) s.sampleSize.toNat s with h | ⟨v, n, h, _⟩
  · exact .inl (by simp [readResidual, h, bind, Except.bind])
  · exact .inr ⟨v, n, h, by simp [readResidual, h, bind, Except.bind, useResidual_ok hm]⟩

/-- RD.STEP with a legal HISTORY_MULT: no E_HIST_OVF, and the bound of R102 is kept. -/
theorem rdStep_bounded {s : State} (hm : s.historyMult.toNat ≤ 255) :
    rdStep s ≠ .error .histOvf
      ∧ (s.history.toNat ≤ historyBound → ∀ t, rdStep s = .ok t → t.history.toNat ≤ historyBound) := by
  rw [rdStep_eq]
  rcases readResidual_ok hm with h | ⟨v, n, _, h⟩
  · rw [h]; simp [Except.bind]
  · rw [h]
    simp only [Except.bind]
    have hb := residualDone_history_bound (s := s) (n := n) (v := v) hm
    generalize residualDone s n v = m at hb
    have hz := rdZrun_cases m
    generalize rdZrun m = z at hz
    cases hz <;> simp_all

theorem rdLoop_bounded (n : Nat) : ∀ {s : State}, s.historyMult.toNat ≤ 255 → s.sampleSize.toNat ≤ 31 →
    rdLoop n s ≠ .error .histOvf
      ∧ (s.history.toNat ≤ historyBound → ∀ t, rdLoop n s = .ok t → t.history.toNat ≤ historyBound) := by
  induction n with
  | zero => intro s _ _; simp [rdLoop, pure, Except.pure]
  | succ n ih =>
    intro s hm hs
    rw [rdLoop]
    split
    · rename_i hlt
      obtain ⟨h1, h2⟩ := rdStep_bounded hm
      cases h : rdStep s with
      | error e => simp only [bind, Except.bind]; exact ⟨by rw [h] at h1; simpa using h1, by simp⟩
      | ok m =>
        simp only [bind, Except.bind]
        have hmv := (rdStep_moved hlt hs h).1
        obtain ⟨h3, h4⟩ := ih (s := m) (by rw [hmv.historyMult]; exact hm) (by rw [hmv.sampleSize]; exact hs)
        exact ⟨h3, fun hh => h4 (h2 hh m h)⟩
    · simp [pure, Except.pure]

end Sys2Proof.Machine
end

