-- ==== Sys2Proof/Laws/Blind.lean ====
section
/-! SUPPORT. What the two parts of the engine do not look at: a change of other fields commutes with them. -/

namespace Sys2Proof.Machine

/-- A change of state the residual decoder does not see and does not disturb. -/
structure RdBlind (f : State → State) : Prop where
  bsmem : ∀ s, (f s).bsmem = s.bsmem
  bitpos : ∀ s, (f s).bitpos = s.bitpos
  bitend : ∀ s, (f s).bitend = s.bitend
  params : ∀ s, (f s).params = s.params
  history : ∀ s, (f s).history = s.history
  historyMult : ∀ s, (f s).historyMult = s.historyMult
  maximumK : ∀ s, (f s).maximumK = s.maximumK
  sampleSize : ∀ s, (f s).sampleSize = s.sampleSize
  sampleCount : ∀ s, (f s).sampleCount = s.sampleCount
  signModifier : ∀ s, (f s).signModifier = s.signModifier
  rdIdx : ∀ s, (f s).rdIdx = s.rdIdx
  advance : ∀ n s, advance n (f s) = f (advance n s)
  clearSm : ∀ s, clearSm (f s) = f (clearSm s)
  setRes : ∀ s i r, setRes (f s) i r = f (setRes s i r)
  setHistory : ∀ h s, setHistory h (f s) = f (setHistory h s)
  insertZeros : ∀ z s, insertZeros z (f s) = f (insertZeros z s)
  nextResidual : ∀ s, nextResidual (f s) = f (nextResidual s)

variable {f : State → State}

theorem RdBlind.rdCode (h : RdBlind f) (k w : Nat) (s : State) :
    rdCode k w (f s) = (rdCode k w s).map fun r => (r.1, f r.2) := by
  rcases rdCode_congr k w (h.bsmem s) (h.bitpos s) (h.bitend s) (h.params s) with ⟨h1, h2⟩ | ⟨v, n, h1, h2⟩
  · rw [h1, h2]; rfl
  · rw [h1, h2, h.advance]; rfl

theorem RdBlind.rdHist (h : RdBlind f) (u : Nat) (s : State) : rdHist u (f s) = (rdHist u s).map f := by
  unfold Machine.rdHist
  rw [h.history, h.historyMult, h.setHistory]
  dsimp only
  split
  · split
    · rfl
    · rw [h.setHistory]; rfl
  · rfl

theorem RdBlind.useResidual (h : RdBlind f) (v : Nat) (s : State) :
    useResidual v (f s) = (useResidual v s).map f := by
  unfold Machine.useResidual rdSm
  simp only [h.signModifier, rdStore_eq, h.clearSm, h.rdIdx, h.setRes, h.rdHist]

theorem RdBlind.readResidual (h : RdBlind f) (s : State) : readResidual (f s) = (readResidual s).map f := by
  have hk : rdK (f s) = rdK s := by simp only [rdK, h.history, h.maximumK]
  unfold Machine.readResidual
  rw [hk, h.sampleSize, h.rdCode]
  cases Machine.rdCode (rdK s) s.sampleSize.toNat s with
  | error e => rfl
  | ok r => exact h.useResidual r.1 r.2

theorem RdBlind.zeroRunDue (h : RdBlind f) (s : State) : zeroRunDue (f s) = zeroRunDue s := by
  simp only [Machine.zeroRunDue, h.history, h.rdIdx, h.sampleCount]

theorem RdBlind.rdZk (h : RdBlind f) (s : State) : rdZk (f s) = rdZk s := by
  simp only [Machine.rdZk, h.history, h.maximumK]

theorem RdBlind.useZeroRun (h : RdBlind f) (z : Nat) (s : State) : useZeroRun z (f s) = (useZeroRun z s).map f := by
  unfold Machine.useZeroRun
  rw [h.rdIdx, h.sampleCount, h.insertZeros]
  split <;> rfl

theorem RdBlind.rdZrun (h : RdBlind f) (s : State) : rdZrun (f s) = (rdZrun s).map f := by
  unfold Machine.rdZrun
  rw [h.zeroRunDue, h.rdZk]
  split
  · cases Machine.rdZk s with
    | error e => rfl
    | ok zk =>
      simp only [bind, Except.bind]
      rw [h.rdCode]
      cases Machine.rdCode zk Config.zrunWidth s with
      | error e => rfl
      | ok r => exact h.useZeroRun r.1 r.2
  · rfl

theorem RdBlind.rdStep (h : RdBlind f) (s : State) : rdStep (f s) = (rdStep s).map f := by
  rw [rdStep_eq, rdStep_eq, h.readResidual]
  cases Machine.readResidual s with
  | error e => rfl
  | ok m =>
    simp only [Except.map, Except.bind]
    rw [h.rdZrun]
    cases Machine.rdZrun m with
    | error e => rfl
    | ok t => simp only [Except.map]; rw [h.nextResidual]

theorem RdBlind.rdLoop (h : RdBlind f) (n : Nat) : ∀ s, rdLoop n (f s) = (rdLoop n s).map f := by
  induction n with
  | zero => intro s; rfl
  | succ n ih =>
    intro s
    rw [Machine.rdLoop, Machine.rdLoop, h.rdIdx, h.sampleCount]
    split
    · rw [h.rdStep]
      cases Machine.rdStep s with
      | error e => rfl
      | ok t => exact ih t
    · rfl

theorem RdBlind.checkConfigRd (h : RdBlind f) (s : State) : checkConfigRd (f s) = checkConfigRd s := by
  simp only [Machine.checkConfigRd, h.historyMult, h.maximumK, h.sampleSize, h.sampleCount, h.params, h.bitend, h.bitpos]

/-- A change of state the predictor does not see and does not disturb, RES apart. -/
structure PrBlind (f : State → State) : Prop where
  order : ∀ s, (f s).order = s.order
  qlpShift : ∀ s, (f s).qlpShift = s.qlpShift
  prIdx : ∀ s, (f s).prIdx = s.prIdx
  sampleCount : ∀ s, (f s).sampleCount = s.sampleCount
  coef : ∀ s, (f s).coef = s.coef
  smp : ∀ s, (f s).smp = s.smp
  setSmp : ∀ s i x, setSmp (f s) i x = f (setSmp s i x)
  setCoef : ∀ s i c, setCoef (f s) i c = f (setCoef s i c)
  nextSample : ∀ s, nextSample (f s) = f (nextSample s)

theorem PrBlind.smpAt (h : PrBlind f) (s : State) (i : Nat) : smpAt (f s) i = smpAt s i := by
  simp only [Machine.smpAt, smpWord, h.smp]

theorem PrBlind.coefAt (h : PrBlind f) (s : State) (i : Nat) : coefAt (f s) i = coefAt s i := coefAt_congr (h.coef s) i

theorem PrBlind.storeSample (h : PrBlind f) (t : Nat) (x : Int) (s : State) :
    storeSample t x (f s) = (storeSample t x s).map f := by
  unfold Machine.storeSample
  rw [h.setSmp]
  split <;> rfl

theorem PrBlind.storeCoef (h : PrBlind f) (i : Nat) (c : Int) (s : State) :
    storeCoef i c (f s) = (storeCoef i c s).map f := by
  unfold Machine.storeCoef
  rw [h.setCoef]
  split <;> rfl

theorem PrBlind.lpcSum (h : PrBlind f) (s : State) (t : Nat) (base : Int) (n : Nat) :
    lpcSum (f s) t base n = lpcSum s t base n := by
  induction n with
  | zero => rfl
  | succ n ih => rw [Machine.lpcSum, Machine.lpcSum, ih, h.coefAt, h.smpAt]

theorem PrBlind.prPred (h : PrBlind f) (t : Nat) (s : State) : prPred t (f s) = prPred t s := by
  simp only [Machine.prPred, h.order, h.qlpShift, h.smpAt, h.lpcSum]

theorem PrBlind.adaptPos (h : PrBlind f) (t : Nat) (base : Int) (n : Nat) : ∀ rem s,
    adaptPos t base n rem (f s) = (adaptPos t base n rem s).map f := by
  induction n with
  | zero => intro rem s; rfl
  | succ n ih =>
    intro rem s
    rw [Machine.adaptPos, Machine.adaptPos]
    dsimp only
    rw [h.coefAt, h.smpAt, h.storeCoef]
    cases Machine.storeCoef n (Machine.coefAt s n - sgn (base - Machine.smpAt s (t - 1 - n))) s with
    | error e => rfl
    | ok u =>
      simp only [bind, Except.bind, Except.map, h.qlpShift, h.order]
      split
      · rfl
      · exact ih _ u

theorem PrBlind.adaptNeg (h : PrBlind f) (t : Nat) (base : Int) (n : Nat) : ∀ rem s,
    adaptNeg t base n rem (f s) = (adaptNeg t base n rem s).map f := by
  induction n with
  | zero => intro rem s; rfl
  | succ n ih =>
    intro rem s
    rw [Machine.adaptNeg, Machine.adaptNeg]
    split
    · dsimp only
      rw [h.coefAt, h.smpAt, h.storeCoef]
      cases Machine.storeCoef n (Machine.coefAt s n + sgn (base - Machine.smpAt s (t - 1 - n))) s with
      | error e => rfl
      | ok u =>
        simp only [bind, Except.bind, Except.map, h.qlpShift, h.order]
        exact ih _ u
    · rfl

theorem PrBlind.prAdapt (h : PrBlind f) {t : Nat} (base : Int) {s : State} (hr : resAt (f s) t = resAt s t) :
    prAdapt t base (f s) = (prAdapt t base s).map f := by
  unfold Machine.prAdapt
  simp only [hr, h.order]
  split
  · exact h.adaptPos ..
  · split
    · exact h.adaptNeg ..
    · rfl

/-- One PR.STEP sees the residual at PR_IDX only (R119). -/
theorem PrBlind.prStep (h : PrBlind f) {s : State} (hr : resAt (f s) s.prIdx.toNat = resAt s s.prIdx.toNat)
    (hr' : ∀ x, resAt (f (Machine.setSmp s s.prIdx.toNat x)) s.prIdx.toNat = resAt s s.prIdx.toNat) :
    prStep (f s) = (prStep s).map f := by
  unfold Machine.prStep
  dsimp only
  rw [h.prIdx, h.order]
  split
  · unfold prWarm
    have hx : (if s.prIdx.toNat = 0 then resAt (f s) 0 else Machine.smpAt (f s) (s.prIdx.toNat - 1) + resAt (f s) s.prIdx.toNat)
        = if s.prIdx.toNat = 0 then resAt s 0 else Machine.smpAt s (s.prIdx.toNat - 1) + resAt s s.prIdx.toNat := by
      split
      · rename_i h0; rw [h0] at hr; exact hr
      · rw [hr, h.smpAt]
    rw [hx, h.storeSample]
    cases Machine.storeSample s.prIdx.toNat (if s.prIdx.toNat = 0 then resAt s 0
      else Machine.smpAt s (s.prIdx.toNat - 1) + resAt s s.prIdx.toNat) s with
    | error e => rfl
    | ok t => exact congrArg Except.ok (h.nextSample t)
  · unfold prSteady
    rw [h.prPred]
    cases Machine.prPred s.prIdx.toNat s with
    | error e => rfl
    | ok p =>
      simp only [bind, Except.bind]
      unfold prNew
      rw [hr, h.storeSample]
      rcases storeSample_cases s.prIdx.toNat (p.2 + resAt s s.prIdx.toNat + p.1) s with ⟨_, h1⟩ | ⟨_, h1⟩
      · rw [h1]
        simp only [Except.map]
        rw [h.prAdapt p.1 (by rw [hr', resAt_setSmp])]
        cases Machine.prAdapt s.prIdx.toNat p.1 (Machine.setSmp s s.prIdx.toNat (p.2 + resAt s s.prIdx.toNat + p.1)) with
        | error e => rfl
        | ok t => exact congrArg Except.ok (h.nextSample t)
      · rw [h1]; rfl

theorem PrBlind.prLoop (h : PrBlind f) (hres : ∀ s, (f s).res = s.res) (n : Nat) : ∀ s,
    prLoop n (f s) = (prLoop n s).map f := by
  have hr : ∀ s j, resAt (f s) j = resAt s j := fun s j => by simp only [resAt, resWord, hres]
  induction n with
  | zero => intro s; rfl
  | succ n ih =>
    intro s
    rw [Machine.prLoop, Machine.prLoop, h.prIdx, h.sampleCount]
    split
    · rw [h.prStep (hr _ _) (fun x => hr _ _)]
      cases Machine.prStep s with
      | error e => rfl
      | ok t => exact ih t
    · rfl

/-- The engine's place in the command is seen by neither part. -/
theorem rdBlind_standAt (e : Engine) : RdBlind (standAt e) := by constructor <;> intros <;> rfl
theorem prBlind_standAt (e : Engine) : PrBlind (standAt e) := by constructor <;> intros <;> rfl

end Sys2Proof.Machine
end

