-- ==== Sys2Proof/Laws/Fault.lean ====
section
/-! SUPPORT. Fault entry (R176): what it hides. A mid-command fault leaves the same state wherever inside its command it
is raised, because what the command has changed is exactly what the fault leaves unspecified. -/

namespace Sys2Proof.Machine

theorem freeCoefs_congr {s t : State} (hd : t.draws = s.draws) (ho : t.order = s.order)
    (hc : ∀ j, s.order.toNat ≤ j → coefWord t j = coefWord s j) : freeCoefs t = freeCoefs s := by
  apply Vector.ext
  intro j hj
  simp only [freeCoefs, Vector.getElem_ofFn, hd, ho]
  split
  · rfl
  · rename_i h
    have := hc j (by simpa using h)
    simpa [coefWord, hj] using this

/-- Two states between which only hidden places differ are entered by a fault alike. -/
theorem enterFault_congr {run : Run} {e : BlockFault} {s t : State} (hmid : midCommand e = true)
    (frame : t = { s with
      bitpos := t.bitpos, history := t.history, signModifier := t.signModifier, rdIdx := t.rdIdx, prIdx := t.prIdx,
      coef := t.coef, res := t.res, smp := t.smp, engine := t.engine })
    (hc : ∀ j, s.order.toNat ≤ j → coefWord t j = coefWord s j)
    (hres : if usesRes run then ∀ f, t.res.fill s.sampleCount.toNat f = s.res.fill s.sampleCount.toNat f
      else t.res = s.res)
    (hsmp : if usesSmp run then ∀ f, t.smp.fill s.sampleCount.toNat f = s.smp.fill s.sampleCount.toNat f
      else t.smp = s.smp) :
    enterFault run e t = enterFault run e s := by
  have hd : t.draws = s.draws := by rw [frame]
  have ho : t.order = s.order := by rw [frame]
  have hn : t.sampleCount = s.sampleCount := by rw [frame]
  have hco := freeCoefs_congr hd ho hc
  have hr : (unspecify run t).res = (unspecify run s).res := by
    simp only [unspecify, hd, hn]
    cases run <;> simp only [usesRes, if_true, Bool.false_eq_true, if_false] at hres ⊢
    · exact hres _
    · exact hres
    · exact hres _
  have hs : (unspecify run t).smp = (unspecify run s).smp := by
    simp only [unspecify, hd, hn]
    cases run <;> simp only [usesSmp, if_true, Bool.false_eq_true, if_false] at hsmp ⊢
    · exact hsmp
    · exact hsmp _
    · exact hsmp _
  unfold enterFault
  rw [hmid]
  simp only [if_true]
  apply State.ext <;> simp [-unspecify_res, -unspecify_smp, hr, hs, hd, hco] <;> rw [frame]

theorem enterFault_startRd (run : Run) {e : BlockFault} (hmid : midCommand e = true) (s : State) (g : Engine) :
    enterFault run e (standAt g (startRd s)) = enterFault run e s := by
  apply enterFault_congr (s := s) (t := standAt g (startRd s)) hmid rfl (fun _ _ => rfl)
  · split
    · intro f; rfl
    · rfl
  · split
    · intro f; rfl
    · rfl

theorem enterFault_rdMoved (sf : Bool) {e : BlockFault} {s t : State} (hmid : midCommand e = true) (h : RdMoved s t) :
    enterFault (rdRunOf sf) e t = enterFault (rdRunOf sf) e s := by
  have hf := h.frame
  have hsmp : t.smp = s.smp := by rw [hf]
  apply enterFault_congr hmid
  · have h1 : t.prIdx = s.prIdx := by rw [hf]
    have h2 : t.coef = s.coef := by rw [hf]
    have h3 : t.engine = s.engine := by rw [hf]
    rw [h1, h2, h3, hsmp]; exact hf
  · intro j _; have : t.coef = s.coef := by rw [hf]
    simp only [coefWord, this]
  · rw [if_pos (by cases sf <;> rfl)]; exact h.fill
  · split
    · intro f; rw [hsmp]
    · exact hsmp

theorem enterFault_prMoved (run : Run) (hrun : usesSmp run = true) {e : BlockFault} {s t : State}
    (hmid : midCommand e = true) (h : PrMoved s t) (hi : t.prIdx.toNat ≤ s.sampleCount.toNat) :
    enterFault run e t = enterFault run e s := by
  have hf := h.frame
  have hres : t.res = s.res := by rw [hf]
  apply enterFault_congr hmid
  · have h1 : t.bitpos = s.bitpos := by rw [hf]
    have h2 : t.history = s.history := by rw [hf]
    have h3 : t.engine = s.engine := by rw [hf]
    have h4 : t.signModifier = s.signModifier := by rw [hf]
    have h5 : t.rdIdx = s.rdIdx := by rw [hf]
    rw [h1, h2, h3, h4, h5, hres]; exact hf
  · exact h.coef_kept
  · split
    · intro f; rw [hres]
    · exact hres
  · rw [if_pos hrun]; exact fun f => h.fill _ f hi

theorem enterFault_startPr (run : Run) {e : BlockFault} (hmid : midCommand e = true) (s : State) (g : Engine) :
    enterFault run e (standAt g (startPr s)) = enterFault run e s := by
  apply enterFault_congr (s := s) (t := standAt g (startPr s)) hmid rfl (fun _ _ => rfl)
  · split
    · intro f; rfl
    · rfl
  · split
    · intro f; rfl
    · rfl

theorem enterFault_advance (run : Run) {e : BlockFault} (hmid : midCommand e = true) (n : Nat) (s : State) :
    enterFault run e (advance n s) = enterFault run e s := by
  apply enterFault_congr (s := s) (t := advance n s) hmid rfl (fun _ _ => rfl)
  · split
    · intro f; rfl
    · rfl
  · split
    · intro f; rfl
    · rfl

end Sys2Proof.Machine
end

