-- ==== Sys2Proof/Laws/Step.lean ====
section
/-! SUPPORT. One step at each point the engine can stand, in terms of the parts of RD.STEP and PR.STEP. -/

namespace Sys2Proof.Machine

@[simp] theorem perform_run (i : Instr) (t : State) : perform (.run i t) = exec i t := rfl
@[simp] theorem perform_done (t : State) : perform (.done t) = .next t := rfl

/-- A codeword step before a residual: steps 1 to 5 of RD.STEP and where RD goes on (R99). -/
theorem step_residual {sf : Bool} {s : State} (he : s.engine = .residual sf)
    (hi : s.rdIdx.toNat < s.sampleCount.toNat) :
    step s = .next (match readResidual s with
      | .error e => enterFault (rdRunOf sf) e s
      | .ok m => if zeroRunDue m then standAt (.zeroRun sf) m else afterResidual sf m) := by
  rcases rdCode_agrees (rdK s) s.sampleSize.toNat s with ⟨e, h1, h2⟩ | ⟨i, c, rest, h1, h2, h3, h4, h5⟩
  · simp [step, nextEvent, he, hi, fetchCodeword, h1, readResidual, h2, bind, Except.bind]
  · have hs : step s = exec i s := by simp [step, nextEvent, he, hi, fetchCodeword, h1]
    rw [hs, exec_codeword h2, codeword_residual he hi (readUnder_of_fits h3) h4]
    have hr : readResidual s = useResidual (codewordValue c) (advance (codewordLength s.params.giveBackOnZero c) s) := by
      simp [readResidual, h5, bind, Except.bind]
    rw [hr, afterResidualCode]
    rcases useResidual_cases (codewordValue c) (advance (codewordLength s.params.giveBackOnZero c) s) with h | ⟨x, h⟩
    · rw [h]; exact congrArg _ (enterFault_advance _ rfl _ _)
    · rw [h]

/-- A codeword step before a zero-run code (R98). -/
theorem step_zeroRun {sf : Bool} {s : State} (he : s.engine = .zeroRun sf) (hd : zeroRunDue s = true) :
    step s = .next (match rdZrun s with
      | .error e => enterFault (rdRunOf sf) e s
      | .ok m => afterResidual sf m) := by
  rcases rdZk_cases s with ⟨_, hz⟩ | ⟨_, zk, hz, _⟩
  · simp [step, nextEvent, he, hz, rdZrun, hd, bind, Except.bind]
  · rcases rdCode_agrees zk Config.zrunWidth s with ⟨e, h1, h2⟩ | ⟨i, c, rest, h1, h2, h3, h4, h5⟩
    · simp [step, nextEvent, he, hz, fetchCodeword, h1, rdZrun, hd, h2, bind, Except.bind]
    · have hs : step s = exec i s := by simp [step, nextEvent, he, hz, fetchCodeword, h1]
      rw [hs, exec_codeword h2, codeword_zeroRun he hz (readUnder_of_fits h3) h4]
      have hr : rdZrun s = useZeroRun (codewordValue c) (advance (codewordLength s.params.giveBackOnZero c) s) := by
        simp [rdZrun, hd, hz, h5, bind, Except.bind]
      rw [hr, afterZeroRunCode]
      rcases useZeroRun_cases (codewordValue c) (advance (codewordLength s.params.giveBackOnZero c) s) with ⟨_, h⟩ | ⟨_, h⟩
      · rw [h]; exact congrArg _ (enterFault_advance _ rfl _ _)
      · rw [h]

theorem step_predict {sf : Bool} {s : State} (he : s.engine = .predict sf) : step s = .next (sampleStep sf s) := by
  simp [step, nextEvent, he]

theorem step_idle {s : State} (he : s.engine = .idle) (hh : s.host = []) : step s = .next s := by
  simp [step, nextEvent, he, hh]

/-- A step between commands serves the host's next access (R8). -/
theorem step_serve {s : State} {a : HostAccess} {rest : List HostAccess} (he : s.engine = .idle)
    (hh : s.host = a :: rest) : step s = perform (serve a (popHost rest s)) := by
  simp only [step, nextEvent, he, hh]

/-- A write to CMD is a command (R134). -/
theorem step_command {s : State} {w : Word} {rest : List HostAccess} (he : s.engine = .idle)
    (hh : s.host = .wr 0 w :: rest) : step s = exec (decodeCommand w) (afterWrite s rest) := by
  rw [step_serve he hh]; rfl

theorem step_write {s : State} {off : Nat} {w : Word} {rest : List HostAccess} (he : s.engine = .idle)
    (hh : s.host = .wr off w :: rest) (ho : off ≠ 0) : step s = .next (hostWr off w (afterWrite s rest)) := by
  rw [step_serve he hh]; simp [serve, ho, afterWrite]

theorem step_read {s : State} {off : Nat} {rest : List HostAccess} (he : s.engine = .idle)
    (hh : s.host = .rd off :: rest) :
    step s = .next (answer (hostRd off (popHost rest s)) (popHost rest s)) := by
  rw [step_serve he hh]; rfl

@[simp] theorem runSteps_zero (s : State) : runSteps 0 s = .next s := rfl

theorem runSteps_succ {s t : State} (h : step s = .next t) (n : Nat) : runSteps (n + 1) s = runSteps n t := by
  have h' : Sys2Proof.core.step s = .next t := h
  simp only [runSteps, Host.Core.run, h']
  rfl

theorem runSteps_add (a : Nat) : ∀ {b : Nat} {s t : State}, runSteps a s = .next t →
    runSteps (a + b) s = runSteps b t := by
  induction a with
  | zero => intro b s t h; cases h; rw [Nat.zero_add]
  | succ a ih =>
    intro b s t h
    rw [show a + 1 + b = (a + b) + 1 by omega]
    cases hs : step s with
    | next u => rw [runSteps_succ hs] at h ⊢; exact ih h
    | fault r => exact nomatch r
    | refused r =>
      have h' : Sys2Proof.core.step s = .refused r := hs
      simp only [runSteps, Host.Core.run, h'] at h
      cases h

end Sys2Proof.Machine
end

