-- ==== Sys2Proof/Machine/Driver.lean ====
section
/-! DEFINITION. What the host does around the block, its own part (44_host_context.md, R145 to R164, and the script notation
of R71 and R72). None of this is an operation of the block (log 10): the definitions here make lists of host accesses and
compute on bit lists and samples; Session.lean drives the block with them. -/

namespace Sys2Proof.Machine

/-! ### Host script notation (R71, R72) -/

/-- `wr NAME, v`: negative numbers are stored as 32-bit two's complement (R71). Neither R3 nor R71 says what the notation does
with a number that has no 32-bit word, below `-2 ^ 31` or from `2 ^ 32` on: that its word mod `2 ^ 32` is written is a DESIGN
CHOICE (log 14). -/
def wrAccess (r : Reg) (v : Int) : HostAccess := .wr (offsetOf r) (BitVec.ofInt 32 v)

/-- `rd NAME` (R71). -/
def rdAccess (r : Reg) : HostAccess := .rd (offsetOf r)

/-- `wait`: one read of STATUS at transaction level (R71, R200). -/
def waitAccess : HostAccess := rdAccess .status

/-- `run MNEMONIC` for a command code (R72). -/
def runScript (code : Int) : List HostAccess := [wrAccess .cmd code, waitAccess]

/-- The bytes of a bit string padded with zeros, first bit most significant (R72). -/
def packBytes : Nat → List Bool → List Byte
  | 0, _ => []
  | n + 1, bits =>
    BitVec.ofNat 8 ((bits.take 8 ++ List.replicate (8 - bits.length) false).foldl (fun v b => 2 * v + b.toNat) 0)
      :: packBytes n (bits.drop 8)

/-- The stream into BSMEM from byte 0 on, and BITEND the number of its bits (R45, R72). -/
def loadScript (bits : List Bool) : List HostAccess :=
  (packBytes ((bits.length + 7) / 8) bits).mapIdx (fun a b => HostAccess.wbs a b) ++ [wrAccess .bitend bits.length]

/-- `bits "..."` (R72). -/
def bitsScript (bits : List Bool) : List HostAccess := loadScript bits ++ [wrAccess .bitpos 0]

/-- `params hm, ih, mk` (R72). -/
def paramsScript (hm ih mk : Int) : List HostAccess :=
  [wrAccess .historyMult hm, wrAccess .initialHistory ih, wrAccess .maximumK mk]

/-- `block size, count` (R72). -/
def blockScript (size count : Int) : List HostAccess := [wrAccess .sampleSize size, wrAccess .sampleCount count]

/-- `header shift, [c0, c1, ...]` (R72). -/
def headerScript (shift : Int) (coefs : List Int) : List HostAccess :=
  [wrAccess .predType 0, wrAccess .qlpShift shift, wrAccess .riceModifier 0, wrAccess .order coefs.length]
    ++ coefs.mapIdx (fun j c => wrAccess (.coef j) c)

/-- `residuals [r0, r1, ...]` (R72). A number without a 32-bit word is reduced as in `wrAccess` (log 14). -/
def residualsScript (rs : List Int) : List HostAccess := rs.mapIdx (fun j r => HostAccess.wres j (BitVec.ofInt 32 r))

/-! ### The host's own reader -/

/-- `hread(n)`: an unsigned field off the host's bits (44_host_context.md, R40). -/
def hread (n : Nat) (bits : List Bool) : Option (Nat × List Bool) := takeField n 0 bits

/-- The two's-complement value of an `n`-bit field (R7). -/
def signedField (n v : Nat) : Int := if 2 * v < 2 ^ n then (v : Int) else (v : Int) - 2 ^ n

/-- `hread_signed(n)`. -/
def hreadSigned (n : Nat) (bits : List Bool) : Option (Int × List Bool) := do
  let (v, bits) ← hread n bits
  pure (signedField n v, bits)

/-- `count` items read one after the other. -/
def hreadMany {α : Type} (item : List Bool → Option (α × List Bool)) : Nat → List Bool → Option (List α × List Bool)
  | 0, bits => some ([], bits)
  | n + 1, bits => do
    let (x, bits) ← item bits
    let (xs, bits) ← hreadMany item n bits
    pure (x :: xs, bits)

/-! ### Stream parameters (R146 to R148) -/

/-- The fields of the configuration record that are not pads (R146). -/
structure ConfigRecord where
  samplesPerFrame : Nat
  bitsPerSample : Nat
  historyMultiplier : Nat
  initialHistory : Nat
  maximumK : Nat
  channelCount : Nat
  sampleRate : Nat
  deriving DecidableEq, Repr

/-- The record of R146, 24 bytes, every multi-byte field most significant byte first, the pads skipped and not checked. -/
def readConfigRecord (bits : List Bool) : Option (ConfigRecord × List Bool) := do
  let (samplesPerFrame, bits) ← hread 32 bits
  let (_, bits) ← hread 8 bits
  let (bitsPerSample, bits) ← hread 8 bits
  let (historyMultiplier, bits) ← hread 8 bits
  let (initialHistory, bits) ← hread 8 bits
  let (maximumK, bits) ← hread 8 bits
  let (channelCount, bits) ← hread 8 bits
  let (_, bits) ← hread 16 bits
  let (_, bits) ← hread 32 bits
  let (_, bits) ← hread 32 bits
  let (sampleRate, bits) ← hread 32 bits
  pure (⟨samplesPerFrame, bitsPerSample, historyMultiplier, initialHistory, maximumK, channelCount, sampleRate⟩, bits)

/-- Both copies of the record must carry the codec's 4-byte tag (R147). The tag's spelling is a parameter of the host (N12). -/
def tagsAgree (codec high low : List Byte) : Bool := high == codec && low == codec

/-- Loading the block from the parameter set, once per stream (R148). -/
def streamScript (c : ConfigRecord) : List HostAccess :=
  paramsScript c.historyMultiplier c.initialHistory c.maximumK

/-! ### Frames (R150 to R156) -/

/-- The 3-bit field that leads a frame: 7 ends the frameset, `c` in 0 to 6 leads a frame of `c + 1` channels (R150). -/
def frameChannels (c : Nat) : Option Nat := if c = 7 then none else some (c + 1)

/-- The frame header (R151); `lsbWidth` in bytes. -/
structure FrameHeader where
  lsbWidth : Nat
  uncompressed : Bool
  sampleCount : Nat
  deriving DecidableEq, Repr

/-- The header directly after the 3-bit field; the 16 reserved bits are skipped (R151, C7). R151 leaves open whether
`lsb_width = 3` is legal: that it is accepted like any other width is a DESIGN CHOICE (log 14). -/
def readFrameHeader (samplesPerFrame : Nat) (bits : List Bool) : Option (FrameHeader × List Bool) := do
  let (_, bits) ← hread 16 bits
  let (hasCount, bits) ← hread 1 bits
  let (lsbWidth, bits) ← hread 2 bits
  let (uncompressed, bits) ← hread 1 bits
  let (sampleCount, bits) ← if hasCount = 1 then hread 32 bits else some (samplesPerFrame, bits)
  pure (⟨lsbWidth, uncompressed == 1, sampleCount⟩, bits)

/-- The uncompressed path: for each sample, one signed field for each channel (R152). -/
def readUncompressed (bitsPerSample channels count : Nat) (bits : List Bool) : Option (List (List Int) × List Bool) :=
  hreadMany (hreadMany (hreadSigned bitsPerSample) channels) count bits

/-- Channel `c` of a sample-major list (R152, R154). -/
def channelOf {α : Type} (default : α) (rows : List (List α)) (c : Nat) : List α := rows.map (fun r => r.getD c default)

/-- A sub-frame header; the order is the number of coefficients (R153). -/
structure SubframeHeader where
  predictionType : Nat
  qlpShift : Nat
  riceModifier : Nat
  coefs : List Int
  deriving DecidableEq, Repr

/-- One sub-frame header; the count field is 5 bits wide (R153, G4). -/
def readSubframeHeader (bits : List Bool) : Option (SubframeHeader × List Bool) := do
  let (predictionType, bits) ← hread 4 bits
  let (qlpShift, bits) ← hread 4 bits
  let (riceModifier, bits) ← hread 3 bits
  let (order, bits) ← hread 5 bits
  let (coefs, bits) ← hreadMany (hreadSigned 16) order bits
  pure (⟨predictionType, qlpShift, riceModifier, coefs⟩, bits)

/-- What leads the residual blocks of a compressed frame: interlacing shift and leftweight, always read (R153, N13), one
header for each channel, and the low-order bits (R154). -/
structure CompressedLead where
  shift : Nat
  leftweight : Nat
  headers : List SubframeHeader
  lsbs : List (List Nat)
  deriving DecidableEq, Repr

def readCompressedLead (channels lsbWidth count : Nat) (bits : List Bool) : Option (CompressedLead × List Bool) := do
  let (shift, bits) ← hread 8 bits
  let (leftweight, bits) ← hread 8 bits
  let (headers, bits) ← hreadMany readSubframeHeader channels bits
  let (lsbs, bits) ←
    if 0 < lsbWidth then hreadMany (hreadMany (hread (lsbWidth * 8)) channels) count bits else some ([], bits)
  pure (⟨shift, leftweight, headers, lsbs⟩, bits)

/-- The sample size of a frame (R155). -/
def frameSampleSize (bitsPerSample lsbWidth channels : Nat) : Int :=
  (bitsPerSample : Int) - lsbWidth * 8 + channels - 1

/-- What is written once for a frame (R156). -/
def frameScript (cursor : Nat) (size : Int) (count : Nat) : List HostAccess :=
  wrAccess .bitpos cursor :: blockScript size count

/-- The registers of one channel, its coefficients loaded afresh (R156, R203). -/
def subframeScript (h : SubframeHeader) : List HostAccess :=
  [wrAccess .predType h.predictionType, wrAccess .qlpShift h.qlpShift, wrAccess .riceModifier h.riceModifier,
    wrAccess .order h.coefs.length]
    ++ h.coefs.mapIdx (fun j c => wrAccess (.coef j) c)

/-! ### After the block (R157 to R161) -/

/-- Stereo decorrelation of one pair of samples: (left, right) (R157). -/
def decorrelatePair (shift leftweight : Nat) (ch1 ch2 : Int) : Int × Int :=
  let right := ch1 - asr (ch2 * leftweight) shift
  (ch2 + right, right)

/-- The inverse of R157: (ch1, ch2) from (left, right) (C9). -/
def correlatePair (shift leftweight : Nat) (left right : Int) : Int × Int :=
  let ch2 := left - right
  (right + asr (ch2 * leftweight) shift, ch2)

/-- Decorrelation of a frame: only of exactly two channels with a nonzero leftweight (R157). Left before right is a DESIGN
CHOICE (log 14): N14 leaves the order to the host. -/
def decorrelate (shift leftweight : Nat) (channels : List (List Int)) : List (List Int) :=
  match channels with
  | [ch1, ch2] =>
    if leftweight = 0 then channels
    else [(ch1.zip ch2).map fun x => (decorrelatePair shift leftweight x.1 x.2).1,
      (ch1.zip ch2).map fun x => (decorrelatePair shift leftweight x.1 x.2).2]
  | _ => channels

/-- The low-order bits put below a sample (R158). -/
def mergeLsb (lsbWidth : Nat) (sample : Int) (lsb : Nat) : Int := sample * 2 ^ (lsbWidth * 8) + lsb

/-- The low-order bits, sample-major as they were read, put below every channel of a frame (R154, R158). -/
def mergeFrame (lsbWidth : Nat) (lsbs : List (List Nat)) (channels : List (List Int)) : List (List Int) :=
  if lsbWidth = 0 then channels
  else channels.mapIdx fun c xs => xs.mapIdx fun i x => mergeLsb lsbWidth x ((channelOf 0 lsbs c).getD i 0)

/-- The cursor byte-aligned after the end marker (R159). -/
def alignCursor (p : Nat) : Nat := (p + 7) / 8 * 8

/-- The interleaved block of one frameset: sample `i` of channel `c` at `i*C + c` (R160). R160 knows channels of one length
only: that a shorter one is filled with 0 is a DESIGN CHOICE (log 14). -/
def interleave (frames : Nat) (channels : List (List Int)) : List Int :=
  (List.range frames).flatMap fun i => channels.map fun ch => ch.getD i 0

/-- What a `read` returns and the frames then left: nothing once the counter is 0, whatever is left in the stream (R161).
DESIGN CHOICE (log 14), R161 and N15 leaving both open: a final frameset longer than the remaining count is returned uncut and
the counter stops at 0, and there is no byte budget, so a `read` returns the whole frameset. -/
def sessionRead (framesLeft : Nat) (frames : Nat) (channels : List (List Int)) : List Int × Nat :=
  if framesLeft = 0 then ([], 0) else (interleave frames channels, framesLeft - frames)

/-- The error kinds of the document (R162). -/
inductive DocumentError where
  | formatError
  | truncatedStream
  | unsupportedFeature
  deriving DecidableEq, Repr

/-- The document's name of a fault of the block, where it has one (R162, R170). -/
def documentError : BlockFault → Option DocumentError
  | .truncated => some .truncatedStream
  | .format => some .formatError
  | .unsupported => some .unsupportedFeature
  | .config => none
  | .zeroRun => none
  | .log2Zero => none
  | .shiftZero => none
  | .histOvf => none
  | .coefOvf => none
  | .sampleOvf => none
  | .badCmd => none

end Sys2Proof.Machine
end

