-- ==== Sys2Proof/Machine/Session.lean ====
section
/-! DEFINITION. The host driving the block (44_host_context.md): the accesses of Driver.lean made one after the other, with
what the host does on the words it reads back: the branch on STATUS.FAULT, the samples copied out, the cursor taken back
(R156, R163). None of this is an operation of the block (log 10), and no step uses it. -/

namespace Sys2Proof.Machine

/-- Why the host gives up. -/
inductive DriverStop where
  /-- STATUS.FAULT was 1 after a command: the frame is abandoned (R156, R163). FAULT_CODE is in the block's state. -/
  | blockFault
  /-- The host's own reader ran out of bits (R162). -/
  | shortRead
  /-- The host's cursor has no 32-bit word, so BITPOS cannot hold it. -/
  | cursorTooLarge
  /-- An access the block gives no meaning: none is made between commands (R201). -/
  | noMeaning
  deriving DecidableEq, Repr

/-- What the host does with a block: it ends with a result or gives up, and leaves the block in some state either way. -/
abbrev Drive (α : Type) := EStateM DriverStop State α

/-- One access, made now, and obeyed as a step obeys the next of `State.host` (R48, R201). -/
def access (a : HostAccess) : Drive Unit := fun s =>
  if busy s then .error .noMeaning s
  else
    match perform (serve a s) with
    | .next t => .ok () t
    | .fault _ => .error .noMeaning s
    | .refused _ => .error .noMeaning s

/-- Accesses in their order. -/
def script : List HostAccess → Drive Unit
  | [] => pure ()
  | a :: rest => do
    access a
    script rest

/-- A read access and the word it returns. -/
def readWord (a : HostAccess) : Drive Word := do
  access a
  let s ← get
  pure (s.reply.getD 0)

/-- The signed entries 0 to `n - 1` of a buffer, read in that order. -/
def readEntries (entry : Nat → HostAccess) : Nat → Drive (List Int)
  | 0 => pure []
  | n + 1 => do
    let xs ← readEntries entry n
    let w ← readWord (entry n)
    pure (xs ++ [w.toInt])

/-- `cmd`, `wait`, and the frame abandoned if STATUS.FAULT is 1 (R156, R200). -/
def command (code : Int) : Drive Unit := do
  access (wrAccess .cmd code)
  let status ← readWord waitAccess
  if status.getLsbD 2 then throw .blockFault

def commands : List Int → Drive Unit
  | [] => pure ()
  | code :: rest => do
    command code
    commands rest

/-! ### One frame on the compressed path (R156) -/

/-- The three ways R156 gives to drive a frame: SF_RUN for each channel; RD_RUN and then PR_RUN for each channel; the
document's order, all residual blocks first. -/
inductive FrameOrder where
  | oneCommand
  | twoCommands
  | documentOrder
  deriving DecidableEq, Repr

/-- Each channel in turn: its registers, its commands, its samples copied out (R156, R204). -/
def driveChannels (codes : List Int) (count : Nat) : List SubframeHeader → Drive (List (List Int))
  | [] => pure []
  | h :: rest => do
    script (subframeScript h)
    commands codes
    let xs ← readEntries HostAccess.rsmp count
    let more ← driveChannels codes count rest
    pure (xs :: more)

/-- RD_RUN for each channel, each residual block copied out of RES (R156, R204). -/
def decodeBlocks (count : Nat) : Nat → Drive (List (List Int))
  | 0 => pure []
  | channels + 1 => do
    command 1
    let rs ← readEntries HostAccess.rres count
    let more ← decodeBlocks count channels
    pure (rs :: more)

/-- PR_RUN for each channel, its saved block written back to RES before it (R156). -/
def reconstructBlocks (count : Nat) : List (SubframeHeader × List Int) → Drive (List (List Int))
  | [] => pure []
  | (h, rs) :: rest => do
    script (subframeScript h ++ residualsScript rs)
    command 2
    let xs ← readEntries HostAccess.rsmp count
    let more ← reconstructBlocks count rest
    pure (xs :: more)

/-- The channels of a frame, by one of the three orders. -/
def driveAll (order : FrameOrder) (count : Nat) (headers : List SubframeHeader) : Drive (List (List Int)) :=
  match order with
  | .oneCommand => driveChannels [3] count headers
  | .twoCommands => driveChannels [1, 2] count headers
  | .documentOrder => do
    let blocks ← decodeBlocks count headers.length
    reconstructBlocks count (headers.zip blocks)

/-- Driving the block through a frame (R156): BSMEM and BITEND cover it, the host's cursor goes into BITPOS, the channels are
decoded, and the cursor is read back, at the first bit after the last residual block (R202). How much of the stream is loaded is
the host's choice (R45): here as much as BSMEM holds, from byte 0 on, a DESIGN CHOICE (log 14). A cursor
of `2 ^ 32` or more, beyond every BSMEM (R2), is not written wrapped: the host gives up, a DESIGN CHOICE (log 14). -/
def driveFrame (order : FrameOrder) (stream : List Bool) (cursor : Nat) (size : Int) (count : Nat)
    (headers : List SubframeHeader) : Drive (List (List Int) × Nat) := do
  if 2 ^ 32 ≤ cursor then throw .cursorTooLarge
  let s ← get
  script (loadScript (stream.take (8 * s.params.bsbytes)) ++ frameScript cursor size count)
  let channels ← driveAll order count headers
  let cursor ← readWord (rdAccess .bitpos)
  pure (channels, cursor.toNat)

/-! ### Frames, framesets, the session (R145, R150 to R163) -/

/-- A result of the host's own reader. -/
def parsed {α : Type} (r : Option α) : Drive α :=
  match r with
  | some x => pure x
  | none => throw .shortRead

/-- One frame of `channels` channels, by the states of R145: its header, then the uncompressed path (R152), or sub-frame
headers, low-order bits, the block, decorrelation and merging (R153 to R158). `bits` is what is left of `stream`, and so are
the bits of the result. -/
def decodeFrame (order : FrameOrder) (c : ConfigRecord) (stream : List Bool) (channels : Nat) (bits : List Bool) :
    Drive (List (List Int) × List Bool) := do
  let (h, bits) ← parsed (readFrameHeader c.samplesPerFrame bits)
  if h.uncompressed then
    let (rows, bits) ← parsed (readUncompressed c.bitsPerSample channels h.sampleCount bits)
    pure ((List.range channels).map (channelOf 0 rows), bits)
  else
    let (lead, bits) ← parsed (readCompressedLead channels h.lsbWidth h.sampleCount bits)
    let (samples, cursor) ← driveFrame order stream (stream.length - bits.length)
      (frameSampleSize c.bitsPerSample h.lsbWidth channels) h.sampleCount lead.headers
    pure (mergeFrame h.lsbWidth lead.lsbs (decorrelate lead.shift lead.leftweight samples), stream.drop cursor)

/-- A frameset (R150): frames until the end marker, their channels in one list, the cursor then byte-aligned (R159). A frame
that is abandoned takes the whole frameset with it (R163). Every frame reads 3 bits at least, so as many rounds as there are
bits are enough. -/
def decodeFrameset (order : FrameOrder) (c : ConfigRecord) (stream : List Bool) :
    Nat → List Bool → Drive (List (List Int) × List Bool)
  | 0, _ => throw .shortRead
  | rounds + 1, bits => do
    let (lead, bits) ← parsed (hread 3 bits)
    match frameChannels lead with
    | none => pure ([], stream.drop (alignCursor (stream.length - bits.length)))
    | some channels => do
      let (samples, bits) ← decodeFrame order c stream channels bits
      let (more, bits) ← decodeFrameset order c stream rounds bits
      pure (samples ++ more, bits)

/-- A `read` of the session (R161): nothing once no frame is left, else one frameset; the block, the frames then left, and
what is left of the stream. A frameset starts on a byte (R159), and that byte is byte 0 of BSMEM (log 14). -/
def readBlock (order : FrameOrder) (c : ConfigRecord) (framesLeft : Nat) (bits : List Bool) :
    Drive (List Int × Nat × List Bool) :=
  if framesLeft = 0 then pure ([], 0, bits)
  else do
    let (channels, bits) ← decodeFrameset order c bits (bits.length + 1) bits
    let (block, left) := sessionRead framesLeft (channels.headD []).length channels
    pure (block, left, bits)

/-- Going on after a fault (R163, R205): CLR_FAULT or SOFT_RESET, and the parameter set again. The registers of a frame and of
a channel are loaded by the next frame itself. -/
def recoverScript (softReset : Bool) (c : ConfigRecord) : List HostAccess :=
  runScript (if softReset then 5 else 4) ++ streamScript c

end Sys2Proof.Machine
end

