-- ==== Sys2Proof/Laws/Session.lean ====
section
/-! SUPPORT. The host driving the block: an access is a step, and a fault abandons the frame. -/

namespace Sys2Proof.Machine

@[simp] theorem script_nil (s : State) : script [] s = .ok () s := rfl

theorem script_cons {a : HostAccess} {rest : List HostAccess} {s t : State} (h : access a s = .ok () t) :
    script (a :: rest) s = script rest t := by
  simp only [script, bind, EStateM.bind, h]

/-- An access the host makes is what a step makes of it as the next of its accesses (R48). -/
theorem access_is_step {a : HostAccess} {rest : List HostAccess} {s : State} (he : s.engine = .idle)
    (hh : s.host = a :: rest) :
    access a (popHost rest s) =
      match step s with
      | .next t => .ok () t
      | .fault _ => .error .noMeaning (popHost rest s)
      | .refused _ => .error .noMeaning (popHost rest s) := by
  have hb : busy (popHost rest s) = false := by simp [busy, he]
  rw [step_serve he hh, access, hb]
  rfl

/-- Between commands an access that is no command always has its effect. -/
theorem access_read {off : Nat} {s : State} (he : s.engine = .idle) :
    access (.rd off) s = .ok () (answer (hostRd off s) s) := by
  have hb : busy s = false := by simp [busy, he]
  rw [access, hb]
  rfl

/-- A command after which STATUS.FAULT is 1 abandons the frame, the block standing as the fault left it (R156, R163). -/
theorem command_fault {code : Int} {s t : State} (h : access (wrAccess .cmd code) s = .ok () t) (he : t.engine = .idle)
    (hf : t.fault = true) :
    command code s = .error .blockFault (answer (statusWord t) t) := by
  have hr : access waitAccess t = .ok () (answer (statusWord t) t) := access_read he
  have hw : (statusWord t).getLsbD 2 = true := by
    simp only [statusWord, busy, he, hf]
    cases t.done <;> rfl
  simp only [command, readWord, bind, EStateM.bind, h, hr, get, getThe, MonadStateOf.get, EStateM.get, pure, EStateM.pure,
    answer, Option.getD_some, hw, if_true]
  rfl

/-- A command after which STATUS.FAULT is 0 goes on. -/
theorem command_ok {code : Int} {s t : State} (h : access (wrAccess .cmd code) s = .ok () t) (he : t.engine = .idle)
    (hf : t.fault = false) :
    command code s = .ok () (answer (statusWord t) t) := by
  have hr : access waitAccess t = .ok () (answer (statusWord t) t) := access_read he
  have hw : (statusWord t).getLsbD 2 = false := by
    simp only [statusWord, busy, he, hf]
    cases t.done <;> rfl
  simp only [command, readWord, bind, EStateM.bind, h, hr, get, getThe, MonadStateOf.get, EStateM.get, pure, EStateM.pure,
    answer, Option.getD_some, hw]
  rfl

end Sys2Proof.Machine
end

