-- ==== Sys2Proof/Tests/Slice0.lean ====
section
/-! SUPPORT. The model's own tests: well-formedness, decoding, single steps with the results the spec gives (R<n> and V<n>
in the comments), the driver's host scripts and a driven frame, and for each obligation with hypotheses a state that meets them. -/

namespace Sys2Proof.Tests

open Sys2Proof Sys2Proof.Machine

/-! ### Helpers -/

/-- The bits of a string of 0 and 1; anything else is skipped (R71). -/
def bitsOf (text : String) : List Bool := (text.toList.filter fun c => c == '0' || c == '1').map (· == '1')

/-- A list as a memory from index 0 on. -/
def memoryOf {width : Nat} (l : List (BitVec width)) : Memory width := l.mapIdx fun i v => (i, v)

/-- A list of coefficients. -/
def coefsOf (cs : List Int) : Vector Word 32 := Vector.ofFn fun j : Fin 32 => BitVec.ofInt 32 (cs.getD j.val 0)

/-- A reset block whose PB0 is known. -/
def block (pb0 : Bool) : State := { State.reset with params := ⟨4096, 65536, pb0⟩ }

/-- A block ready to decode a stream, with the parameters of the spec's examples: HISTORY_MULT 40, INITIAL_HISTORY 10,
MAXIMUM_K 14. -/
def stream (pb0 : Bool) (text : String) (size count : Nat) : State :=
  { block pb0 with
    bsmem := memoryOf (packBytes (((bitsOf text).length + 7) / 8) (bitsOf text))
    bitend := BitVec.ofNat 32 (bitsOf text).length
    historyMult := 40
    initialHistory := 10
    maximumK := 14
    sampleSize := BitVec.ofNat 32 size
    sampleCount := BitVec.ofNat 32 count }

/-- A running residual decoder before a residual code read under the Rice parameter `k`. -/
def decoding (sf pb0 : Bool) (k : Nat) (text : String) (size count : Nat) : State :=
  { stream pb0 text size count with
    history := 0xFFFFFFFF
    historyMult := 0
    maximumK := BitVec.ofNat 32 k
    engine := .residual sf }

/-- A running residual decoder before a zero-run code at the given HISTORY, residual 0 stored. -/
def inZeroRun (sf : Bool) (history : Nat) (text : String) (count : Nat) : State :=
  { stream true text 16 count with
    history := BitVec.ofNat 32 history
    res := [(0, 7)]
    engine := .zeroRun sf }

/-- A block ready to reconstruct samples from residuals. -/
def predictor (order shift : Nat) (cs rs : List Int) : State :=
  { block true with
    order := BitVec.ofNat 32 order
    qlpShift := BitVec.ofNat 32 shift
    coef := coefsOf cs
    res := memoryOf (rs.map fun r => BitVec.ofInt 32 r)
    sampleCount := BitVec.ofNat 32 rs.length }

/-- A predictor before sample `t`, the samples below it given. -/
def steady (order shift t : Nat) (cs rs xs : List Int) : State :=
  { predictor order shift cs rs with
    smp := memoryOf (xs.map fun x => BitVec.ofInt 32 x)
    prIdx := BitVec.ofNat 32 t }

/-- A faulted block. -/
def faulted : State := { block true with fault := true, faultCode := 1 }

/-- Whether an outcome is a next state with a property. -/
def gives (o : Host.Outcome State Fault Refusal) (p : State → Bool) : Bool :=
  match o with
  | .next t => p t
  | .fault _ => false
  | .refused _ => false

theorem gives_next {o : Host.Outcome State Fault Refusal} {p : State → Bool} (h : gives o p = true) :
    ∃ t, o = .next t ∧ p t = true := by
  cases o with
  | next t => exact ⟨t, rfl, h⟩
  | fault r => simp [gives] at h
  | refused r => simp [gives] at h

/-- The residuals and the samples below `n`. -/
def residuals (n : Nat) (s : State) : List Int := (List.range n).map (resAt s)
def samples (n : Nat) (s : State) : List Int := (List.range n).map (smpAt s)

/-! ### WellFormed: each check refuses a term that breaks it -/

theorem test_wf_suffix_k_zero : (Instr.cwRiceP0 0 0).wf = false := by decide
theorem test_wf_suffix_k_24 : (Instr.cwRiceP8 24 1).wf = false := by decide
theorem test_wf_suffix_too_wide : (Instr.cwRiceP3 3 8).wf = false := by decide
theorem test_wf_field_width_zero : (Instr.cwEsc 0 0).wf = false := by decide
theorem test_wf_field_width_32 : (Instr.cwEsc 32 0).wf = false := by decide
theorem test_wf_field_too_wide : (Instr.cwEsc 16 65536).wf = false := by decide
theorem test_wf_reserved_is_no_command : (Instr.reservedCmd 5).wf = false := by decide
theorem test_wf_accepts : (Instr.cwRiceP3 3 7).wf = true ∧ (Instr.cwEsc 16 65535).wf = true
    ∧ (Instr.reservedCmd 6).wf = true ∧ Instr.nop.wf = true ∧ Instr.cwShortP8.wf = true := by decide

/-! ### Decoding: words written out from R61, R62, R64, R65 -/

theorem test_decode_commands :
    decodeCommand 0x00000000 = .nop ∧ decodeCommand 0x00000001 = .rdRun ∧ decodeCommand 0x00000002 = .prRun
    ∧ decodeCommand 0x00000003 = .sfRun ∧ decodeCommand 0x00000004 = .clrFault ∧ decodeCommand 0x00000005 = .softReset
    ∧ decodeCommand 0x00000006 = .reservedCmd 6 ∧ decodeCommand 0x80000001 = .reservedCmd 0x80000001 := by decide

theorem test_decode_short :
    decodeCodeword 0 16 (bitsOf "0") = .ok (.cwShortP0, [])
    ∧ decodeCodeword 0 16 (bitsOf "10") = .ok (.cwShortP1, [])
    ∧ decodeCodeword 0 16 (bitsOf "110") = .ok (.cwShortP2, [])
    ∧ decodeCodeword 0 16 (bitsOf "1110") = .ok (.cwShortP3, [])
    ∧ decodeCodeword 0 16 (bitsOf "11110") = .ok (.cwShortP4, [])
    ∧ decodeCodeword 0 16 (bitsOf "111110") = .ok (.cwShortP5, [])
    ∧ decodeCodeword 0 16 (bitsOf "1111110") = .ok (.cwShortP6, [])
    ∧ decodeCodeword 0 16 (bitsOf "11111110") = .ok (.cwShortP7, [])
    ∧ decodeCodeword 0 16 (bitsOf "111111110") = .ok (.cwShortP8, []) := by decide

theorem test_decode_rice :
    decodeCodeword 3 16 (bitsOf "0 101 1") = .ok (.cwRiceP0 3 5, [true])
    ∧ decodeCodeword 1 16 (bitsOf "10 1") = .ok (.cwRiceP1 1 1, [])
    ∧ decodeCodeword 3 16 (bitsOf "110 101") = .ok (.cwRiceP2 3 5, [])
    ∧ decodeCodeword 2 16 (bitsOf "1110 00") = .ok (.cwRiceP3 2 0, [])
    ∧ decodeCodeword 4 16 (bitsOf "11110 1000") = .ok (.cwRiceP4 4 8, [])
    ∧ decodeCodeword 5 17 (bitsOf "111110 01001") = .ok (.cwRiceP5 5 9, [])
    ∧ decodeCodeword 12 16 (bitsOf "1111110 000000000011") = .ok (.cwRiceP6 12 3, [])
    ∧ decodeCodeword 3 16 (bitsOf "11111110 110") = .ok (.cwRiceP7 3 6, [])
    ∧ decodeCodeword 3 16 (bitsOf "111111110 111") = .ok (.cwRiceP8 3 7, []) := by decide

theorem test_decode_esc :
    decodeCodeword 0 16 (bitsOf "111111111 0000000000001001") = .ok (.cwEsc 16 9, [])
    ∧ decodeCodeword 5 17 (bitsOf "111111111 10011100010000000") = .ok (.cwEsc 17 80000, []) := by decide

theorem test_decode_ends_inside :
    decodeCodeword 0 16 (bitsOf "1111") = .error .truncatedPrefix
    ∧ decodeCodeword 3 16 (bitsOf "10 10") = .error .truncatedSuffix
    ∧ decodeCodeword 3 16 (bitsOf "111111111 000") = .error .truncatedField := by decide

/-- The rows of the opcode table with bits of their own: the six commands and CW_SHORT.p7. -/
theorem test_decodeTableWord :
    decodeTableWord 32 0 = some .nop ∧ decodeTableWord 32 5 = some .softReset ∧ decodeTableWord 32 22 = some (.reservedCmd 22)
    ∧ decodeTableWord 8 254 = some .cwShortP7 := by decide

theorem test_withFetchWord_command : step (State.reset.withFetchWord 32 1)
    = exec .rdRun { State.reset with draws := 1 } := rfl
theorem test_withFetchWord_codeword : step (State.reset.withFetchWord 8 254)
    = exec .cwShortP7 (State.reset.withFetchWord 8 254) := rfl

/-! ### One step of each instruction -/

/-- V50. -/
theorem test_nop_keeps_done : gives (exec .nop { block true with done := true }) (fun t => statusWord t == 2) = true := by decide
/-- V60. -/
theorem test_rdRun_reset_is_config : gives (exec .rdRun State.reset) (fun t => statusWord t == 4 && t.faultCode == 4) = true := by
  decide
/-- P2 (V21): a zero-run, the sign modifier and two escapes. -/
theorem test_rdRun_program_two :
    gives (exec .rdRun (stream false
        "110 100 1110 10 11111111100000001001011000 1001001 00000 11111111110011100010000000" 17 10))
      (fun t => residuals 10 t == [1, 0, 0, 0, 2, -1, 300, -20, 0, 40000] && t.bitpos == 76 && t.history == 65535
        && t.rdIdx == 10 && statusWord t == 2) = true := by decide
/-- S1, V40, P1. -/
theorem test_prRun_order_zero :
    gives (exec .prRun (predictor 0 0 [] [5, -3, 2, 0])) (fun t => statusWord t == 2 && samples 4 t == [5, 2, 4, 4]) = true := by decide
/-- R111 to R115 examples: sample 9, coefficients [2, -2]. -/
theorem test_prRun_order_two :
    gives (exec .prRun (predictor 2 2 [3, -1] [10, 2, 3, -4]))
      (fun t => samples 4 t == [10, 12, 15, 9] && coefAt t 0 == 2 && coefAt t 1 == -2) = true := by decide
/-- P3: residuals and samples of the spec's program. -/
theorem test_sfRun_program_three :
    gives (exec .sfRun { stream true "1111111110000000000010100 1010 1100 11010 00 111010" 16 6 with
        order := 2, qlpShift := 2, coef := coefsOf [3, -1] })
      (fun t => statusWord t == 2 && samples 6 t == [10, 12, 15, 9, 9, 20]) = true := by decide
/-- R131 corner case b: ORDER = 32 is E_FORMAT before a bit is consumed. -/
theorem test_sfRun_bad_order :
    gives (exec .sfRun { stream true "0" 16 1 with order := 32 }) (fun t => t.faultCode == 2 && t.bitpos == 0) = true := by decide
/-- V55. -/
theorem test_clrFault : gives (exec .clrFault faulted) (fun t => statusWord t == 0 && t.faultCode == 0) = true := by decide
/-- V56. -/
theorem test_softReset :
    gives (exec .softReset { predictor 2 2 [3, -1] [10, 2] with bitpos := 9, fault := true, faultCode := 1 })
      (fun t => statusWord t == 0 && t.bitpos == 0 && coefAt t 1 == 0 && resAt t 0 == 10) = true := by decide
/-- V51. -/
theorem test_reservedCmd : gives (exec (.reservedCmd 6) { block true with done := true })
    (fun t => statusWord t == 6 && t.faultCode == 12) = true := by decide
/-- V54. -/
theorem test_reservedCmd_while_faulted : exec (.reservedCmd 7) faulted = .next faulted := rfl

/-- R66, R94: value `p` read in `p + 1` bits, so the residuals are 0, -1, 1, -2, 2, -3, 3, -4, 4. -/
theorem test_short_values :
    ([(.cwShortP0, 0, 1), (.cwShortP1, -1, 2), (.cwShortP2, 1, 3), (.cwShortP3, -2, 4), (.cwShortP4, 2, 5),
      (.cwShortP5, -3, 6), (.cwShortP6, 3, 7), (.cwShortP7, -4, 8), (.cwShortP8, 4, 9)] : List (Instr × Int × Nat)).all
      (fun x => gives (exec x.1 (decoding false true 0 "000000000" 16 1))
        (fun t => resAt t 0 == x.2.1 && t.bitpos.toNat == x.2.2 && t.done)) = true := by decide
/-- R66, R94: with k = 3 and suffix 5 the values are 4, 11, 18, 25, 32, 39, 46, 53, 60, read in `p + 4` bits. -/
theorem test_rice_values :
    ([(.cwRiceP0 3 5, 2, 4), (.cwRiceP1 3 5, -6, 5), (.cwRiceP2 3 5, 9, 6), (.cwRiceP3 3 5, -13, 7), (.cwRiceP4 3 5, 16, 8),
      (.cwRiceP5 3 5, -20, 9), (.cwRiceP6 3 5, 23, 10), (.cwRiceP7 3 5, -27, 11), (.cwRiceP8 3 5, 30, 12)]
      : List (Instr × Int × Nat)).all
      (fun x => gives (exec x.1 (decoding false true 3 "000000000000" 16 1))
        (fun t => resAt t 0 == x.2.1 && t.bitpos.toNat == x.2.2 && t.done)) = true := by decide
/-- V18 and V19: a suffix of 1 gives a bit back, a suffix of 0 gives PB0 bits back. -/
theorem test_rice_gives_back :
    gives (exec (.cwRiceP1 3 1) (decoding false false 3 "10001" 16 1)) (fun t => resAt t 0 == -4 && t.bitpos == 4) = true
    ∧ gives (exec (.cwRiceP0 3 0) (decoding false false 3 "0000" 16 1)) (fun t => resAt t 0 == 0 && t.bitpos == 4) = true
    ∧ gives (exec (.cwRiceP0 3 0) (decoding false true 3 "0000" 16 1)) (fun t => resAt t 0 == 0 && t.bitpos == 3) = true := by
  decide
/-- V14, and R96: a value above 0xFFFF sets HISTORY to 0xFFFF (V20b). -/
theorem test_esc_values :
    gives (exec (.cwEsc 16 9) (decoding false true 0 "0000000000000000000000000" 16 1))
      (fun t => resAt t 0 == -5 && t.bitpos == 25) = true
    ∧ gives (exec (.cwEsc 17 80000) (decoding false true 5 "00000000000000000000000000" 17 1))
      (fun t => resAt t 0 == 40000 && t.bitpos == 26 && t.history == 0xFFFF) = true := by decide
/-- R98 example: HISTORY 10, `0 0100` under k = 4: three zeros after residual 0, residual 4 next. -/
theorem test_rice_zero_run :
    gives (exec (.cwRiceP0 4 4) (inZeroRun false 10 "00100" 6))
      (fun t => residuals 4 t == [7, 0, 0, 0] && t.rdIdx == 4 && t.history == 0 && t.signModifier && t.engine == .residual false)
      = true := by decide
/-- R98: a count that does not fit the residuals still to produce is E_ZERO_RUN. -/
theorem test_rice_zero_run_too_long :
    gives (exec (.cwRiceP0 4 4) (inZeroRun false 10 "00100" 3)) (fun t => t.faultCode == 5 && t.engine == .idle) = true := by decide

/-! ### The operations, with the spec's examples -/

/-- V1, V2, V3, V4: BSMEM = B4 7F. -/
theorem test_bsRead :
    (bsRead 3 { stream true "10110100 01111111" 16 1 with bitpos := 1 }).toOption.map Prod.fst = some 3
    ∧ (bsRead 4 { stream true "10110100 01111111" 16 1 with bitpos := 12 }).toOption.map Prod.fst = some 15
    ∧ bsRead 5 { stream true "10110100 01111111" 16 1 with bitpos := 12 } = .error .truncated := by decide
/-- V9, V10. -/
theorem test_bsUnary9 :
    (bsUnary9 (stream true "111111111 0000000" 16 1)).toOption.map Prod.fst = some none
    ∧ (bsUnary9 (stream true "111111110 0000000" 16 1)).toOption.map Prod.fst = some (some 8) := by decide
/-- R90 example, R97 example. -/
theorem test_rice_parameters :
    rdK { stream true "" 16 1 with history := 4010 } = 3
    ∧ rdZk { stream true "" 16 1 with history := 10 } = .ok 4 := by decide
/-- R94 examples, R92 example. -/
theorem test_sign_folding : rdMap 5 = -3 ∧ rdMap 6 = 3 ∧ (rdSm 4 { block true with signModifier := true }).1 = 5 := by decide
/-- R96 examples. -/
theorem test_history :
    (rdHist 4 { block true with history := 10, historyMult := 40 }).toOption.map State.history = some 170
    ∧ (rdHist 5000 { block true with history := 10, historyMult := 40 }).toOption.map State.history = some 200010 := by decide
/-- R135 example; V58; V59. -/
theorem test_registers :
    readReg (writeReg (block true) 0xFFFFFFFF (.coef 1)) (.coef 1) = some 0xFFFFFFFF
    ∧ regAt 0x084 = some (.coef 1) ∧ readReg (writeReg (block true) 40 .order) .order = some 40
    ∧ writeReg (block true) 5 .history = block true := by decide
/-- P1 as a host script (R71, R72), 4 + 1 + 4 + 2 steps. -/
theorem test_host_script :
    gives (runSteps 11 { State.reset with
        host := headerScript 0 [] ++ [wrAccess .sampleCount 4] ++ residualsScript [5, -3, 2, 0] ++ runScript 2 })
      (fun t => samples 4 t == [5, 2, 4, 4] && t.reply == some 2) = true := by decide

/-! ### The host's side: arithmetic, a frame and a frameset driven on the block -/

/-- What a host's work ends with: its result, or why it gave up. -/
def outcome {α : Type} (d : Drive α) (s : State) : Except DriverStop α :=
  match d s with
  | .ok x _ => .ok x
  | .error e _ => .error e

/-- A host's work succeeds, and `p` holds of its result. -/
def yields {α : Type} (d : Drive α) (s : State) (p : α → Bool) : Bool := (outcome d s).toOption.any p

/-- A host's work ends as `stop` says. -/
def abandons {α : Type} (d : Drive α) (s : State) (stop : DriverStop) : Bool :=
  match outcome d s with
  | .ok _ => false
  | .error e => e == stop

/-- A block with the parameters of the spec's programs loaded, nothing else (R148). -/
def loaded : State := { block true with historyMult := 40, initialHistory := 10, maximumK := 14 }

/-- The parameter set of P5. -/
def stereoSet : ConfigRecord := ⟨4096, 16, 40, 10, 14, 2, 44100⟩

/-- The two residual blocks of P5, with the end marker. -/
def stereoBlocks : List Bool := bitsOf "111111110 10 11110 110  111110 11110 11110 10  111"

/-- A sub-frame header of order 0 (R153). -/
def noPrediction : SubframeHeader := ⟨0, 0, 0, []⟩

/-- P5 as a frameset: the field 1, the header with an explicit sample count of 4, shift 1, leftweight 1, two sub-frame headers
of order 0, the blocks (R150, R151, R153). -/
def stereoFrameset : List Bool :=
  bitsOf "001 0000000000000000 1 00 0" ++ List.replicate 29 false ++ bitsOf "100"
    ++ bitsOf "00000001 00000001 0000000000000000 0000000000000000" ++ stereoBlocks

/-- V61 both ways and S2; V62; V63. -/
theorem test_host_arithmetic :
    decorrelate 1 1 [[4, 3, 5, 6], [-3, -1, 1, 0]] = [[3, 3, 6, 6], [6, 4, 5, 6]]
    ∧ [(3, 6), (3, 4), (6, 5), (6, 6)].map (fun x => correlatePair 1 1 x.1 x.2) = [(4, -3), (3, -1), (5, 1), (6, 0)]
    ∧ decorrelate 1 0 [[4, 3], [-3, -1]] = [[4, 3], [-3, -1]]
    ∧ mergeFrame 1 [[0xAB, 0], [0, 1]] [[-3, 5], [5, -3]] = [[-597, 1280], [1280, -767]]
    ∧ [frameSampleSize 16 0 1, frameSampleSize 16 0 2, frameSampleSize 24 1 2, frameSampleSize 24 0 7, frameSampleSize 16 2 1]
      = [16, 17, 17, 30, 0] := by decide

/-- P5: both channels and the cursor, 37, in each of the three orders of R156. -/
theorem test_drive_frame :
    ∀ order ∈ [FrameOrder.oneCommand, .twoCommands, .documentOrder],
      yields (driveFrame order stereoBlocks 0 17 4 [noPrediction, noPrediction]) loaded
        (fun x => x == ([[4, 3, 5, 6], [-3, -1, 1, 0]], 37)) = true := by decide +kernel

/-- P3, its coefficients used up by the first channel: a second channel with the same header starts from 3 and -1 again. -/
theorem test_drive_frame_reloads_coefficients :
    let bits := bitsOf "1111111110000000000010100 1010 1100 11010 00 111010"
    ∀ order ∈ [FrameOrder.oneCommand, .documentOrder],
      yields (driveFrame order (bits ++ bits) 0 16 6 [⟨0, 2, 0, [3, -1]⟩, ⟨0, 2, 0, [3, -1]⟩]) loaded
        (fun x => x == ([[10, 12, 15, 9, 9, 20], [10, 12, 15, 9, 9, 20]], 92)) = true := by decide +kernel

/-- P5 cut short in channel 1: the frame is abandoned. A reserved prediction type in channel 1 does the same (R172). A cursor
with no 32-bit word is not wrapped (log 14), and one beyond BITEND is left to the block (R174). -/
theorem test_abandoned_frame :
    abandons (driveFrame .oneCommand (stereoBlocks.take 30) 0 17 4 [noPrediction, noPrediction]) loaded .blockFault = true
    ∧ abandons (driveFrame .twoCommands stereoBlocks 0 17 4 [noPrediction, ⟨1, 0, 0, []⟩]) loaded .blockFault = true
    ∧ abandons (driveFrame .oneCommand stereoBlocks (2 ^ 32) 17 4 [noPrediction]) loaded .cursorTooLarge = true
    ∧ abandons (driveFrame .oneCommand stereoBlocks (2 ^ 32 - 1) 17 4 [noPrediction]) loaded .blockFault = true := by
  decide +kernel

/-- P5 as a `read`: left and right interlaced, 4 of 10 frames gone, the stream at its end; and cut short (R157, R160, R161). -/
theorem test_read_block :
    yields (readBlock .oneCommand stereoSet 10 stereoFrameset) loaded
      (fun x => x == ([3, 6, 3, 4, 6, 5, 6, 6], 6, [])) = true
    ∧ yields (readBlock .oneCommand stereoSet 0 stereoFrameset) loaded
      (fun x => x == ([], 0, stereoFrameset)) = true
    ∧ abandons (readBlock .oneCommand stereoSet 10 (stereoFrameset.take 100)) loaded .shortRead
      = true := by decide +kernel

/-! ### Witnesses: for each obligation with hypotheses, states and operands that meet them, clause by clause -/

theorem test_meets_EncodeThenDecode :
    Instr.sfRun.wf = true ∧ (Instr.reservedCmd 6).wf = true
    ∧ (Instr.cwShortP8.wf = true ∧ Instr.cwShortP8.codeword? = some (.short 8) ∧ (Codeword.short 8).readUnder 0 16 = true)
    ∧ ((Instr.cwRiceP0 1 0).wf = true ∧ (Codeword.rice 0 1 0).readUnder 1 16 = true)
    ∧ ((Instr.cwRiceP8 23 8388607).wf = true ∧ (Codeword.rice 8 23 8388607).readUnder 23 31 = true)
    ∧ ((Instr.cwEsc 1 1).wf = true ∧ (Codeword.esc 1 1).readUnder 0 1 = true)
    ∧ ((Instr.cwEsc 31 2147483647).wf = true ∧ (Codeword.esc 31 2147483647).readUnder 23 31 = true) := by decide

theorem test_meets_DecodeThenEncode :
    decodeCodeword 0 1 (bitsOf "111111110 1") = .ok (.cwShortP8, [true])
    ∧ decodeCodeword 23 31 (bitsOf "111111110 11111111111111111111111") = .ok (.cwRiceP8 23 8388607, [])
    ∧ decodeCodeword 23 31 (List.replicate 40 true) = .ok (.cwEsc 31 2147483647, []) := by decide

theorem test_meets_LongEnoughBitsDecode :
    9 + max 23 31 ≤ (List.replicate 40 true).length ∧ 9 + max 0 0 ≤ (List.replicate 9 false).length := by decide

/-- Both clauses of BS.READ where they meet: BITEND is 16. -/
theorem test_meets_BsReadTakesField :
    let s := { stream true "10110100 01111111" 16 1 with bitpos := 12 }
    s.bitpos.toNat + 4 ≤ s.bitend.toNat ∧ s.bitend.toNat < s.bitpos.toNat + 5 := by decide

theorem test_meets_BsUnary9CountsOnes :
    bsUnary9 (stream true "0" 16 1) = .ok (some 0, advance 1 (stream true "0" 16 1))
    ∧ bsUnary9 (stream true "111111110" 16 1) = .ok (some 8, advance 9 (stream true "111111110" 16 1))
    ∧ bsUnary9 (stream true "111111111" 16 1) = .ok (none, advance 9 (stream true "111111111" 16 1))
    ∧ bsUnary9 (stream true "11111111" 16 1) = .error .truncated := by decide

theorem test_meets_ShortCodewordIsResidual :
    let s := decoding true true 0 "111111110" 16 1
    Instr.cwShortP8.codeword? = some (.short 8) ∧ s.engine = .residual true ∧ s.rdIdx.toNat < s.sampleCount.toNat
    ∧ rdK s = 0 ∧ s.bitpos.toNat + (8 + 1) ≤ s.bitend.toNat ∧ s.historyMult.toNat ≤ 255 := by decide

/-- All four suffix clauses, at k = 1 and at the largest k, under both PB0. -/
theorem test_meets_RiceCodewordIsResidual :
    let s := decoding false true 1 "0 0" 16 1
    let s' := decoding false false 23 "0 00000000000000000000000" 16 1
    ((Instr.cwRiceP0 1 1).wf = true ∧ (Instr.cwRiceP0 1 0).wf = true ∧ rdK s = 1 ∧ s.params.pb0 = true
      ∧ s.engine = .residual false ∧ s.rdIdx.toNat < s.sampleCount.toNat ∧ s.bitpos.toNat + (0 + 1 + 1) ≤ s.bitend.toNat
      ∧ s.historyMult.toNat ≤ 255)
    ∧ (Instr.cwRiceP0 23 2).wf = true ∧ (Instr.cwRiceP0 23 8388607).wf = true ∧ (Instr.cwRiceP0 23 0).wf = true
      ∧ rdK s' = 23 ∧ s'.params.pb0 = false ∧ s'.engine = .residual false ∧ s'.rdIdx.toNat < s'.sampleCount.toNat
      ∧ s'.bitpos.toNat + (0 + 1 + 23) ≤ s'.bitend.toNat ∧ s'.historyMult.toNat ≤ 255 := by decide

theorem test_meets_EscapeCodewordIsResidual :
    let s := { decoding true true 5 "0000000000000000000000000000000000000000" 31 1 with historyMult := 255 }
    (Instr.cwEsc 31 2147483647).wf = true ∧ s.engine = .residual true ∧ s.rdIdx.toNat < s.sampleCount.toNat
    ∧ s.sampleSize.toNat = 31 ∧ s.bitpos.toNat + (9 + 31) ≤ s.bitend.toNat ∧ s.historyMult.toNat ≤ 255 := by decide

/-- A count that exactly fits (3 of the 3 residuals left), and one of 0. -/
theorem test_meets_ZeroRunCodewordInsertsZeros :
    let s := inZeroRun false 10 "0 0100" 4
    (Instr.cwRiceP0 4 4).wf = true ∧ s.engine = .zeroRun false ∧ zeroRunDue s = true ∧ rdZk s = .ok 4
    ∧ (Codeword.rice 0 4 4).readUnder 4 16 = true ∧ s.bitpos.toNat + codewordReads (.rice 0 4 4) ≤ s.bitend.toNat
    ∧ codewordValue (.rice 0 4 4) ≤ s.sampleCount.toNat - (s.rdIdx.toNat + 1)
    ∧ codewordValue (.rice 0 4 0) ≤ s.sampleCount.toNat - (s.rdIdx.toNat + 1) := by decide

/-- The four faults: HISTORY 0; a residual code and a zero-run code one bit short; a count one too large. -/
theorem test_meets_CodewordStepFaults :
    let s1 := inZeroRun false 0 "0 0100" 4
    let s2 := { decoding false true 3 "0 101" 16 1 with bitend := 3 }
    let s3 := { inZeroRun false 10 "0 0100" 4 with bitend := 4 }
    let s4 := inZeroRun false 10 "0 0100" 3
    (s1.engine = .zeroRun false ∧ s1.history = 0)
    ∧ (s2.engine = .residual false ∧ s2.rdIdx.toNat < s2.sampleCount.toNat
      ∧ (Codeword.rice 0 3 5).readUnder (rdK s2) s2.sampleSize.toNat = true
      ∧ s2.bitend.toNat < s2.bitpos.toNat + codewordReads (.rice 0 3 5))
    ∧ (s3.engine = .zeroRun false ∧ rdZk s3 = .ok 4 ∧ (Codeword.rice 0 4 4).readUnder 4 16 = true
      ∧ s3.bitend.toNat < s3.bitpos.toNat + codewordReads (.rice 0 4 4))
    ∧ s4.engine = .zeroRun false ∧ rdZk s4 = .ok 4 ∧ s4.bitpos.toNat + codewordReads (.rice 0 4 4) ≤ s4.bitend.toNat
      ∧ s4.sampleCount.toNat - (s4.rdIdx.toNat + 1) < codewordValue (.rice 0 4 4) := by decide

/-- A residual code that ends RD_RUN, one that turns SF_RUN to its predictor part, and a zero-run code. -/
theorem test_meets_CodewordFrame :
    gives (exec .cwShortP2 (decoding false true 0 "110" 16 1)) (fun t => !t.fault && t.engine == .idle) = true
    ∧ gives (exec .cwShortP2 (decoding true true 0 "110" 16 1)) (fun t => !t.fault && t.engine == .predict true) = true
    ∧ gives (exec (.cwRiceP0 4 4) (inZeroRun false 10 "00100" 6)) (fun t => !t.fault && t.engine == .residual false) = true
    ∧ (decoding false true 0 "110" 16 1).fault = false ∧ (inZeroRun false 10 "00100" 6).fault = false := by decide

theorem test_meets_RefusedWhereNoMeaning :
    (block true).engine = .idle
    ∧ ({ block true with engine := .predict true } : State).engine = .predict true
    ∧ (let s := { decoding false true 3 "0" 16 1 with rdIdx := 1 };
      s.engine = .residual false ∧ s.sampleCount.toNat ≤ s.rdIdx.toNat)
    ∧ (let s := decoding false true 3 "0" 16 1;
      s.engine = .residual false ∧ s.rdIdx.toNat < s.sampleCount.toNat
        ∧ (Codeword.short 0).readUnder (rdK s) s.sampleSize.toNat = false
        ∧ (Codeword.esc 17 0).readUnder (rdK s) s.sampleSize.toNat = false)
    ∧ (let s := inZeroRun true 10 "0 0100" 4;
      s.engine = .zeroRun true ∧ rdZk s = .ok 4 ∧ (Codeword.rice 0 3 4).readUnder 4 16 = false)
    ∧ (let s := decoding false true 3 "0" 16 1;
      s.engine ≠ .idle ∧ Instr.nop.codeword? = none) := by decide

/-- The ranges of R90 at both ends, up to the largest HISTORY. -/
theorem test_meets_RiceParameterRanges :
    let s (h : Word) := { block true with history := h }
    (1 ≤ 1 ∧ 512 * (2 ^ 1 - 3) ≤ (s 0).history.toNat ∧ (s 511).history.toNat ≤ 512 * (2 ^ (1 + 1) - 3) - 1)
    ∧ (1 ≤ 2 ∧ 512 * (2 ^ 2 - 3) ≤ (s 512).history.toNat ∧ (s 2559).history.toNat ≤ 512 * (2 ^ (2 + 1) - 3) - 1)
    ∧ 512 * (2 ^ 23 - 3) ≤ (s 4294965760).history.toNat
      ∧ (s 0xFFFFFFFF).history.toNat ≤ 512 * (2 ^ (23 + 1) - 3) - 1 := by decide

theorem test_meets_ZeroRunParameterTable :
    ({ block true with history := 0 } : State).history.toNat < 128
    ∧ ({ block true with history := 127 } : State).history.toNat < 128 := by decide

/-- The largest value under a 31-bit field, with the modifier pending. -/
theorem test_meets_ResidualFitsEntry :
    let s := { stream true "1111111111111111111111111111111111111111" 31 1 with signModifier := true }
    23 ≤ 23 ∧ 31 ≤ 31 ∧ rdCode 23 31 s = .ok (2147483647, advance 40 s) := by decide

/-- The overflow needs an illegal HISTORY_MULT; then the two ranges of `u` where they meet. -/
theorem test_meets_HistoryUpdate :
    let s := { block true with historyMult := 0xFFFFFFFF }
    let s' := { block true with historyMult := 255, history := 0xFFFFFFFF }
    (2 ≤ 0xFFFF ∧ 2 ^ 32 - 1 < s.history.toNat + 2 * s.historyMult.toNat - (s.history.toNat * s.historyMult.toNat) / 512)
    ∧ 0xFFFF < 0x10000 ∧ s'.historyMult.toNat ≤ 255 ∧ 0xFFFF ≤ 0xFFFF ∧ 1 ≤ s'.history.toNat
    ∧ (rdHist 0xFFFF s').toOption.isSome = true := by decide

theorem test_meets_HistoryStaysBounded :
    let s := { block true with historyMult := 255, history := 33554431 }
    (s.historyMult.toNat ≤ 255 ∧ s.history.toNat ≤ historyBound)
    ∧ Ready (stream true "110" 16 1) ∧ (stream true "110" 16 1).initialHistory.toNat ≤ historyBound
    ∧ gives (exec .rdRun (stream true "1101" 16 1)) (fun t => !t.fault) = true
    ∧ gives (exec .sfRun (stream true "1101" 16 1)) (fun t => !t.fault) = true
    ∧ gives (exec .rdRun (stream true "110" 16 1)) (fun t => t.fault) = true := by decide

theorem test_meets_RdRunWritesWholeBlock :
    Ready (stream true "1101001" 16 4)
    ∧ gives (exec .rdRun (stream true "1101001" 16 4)) (fun t => !t.fault) = true := by decide

/-- 40 bits for one residual, exactly. -/
theorem test_meets_RdRunCompletesOnAmpleStream :
    let s := { stream true "1111111111111111111111111111111111111111" 31 1 with historyMult := 0, initialHistory := 128 }
    Ready s ∧ checkConfigRd s = .ok () ∧ s.historyMult = 0 ∧ 128 ≤ s.initialHistory.toNat
    ∧ s.bitpos.toNat + 40 * s.sampleCount.toNat ≤ s.bitend.toNat := by decide

theorem test_meets_RdRunCompletesOrValuesFault :
    let s := { stream true "" 16 1 with historyMult := 255, bitend := 80 }
    Ready s ∧ checkConfigRd s = .ok () ∧ s.bitpos.toNat + 80 * s.sampleCount.toNat ≤ s.bitend.toNat := by decide

theorem test_meets_RdRunOfNoneAndOne :
    let s := stream true "0001" 16 0
    let s' := stream true "1101" 16 1
    (Ready s ∧ checkConfigRd s = .ok () ∧ s.sampleCount = 0)
    ∧ Ready s' ∧ checkConfigRd s' = .ok () ∧ s'.sampleCount = 1
      ∧ rdCode (rdK (startRd s')) s'.sampleSize.toNat (startRd s') = .ok (2, advance 3 (startRd s')) := by decide

theorem test_meets_RunsAreTheirLoops :
    Ready (stream true "1101001" 16 4) ∧ Ready (predictor 2 2 [3, -1] [10, 2, 3, -4])
    ∧ gives (exec .rdRun (stream true "1101001" 16 4)) (fun t => !t.fault) = true
    ∧ gives (exec .prRun (predictor 2 2 [3, -1] [10, 2, 3, -4])) (fun t => !t.fault) = true := by decide

/-- The largest sum that fits, and the smallest that does not. -/
theorem test_meets_OrderZeroIsRunningSum :
    let s := predictor 0 15 [] [2147483647, 0]
    let s' := predictor 0 15 [] [2147483647, 1]
    (Ready s ∧ s.predType = 0 ∧ s.order = 0 ∧ s.qlpShift.toNat ≤ 15 ∧ s.sampleCount.toNat ≤ s.params.maxn
      ∧ ∀ j < s.sampleCount.toNat, fitsEntry (∑ i ∈ Finset.range (j + 1), resAt s i) = true)
    ∧ Ready s' ∧ s'.predType = 0 ∧ s'.order = 0
      ∧ ∃ j < s'.sampleCount.toNat, fitsEntry (∑ i ∈ Finset.range (j + 1), resAt s' i) = false := by decide

/-- V41: ORDER + 1 samples and no more. -/
theorem test_meets_WarmUpIsRunningSum :
    let s := predictor 3 0 [5, -6, 7] [1, 2, 3, 4]
    Ready s ∧ checkConfigPr s = .ok () ∧ s.sampleCount.toNat ≤ s.order.toNat + 1
    ∧ (∀ j < s.sampleCount.toNat, fitsEntry (∑ i ∈ Finset.range (j + 1), resAt s i) = true)
    ∧ gives (exec .prRun s) (fun t => !t.fault) = true := by decide

theorem test_meets_SteadySamplePrediction :
    let s := steady 2 2 3 [3, -1] [10, 2, 3, -4] [10, 12, 15]
    let s0 := steady 2 0 3 [3, -1] [10, 2, 3, -4] [10, 12, 15]
    let so := steady 1 1 2 [32767] [0, 0, 0] [0, 2147483647]
    (1 ≤ s.order.toNat ∧ s.order.toNat < s.prIdx.toNat ∧ s.qlpShift.toNat ≠ 0
      ∧ gives (match prStep s with | .ok t => .next t | .error _ => .refused .codewordNotDue) (fun t => smpAt t 3 == 9) = true)
    ∧ (1 ≤ s0.order.toNat ∧ s0.order.toNat < s0.prIdx.toNat ∧ s0.qlpShift.toNat = 0)
    ∧ (1 ≤ so.order.toNat ∧ so.order.toNat < so.prIdx.toNat ∧ so.qlpShift.toNat ≠ 0 ∧ prStep so = .error .sampleOvf)
    ∧ (let sc := steady 1 1 2 [32767] [0, -1, -1] [0, -1];
      1 ≤ sc.order.toNat ∧ sc.order.toNat < sc.prIdx.toNat ∧ sc.qlpShift.toNat ≠ 0 ∧ prStep sc = .error .coefOvf) := by decide

/-- A positive, a negative and a zero residual, before sample 3; then coefficients at the ends of the 16-bit range, where the
first visited one overflows, and where the one that would is not visited, the magnitude being consumed before it. -/
theorem test_meets_AdaptationVisitsUntilConsumed :
    let s (r : Int) := steady 2 2 3 [3, -1] [10, 2, 3, r] [10, 12, 15, 9]
    (1 ≤ (s 4).order.toNat ∧ (s 4).order.toNat ≤ 31 ∧ (s 4).order.toNat < 3)
    ∧ (prAdapt 3 10 (s 4)).toOption.isSome = true ∧ (prAdapt 3 10 (s (-4))).toOption.isSome = true
    ∧ (prAdapt 3 10 (s 0)).toOption.isSome = true
    ∧ (let up := steady 2 2 3 [0, 32767] [10, 2, 3, 4] [10, 12, 15, 9];
      1 ≤ up.order.toNat ∧ up.order.toNat < 3 ∧ consumed up 3 10 0 < |resAt up 3| ∧ prAdapt 3 10 up = .error .coefOvf)
    ∧ (let spared := steady 2 0 3 [32767, 0] [10, 2, 3, 2] [10, 12, 15, 9];
      |resAt spared 3| ≤ consumed spared 3 10 1 ∧ (prAdapt 3 10 spared).toOption.isSome = true) := by decide

theorem test_meets_ShiftZeroFaultsWhenUsed :
    let s := predictor 1 0 [4] [1, 2, 3]
    Ready s ∧ checkConfigPr s = .ok () ∧ s.qlpShift = 0 ∧ 1 ≤ s.order.toNat ∧ s.order.toNat + 1 < s.sampleCount.toNat
    ∧ ∀ j ≤ s.order.toNat, fitsEntry (∑ i ∈ Finset.range (j + 1), resAt s i) = true := by decide

theorem test_meets_PrRunFrame :
    Ready (predictor 2 2 [3, -1] [10, 2, 3, -4])
    ∧ gives (exec .prRun (predictor 2 2 [3, -1] [10, 2, 3, -4])) (fun t => !t.fault) = true := by decide

/-- Residuals that differ after entry 2 only. -/
theorem test_meets_SamplesDependOnEarlierResiduals :
    let s := predictor 2 2 [3, -1] [10, 2, 3, -4]
    let other := (predictor 2 2 [3, -1] [10, 2, 3, 9]).res
    Ready s ∧ (∀ j ≤ 2, resWord { s with res := other } j = resWord s j)
    ∧ gives (exec .prRun s) (fun t => !t.fault) = true
    ∧ gives (exec .prRun { s with res := other }) (fun t => !t.fault) = true ∧ 2 < s.sampleCount.toNat := by decide

theorem test_meets_SfRunIsRdRunThenPrRun :
    Ready (stream true "1101001" 16 4) ∧ gives (exec .sfRun (stream true "1101001" 16 4)) (fun t => !t.fault) = true := by decide

theorem test_meets_SfRunCompletesOnAmpleStream :
    let s := { stream true "" 31 1 with historyMult := 0, maximumK := 0, initialHistory := 128, bitend := 40, order := 31 }
    let s' := { stream true "" 4 2 with historyMult := 0, maximumK := 0, initialHistory := 128, bitend := 80 }
    (Ready s ∧ checkConfigRd s = .ok () ∧ checkConfigPr s = .ok () ∧ s.historyMult = 0 ∧ s.maximumK = 0
      ∧ 128 ≤ s.initialHistory.toNat ∧ s.sampleCount.toNat ≤ s.order.toNat + 1 ∧ 4 ≤ s.sampleSize.toNat
      ∧ s.sampleCount.toNat * 2 ^ (s.sampleSize.toNat - 1) < 2 ^ 31
      ∧ s.bitpos.toNat + 40 * s.sampleCount.toNat ≤ s.bitend.toNat)
    ∧ Ready s' ∧ checkConfigRd s' = .ok () ∧ checkConfigPr s' = .ok () ∧ s'.order = 0 ∧ 4 ≤ s'.sampleSize.toNat
      ∧ s'.bitpos.toNat + 40 * s'.sampleCount.toNat ≤ s'.bitend.toNat := by decide

theorem test_meets_SfRunChecksPredictorFirst :
    let s := { stream true "0" 16 1 with order := 32 }
    Ready s ∧ checkConfigRd s = .ok () ∧ checkConfigPr s = .error .format := by decide

theorem test_meets_WholeCommandIsItsSteps :
    let s := stream true "1101001" 16 4
    let none := stream true "" 16 0
    let p := predictor 2 2 [3, -1] [10, 2, 3, -4]
    (Ready s ∧ checkConfigRd s = .ok () ∧ checkConfigPr s = .ok ())
    ∧ (Ready none ∧ checkConfigRd none = .ok () ∧ checkConfigPr none = .ok ()) ∧ Ready p ∧ checkConfigPr p = .ok () := by
  decide

theorem test_meets_NopChangesNothing :
    faulted.engine = .idle ∧ Ready (block true) ∧ Instr.softReset ∈ [Instr.rdRun, .prRun, .sfRun, .clrFault, .softReset] := by decide

/-- CLR_FAULT and SOFT_RESET, faulted or not. -/
theorem test_meets_ClrFaultClearsStatus : faulted.engine = .idle ∧ (block true).engine = .idle := by decide
theorem test_meets_SoftResetZeroesRegisters : faulted.engine = .idle ∧ (predictor 2 2 [3, -1] [10]).engine = .idle := by decide

/-- The least and the greatest reserved word, FAULT 0 and 1. -/
theorem test_meets_ReservedWordRaisesBadCmd :
    ((block true).engine = .idle ∧ (block true).fault = false ∧ 5 < (6 : Word).toNat)
    ∧ faulted.engine = .idle ∧ faulted.fault = true ∧ 5 < (0xFFFFFFFF : Word).toNat := by decide

theorem test_meets_FaultHoldsCommandsBack :
    faulted.engine = .idle ∧ faulted.fault = true
    ∧ ∀ i ∈ [Instr.nop, .rdRun, .prRun, .sfRun, .reservedCmd 7], i.codeword? = none ∧ i ≠ .clrFault ∧ i ≠ .softReset := by decide

/-- Each working command, ending either way. -/
theorem test_meets_WorkingCommandEnds :
    Ready (stream true "1101001" 16 4) ∧ Ready (stream true "1101001" 16 3) ∧ Ready (predictor 1 0 [4] [1, 2, 3])
    ∧ gives (exec .rdRun (stream true "1101001" 16 4)) (fun t => t.done) = true
    ∧ gives (exec .rdRun (stream true "1101001" 16 3)) (fun t => t.fault) = true
    ∧ gives (exec .sfRun (stream true "1101001" 16 3)) (fun t => t.fault) = true
    ∧ gives (exec .prRun (predictor 1 0 [4] [1, 2, 3])) (fun t => t.fault) = true := by decide

/-- A fault at command start and one in mid-command. -/
theorem test_meets_FaultLeavesTheRest :
    Ready (predictor 32 0 [4] [1, 2, 3]) ∧ Ready (stream true "1101001" 16 3) ∧ Ready (predictor 1 0 [4] [1, 2, 3])
    ∧ gives (exec .prRun (predictor 32 0 [4] [1, 2, 3])) (fun t => t.fault && t.faultCode == 2) = true
    ∧ gives (exec .rdRun (stream true "1101001" 16 3)) (fun t => t.fault && t.faultCode == 5) = true
    ∧ gives (exec .sfRun (stream true "1101001" 16 3)) (fun t => t.fault && t.faultCode == 5) = true
    ∧ gives (exec .prRun (predictor 1 0 [4] [1, 2, 3])) (fun t => t.fault && t.faultCode == 7) = true := by decide

theorem test_meets_PrRunConfigurationOrder :
    let s := block true
    (Ready { s with predType := 16 } ∧ 15 < { s with predType := 16 }.predType.toNat)
    ∧ (Ready { s with predType := 1 } ∧ 1 ≤ { s with predType := 1 }.predType.toNat)
    ∧ (Ready { s with predType := 15 } ∧ { s with predType := 15 }.predType.toNat ≤ 15)
    ∧ (Ready { s with order := 32 } ∧ { s with order := 32 }.predType = 0 ∧ 31 < { s with order := 32 }.order.toNat)
    ∧ (Ready { s with order := 31, qlpShift := 16 } ∧ { s with order := 31, qlpShift := 16 }.order.toNat ≤ 31
      ∧ 15 < { s with order := 31, qlpShift := 16 }.qlpShift.toNat)
    ∧ Ready { s with qlpShift := 15, sampleCount := 4097 } ∧ { s with qlpShift := 15, sampleCount := 4097 }.qlpShift.toNat ≤ 15
      ∧ s.params.maxn < { s with qlpShift := 15, sampleCount := 4097 }.sampleCount.toNat := by decide
/-- V48: a coefficient just outside 16 bits below ORDER (clause six), and the same one at ORDER (clause seven); the two
largest legal ones. -/
theorem test_meets_PrRunConfigurationOrder_coef :
    let below := { predictor 2 15 [0, 32768] [1] with sampleCount := 4096 }
    let under := predictor 2 15 [-32769, 0] [1]
    let at_order := predictor 2 1 [32767, -32768, 32768] [1]
    (Ready below ∧ below.predType = 0 ∧ below.order.toNat ≤ 31 ∧ below.qlpShift.toNat ≤ 15
      ∧ below.sampleCount.toNat ≤ below.params.maxn ∧ 1 < below.order.toNat ∧ 32767 < coefAt below 1)
    ∧ (Ready under ∧ 0 < under.order.toNat ∧ coefAt under 0 < -32768)
    ∧ Ready at_order ∧ at_order.predType = 0 ∧ at_order.order.toNat ≤ 31 ∧ at_order.qlpShift.toNat ≤ 15
      ∧ at_order.sampleCount.toNat ≤ at_order.params.maxn ∧ 32767 < coefAt at_order 2
      ∧ ∀ j, j < at_order.order.toNat → ¬(coefAt at_order j < -32768 ∨ 32767 < coefAt at_order j) := by decide

/-- Each register just outside its range. -/
theorem test_meets_RdRunConfiguration :
    let s := stream true "00000000" 16 1
    (Ready { s with historyMult := 256 } ∧ 255 < { s with historyMult := 256 }.historyMult.toNat)
    ∧ (Ready { s with maximumK := 256 } ∧ 255 < { s with maximumK := 256 }.maximumK.toNat)
    ∧ (Ready { s with sampleSize := 0 } ∧ { s with sampleSize := 0 }.sampleSize.toNat < 1)
    ∧ (Ready { s with sampleSize := 32 } ∧ 31 < { s with sampleSize := 32 }.sampleSize.toNat)
    ∧ (Ready { s with sampleCount := 4097 } ∧ s.params.maxn < { s with sampleCount := 4097 }.sampleCount.toNat)
    ∧ (Ready { s with bitend := 524289 } ∧ 8 * s.params.bsbytes < { s with bitend := 524289 }.bitend.toNat)
    ∧ Ready { s with bitpos := 9 } ∧ { s with bitpos := 9 }.bitend.toNat < { s with bitpos := 9 }.bitpos.toNat := by decide

theorem test_meets_RiceModifierHasNoEffect :
    Instr.sfRun ≠ .softReset
    ∧ gives (exec .sfRun { stream true "1101001" 16 4 with riceModifier := 4 }) (fun t => t.done) = true := by decide

theorem test_meets_InstructionsKeepStreamAndParameters :
    gives (exec .softReset faulted) (fun t => t.fault == false) = true
    ∧ gives (exec .sfRun (stream true "1101001" 16 4)) (fun t => t.done) = true ∧ Instr.sfRun ≠ .softReset := by decide

theorem test_meets_RdRunIgnoresPredictorState :
    gives (exec .rdRun (stream true "1101001" 16 4)) (fun t => t.done) = true
    ∧ gives (exec .rdRun (stream true "1101001" 16 3)) (fun t => t.fault) = true := by decide

theorem test_meets_PrRunIgnoresStreamState :
    gives (exec .prRun (predictor 2 2 [3, -1] [10, 2, 3, -4])) (fun t => t.done) = true
    ∧ gives (exec .prRun (predictor 1 0 [4] [1, 2, 3])) (fun t => t.fault) = true := by decide

/-- The invariant at a faulted block, at a block with a host access to serve, and before a codeword and a sample. -/
theorem test_inv_faulted : Inv faulted := by constructor <;> first | decide | trivial
theorem test_meets_StepKeepsInvariant_serve :
    Inv { faulted with host := [.wres 4095 7] }
    ∧ gives (step { faulted with host := [.wres 4095 7] }) (fun t => resWord t 4095 == 7) = true :=
  ⟨by constructor <;> first | decide | trivial, by decide⟩
theorem test_meets_StepKeepsInvariant_residual :
    Inv { stream true "1101001" 16 4 with engine := .residual true }
    ∧ gives (step { stream true "1101001" 16 4 with engine := .residual true }) (fun t => t.engine == .zeroRun true) = true :=
  ⟨by constructor <;> first | decide | (unfold RunningOk; decide), by decide⟩
theorem test_meets_StepKeepsInvariant_zeroRun :
    Inv (inZeroRun false 10 "0 0100" 6)
    ∧ gives (step (inZeroRun false 10 "0 0100" 6)) (fun t => t.engine == .residual false) = true :=
  ⟨by constructor <;> first | decide | exact ⟨rfl, rfl, by decide, by decide, by decide⟩, by decide⟩
theorem test_meets_StepKeepsInvariant_predict :
    Inv { predictor 2 2 [3, -1] [10, 2, 3, -4] with engine := .predict false }
    ∧ gives (step { predictor 2 2 [3, -1] [10, 2, 3, -4] with engine := .predict false }) (fun t => t.prIdx == 1) = true :=
  ⟨by constructor <;> first | decide | (unfold RunningOk; decide), by decide⟩

theorem test_meets_CommandsAreAtomic :
    let s := { stream true "1101001" 16 4 with host := [.wr 0 1] }
    s.engine = .idle ∧ gives (step s) (fun t => t.done) = true := by decide

theorem test_meets_StepRunsDecodedInstruction :
    (let s := { block true with host := [.wr 0 6] };
      s.engine = .idle ∧ s.host = .wr 0 6 :: [])
    ∧ (let s := decoding true true 3 "110 101" 16 1;
      s.engine = .residual true ∧ s.rdIdx.toNat < s.sampleCount.toNat
        ∧ decodeCodeword (rdK s) s.sampleSize.toNat (streamWindow s (rdK s) s.sampleSize.toNat) = .ok (.cwRiceP2 3 5, []))
    ∧ (let s := inZeroRun false 10 "0 0100" 4;
      s.engine = .zeroRun false ∧ rdZk s = .ok 4
        ∧ decodeCodeword 4 16 (streamWindow s 4 16) = .ok (.cwRiceP0 4 4, []))
    ∧ (block true).engine = .idle ∧ (block true).host = [] := by decide

/-- COEF[31] at 0x0FC, and ORDER with a word out of its range, FAULT or not. -/
theorem test_meets_RegisterReadsBackWordWritten :
    (let s := { faulted with host := [.wr 0x0FC 0xFFFFFFFF, .rd 0x0FC] };
      s.engine = .idle ∧ regAt 0x0FC = some (.coef 31) ∧ writable (.coef 31) = true
        ∧ s.host = .wr 0x0FC 0xFFFFFFFF :: .rd 0x0FC :: [])
    ∧ (let s := { block true with host := [.wr 0x03C 40, .rd 0x03C] };
      s.engine = .idle ∧ regAt 0x03C = some .order ∧ writable .order = true ∧ s.host = .wr 0x03C 40 :: .rd 0x03C :: []) := by
  decide

/-- STATUS, an unused offset, a misaligned one, the first one past the registers. -/
theorem test_meets_RefusedRegisterWriteHasNoEffect :
    (regAt 0x004 = some .status ∧ writable .status = false) ∧ regAt 0x00C = none ∧ regAt 0x011 = none ∧ regAt 0x100 = none
    ∧ ∀ off ∈ [0x004, 0x00C, 0x011, 0x100], off ≠ 0 ∧ ({ faulted with host := [.wr off 1] } : State).engine = .idle
      ∧ ({ faulted with host := [.wr off 1] } : State).host = .wr off 1 :: [] := by decide

theorem test_meets_ReadsAreIdempotent :
    (0x0FC % 4 = 0 ∧ 0x0FC ≤ 0x0FC) ∧ (0x000 % 4 = 0 ∧ 0x000 ≤ 0x0FC) ∧ 4095 < (block true).params.maxn
    ∧ 65535 < (block true).params.bsbytes
    ∧ ∀ a ∈ [HostAccess.rd 0x0FC, .rd 0x000, .rres 4095, .rsmp 4095, .rbs 65535],
      ({ faulted with host := [a, a] } : State).engine = .idle ∧ ({ faulted with host := [a, a] } : State).host = a :: a :: [] := by
  decide

/-- The last entry that exists and the first that does not. -/
theorem test_meets_ResidualBufferAccess :
    4095 < (block true).params.maxn ∧ (block true).params.maxn ≤ 4096
    ∧ ∀ a ∈ [HostAccess.wres 4095 1, .wres 4096 1, .wsmp 4095 1],
      ({ faulted with host := [a] } : State).engine = .idle ∧ ({ faulted with host := [a] } : State).host = a :: [] := by decide

theorem test_meets_ByteWriteSetsStreamBits :
    65535 < (block true).params.bsbytes ∧ (block true).params.bsbytes ≤ 65536
    ∧ ∀ a ∈ [65535, 65536], ({ faulted with host := [.wbs a 0xB4] } : State).engine = .idle
      ∧ ({ faulted with host := [.wbs a 0xB4] } : State).host = .wbs a 0xB4 :: [] := by decide

theorem test_meets_StatusReadsDoneAndFault :
    ({ faulted with host := [.rd 4] } : State).engine = .idle ∧ ({ faulted with host := [.rd 4] } : State).host = .rd 0x004 :: [] := by
  decide

end Sys2Proof.Tests
end

section
/-! PROOFS. RICE_MODIFIER has no effect (R26): storing any word in it commutes with every instruction but SOFT_RESET. -/

namespace Sys2Proof.Machine

/-! ### A change neither part of the engine sees commutes with a whole block -/

variable {f : State → State}

theorem RdBlind.rdBlock (h : RdBlind f) (hstart : ∀ s, startRd (f s) = f (startRd s)) (s : State) :
    rdBlock (f s) = (rdBlock s).map f := by
  rw [Machine.rdBlock, h.sampleCount, hstart, h.rdLoop, ← Machine.rdBlock]

theorem PrBlind.prBlock (h : PrBlind f) (hres : ∀ s, (f s).res = s.res)
    (hstart : ∀ s, startPr (f s) = f (startPr s)) (s : State) : prBlock (f s) = (prBlock s).map f := by
  rw [Machine.prBlock, h.sampleCount, hstart, h.prLoop hres, ← Machine.prBlock]

theorem RdBlind.rdRunBody (h : RdBlind f) (hstart : ∀ s, startRd (f s) = f (startRd s))
    (hfinish : ∀ s, finish (f s) = f (finish s)) (s : State) : rdRunBody (f s) = (rdRunBody s).map f := by
  rw [rdRunBody_eq, rdRunBody_eq, h.checkConfigRd, h.rdBlock hstart]
  cases Machine.checkConfigRd s with
  | error e => rfl
  | ok u =>
    cases Machine.rdBlock s with
    | error e => rfl
    | ok t => exact congrArg Except.ok (hfinish t)

theorem PrBlind.prRunBody (h : PrBlind f) (hres : ∀ s, (f s).res = s.res)
    (hcheck : ∀ s, checkConfigPr (f s) = checkConfigPr s) (hstart : ∀ s, startPr (f s) = f (startPr s))
    (hfinish : ∀ s, finish (f s) = f (finish s)) (s : State) : prRunBody (f s) = (prRunBody s).map f := by
  rw [prRunBody_eq, prRunBody_eq, hcheck, h.prBlock hres hstart]
  cases checkConfigPr s with
  | error e => rfl
  | ok u =>
    cases Machine.prBlock s with
    | error e => rfl
    | ok t => exact congrArg Except.ok (hfinish t)

/-- SF_RUN by its parts (R131): both checks, the residual block, then what PR_RUN does after its check. -/
theorem sfRunBody_eq (s : State) :
    sfRunBody s = (checkConfigRd s).bind fun _ => (checkConfigPr s).bind fun _ =>
      (rdBlock s).bind fun t => (prBlock t).map finish := by
  unfold sfRunBody
  cases checkConfigRd s with
  | error e => rfl
  | ok u =>
    cases checkConfigPr s with
    | error e => rfl
    | ok u =>
      cases rdBlock s with
      | error e => rfl
      | ok t => cases prBlock t <;> rfl

/-! ### Storing a word in RICE_MODIFIER -/

/-- `RICE_MODIFIER <- w`. -/
def setRiceModifier (w : Word) (s : State) : State := { s with riceModifier := w }

@[simp] theorem setRiceModifier_riceModifier (w : Word) (s : State) : (setRiceModifier w s).riceModifier = w := rfl
@[simp] theorem setRiceModifier_self (s : State) : setRiceModifier s.riceModifier s = s := rfl
@[simp] theorem setRiceModifier_engine (w : Word) (s : State) : (setRiceModifier w s).engine = s.engine := rfl
@[simp] theorem setRiceModifier_fault (w : Word) (s : State) : (setRiceModifier w s).fault = s.fault := rfl

theorem rdBlind_setRiceModifier (w : Word) : RdBlind (setRiceModifier w) := by constructor <;> intros <;> rfl
theorem prBlind_setRiceModifier (w : Word) : PrBlind (setRiceModifier w) := by constructor <;> intros <;> rfl

theorem checkConfigPr_setRiceModifier (w : Word) (s : State) : checkConfigPr (setRiceModifier w s) = checkConfigPr s :=
  checkConfigPr_congr rfl rfl rfl rfl rfl rfl

theorem enterFault_setRiceModifier (run : Run) (e : BlockFault) (w : Word) (s : State) :
    enterFault run e (setRiceModifier w s) = setRiceModifier w (enterFault run e s) := by
  unfold enterFault
  cases midCommand e <;> rfl

theorem settle_setRiceModifier (run : Run) (w : Word) (s : State) (r : Except BlockFault State) :
    settle run (setRiceModifier w s) (r.map (setRiceModifier w)) = setRiceModifier w (settle run s r) := by
  cases r with
  | ok t => rfl
  | error e => exact enterFault_setRiceModifier run e w s

theorem rdRunBody_setRiceModifier (w : Word) (s : State) :
    rdRunBody (setRiceModifier w s) = (rdRunBody s).map (setRiceModifier w) :=
  (rdBlind_setRiceModifier w).rdRunBody (fun _ => rfl) (fun _ => rfl) s

theorem prRunBody_setRiceModifier (w : Word) (s : State) :
    prRunBody (setRiceModifier w s) = (prRunBody s).map (setRiceModifier w) :=
  (prBlind_setRiceModifier w).prRunBody (fun _ => rfl) (checkConfigPr_setRiceModifier w) (fun _ => rfl) (fun _ => rfl) s

theorem sfRunBody_setRiceModifier (w : Word) (s : State) :
    sfRunBody (setRiceModifier w s) = (sfRunBody s).map (setRiceModifier w) := by
  rw [sfRunBody_eq, sfRunBody_eq, (rdBlind_setRiceModifier w).checkConfigRd, checkConfigPr_setRiceModifier,
    (rdBlind_setRiceModifier w).rdBlock fun _ => rfl]
  cases checkConfigRd s with
  | error e => rfl
  | ok u =>
    cases checkConfigPr s with
    | error e => rfl
    | ok u =>
      cases rdBlock s with
      | error e => rfl
      | ok t =>
        simp only [Except.bind, Except.map]
        rw [(prBlind_setRiceModifier w).prBlock (fun _ => rfl) fun _ => rfl]
        cases prBlock t <;> rfl

/-! ### Outcomes -/

/-- A change of the next state; a stop stays as it is. -/
def mapNext (f : State → State) (o : Host.Outcome State Fault Refusal) : Host.Outcome State Fault Refusal :=
  match o with
  | .next t => .next (f t)
  | .fault r => .fault r
  | .refused r => .refused r

theorem ifAccepted_setRiceModifier (w : Word) (s e : State) :
    ifAccepted (setRiceModifier w s) (setRiceModifier w e) = mapNext (setRiceModifier w) (ifAccepted s e) := by
  unfold ifAccepted busy
  rw [setRiceModifier_engine, setRiceModifier_fault]
  split
  · rfl
  · split <;> rfl

theorem ifIdle_setRiceModifier (w : Word) (s e : State) :
    ifIdle (setRiceModifier w s) (setRiceModifier w e) = mapNext (setRiceModifier w) (ifIdle s e) := by
  unfold ifIdle busy
  rw [setRiceModifier_engine]
  split <;> rfl

/-- A working command whose body commutes with a store to RICE_MODIFIER does so itself. -/
theorem workingCommand_setRiceModifier {body : State → Except BlockFault State} (run : Run) (w : Word)
    (hbody : ∀ s, body (setRiceModifier w s) = (body s).map (setRiceModifier w)) (s : State) :
    ifAccepted (setRiceModifier w s)
        (settle run (clearDone (setRiceModifier w s)) (body (clearDone (setRiceModifier w s))))
      = mapNext (setRiceModifier w) (ifAccepted s (settle run (clearDone s) (body (clearDone s)))) := by
  have hclear : clearDone (setRiceModifier w s) = setRiceModifier w (clearDone s) := rfl
  rw [hclear, hbody, settle_setRiceModifier, ifAccepted_setRiceModifier]

/-! ### Codewords -/

theorem afterResidual_setRiceModifier (sf : Bool) (w : Word) (s : State) :
    afterResidual sf (setRiceModifier w s) = setRiceModifier w (afterResidual sf s) := by
  unfold afterResidual
  dsimp only
  rw [apply_ite (setRiceModifier w)]
  cases sf <;> rfl

theorem afterResidualCode_setRiceModifier (sf : Bool) (v : Nat) (w : Word) (s : State) :
    afterResidualCode sf v (setRiceModifier w s) = setRiceModifier w (afterResidualCode sf v s) := by
  unfold afterResidualCode
  rw [(rdBlind_setRiceModifier w).useResidual]
  cases useResidual v s with
  | error e => exact enterFault_setRiceModifier _ e w s
  | ok t =>
    simp only [Except.map, (rdBlind_setRiceModifier w).zeroRunDue, afterResidual_setRiceModifier]
    split <;> rfl

theorem afterZeroRunCode_setRiceModifier (sf : Bool) (z : Nat) (w : Word) (s : State) :
    afterZeroRunCode sf z (setRiceModifier w s) = setRiceModifier w (afterZeroRunCode sf z s) := by
  unfold afterZeroRunCode
  rw [(rdBlind_setRiceModifier w).useZeroRun]
  cases useZeroRun z s with
  | error e => exact enterFault_setRiceModifier _ e w s
  | ok t => exact afterResidual_setRiceModifier sf w t

theorem readCodeword_setRiceModifier {use : Nat → State → State} {w : Word}
    (huse : ∀ v s, use v (setRiceModifier w s) = setRiceModifier w (use v s)) (run : Run) (k n : Nat) (c : Codeword)
    (s : State) :
    readCodeword run k n c use (setRiceModifier w s) = mapNext (setRiceModifier w) (readCodeword run k n c use s) := by
  have h := rdBlind_setRiceModifier w
  unfold readCodeword
  rw [h.bitpos, h.bitend, h.params, h.advance, huse, enterFault_setRiceModifier]
  split
  · split <;> rfl
  · rfl

theorem codeword_setRiceModifier (c : Codeword) (w : Word) (s : State) :
    codeword c (setRiceModifier w s) = mapNext (setRiceModifier w) (codeword c s) := by
  have h := rdBlind_setRiceModifier w
  have hk : rdK (setRiceModifier w s) = rdK s := rfl
  unfold codeword
  rw [setRiceModifier_engine, h.rdIdx, h.sampleCount, h.sampleSize, h.rdZk, hk]
  cases s.engine with
  | idle => rfl
  | predict sf => rfl
  | residual sf =>
    dsimp only
    split
    · exact readCodeword_setRiceModifier (afterResidualCode_setRiceModifier sf · w) ..
    · rfl
  | zeroRun sf =>
    cases rdZk s with
    | error e => exact congrArg Host.Outcome.next (enterFault_setRiceModifier _ e w s)
    | ok zk => exact readCodeword_setRiceModifier (afterZeroRunCode_setRiceModifier sf · w) ..

/-! ### Every instruction -/

/-- R26: an instruction other than SOFT_RESET commutes with a store to RICE_MODIFIER. -/
theorem exec_setRiceModifier {i : Instr} (hi : i ≠ .softReset) (w : Word) (s : State) :
    exec i (setRiceModifier w s) = mapNext (setRiceModifier w) (exec i s) := by
  cases hc : i.codeword? with
  | some c => rw [exec_codeword hc, exec_codeword hc, codeword_setRiceModifier]
  | none =>
    cases i with
    | nop => exact ifAccepted_setRiceModifier w s s
    | rdRun => exact workingCommand_setRiceModifier .rd w (rdRunBody_setRiceModifier w) s
    | prRun => exact workingCommand_setRiceModifier .pr w (prRunBody_setRiceModifier w) s
    | sfRun => exact workingCommand_setRiceModifier .sf w (sfRunBody_setRiceModifier w) s
    | clrFault => exact ifIdle_setRiceModifier w s (clearFault s)
    | softReset => exact absurd rfl hi
    | reservedCmd x => exact ifAccepted_setRiceModifier w s (recordFault .badCmd s)
    | _ => nomatch hc

/-- An instruction other than SOFT_RESET leaves RICE_MODIFIER as it is: storing in it the word it holds changes nothing. -/
theorem exec_riceModifier {i : Instr} (hi : i ≠ .softReset) {s t : State} (h : exec i s = .next t) :
    t.riceModifier = s.riceModifier := by
  have hcomm := exec_setRiceModifier hi s.riceModifier s
  rw [setRiceModifier_self, h] at hcomm
  have ht : t = setRiceModifier s.riceModifier t := Host.Outcome.next.inj hcomm
  rw [ht, setRiceModifier_riceModifier]

/-- Settles O46: by commutation with a store to RICE_MODIFIER; the register's offset, access and reset value are read off
their tables. -/
theorem riceModifierHasNoEffect : Obligations.RiceModifierHasNoEffect := by
  unfold Obligations.RiceModifierHasNoEffect
  exact ⟨fun i s w hi => exec_setRiceModifier hi w s, fun i s t hi h => exec_riceModifier hi h, rfl, rfl, rfl⟩

end Sys2Proof.Machine
end

section
/-! PROOFS. Reserved command words (R62, R173): which words they are, and what one written to CMD does. -/

namespace Sys2Proof.Machine

/-- R62: a word is decoded as a reserved command, and then as itself, exactly when it is none of the six. -/
theorem decodeCommand_eq_reservedCmd_iff (w v : Word) : decodeCommand w = .reservedCmd v ↔ v = w ∧ 5 < w.toNat := by
  unfold decodeCommand
  split
  case h_7 =>
    have hw : 5 < w.toNat := by grind
    simp [hw, eq_comm]
  all_goals simp [*]

/-- With no command running, recording a fault changes FAULT and FAULT_CODE alone. -/
theorem recordFault_of_idle {s : State} (hi : s.engine = .idle) (e : BlockFault) :
    recordFault e s = { s with fault := true, faultCode := faultCodeOf e } := by
  rw [recordFault, ← hi]

/-- R173: a reserved word accepted with FAULT 0 raises E_BAD_CMD. -/
theorem exec_reservedCmd_ready {s : State} (h : Ready s) (w : Word) :
    exec (.reservedCmd w) s = .next (recordFault .badCmd s) :=
  ifAccepted_ready h

/-- R177: while FAULT is 1 a reserved word is ignored. -/
theorem exec_reservedCmd_fault {s : State} (hi : s.engine = .idle) (hf : s.fault = true) (w : Word) :
    exec (.reservedCmd w) s = .next s :=
  ifAccepted_fault hi hf

/-- Settles O40: the words by `decodeCommand_eq_reservedCmd_iff`, the effect by the two cases of FAULT. -/
theorem reservedWordRaisesBadCmd : Obligations.ReservedWordRaisesBadCmd := by
  unfold Obligations.ReservedWordRaisesBadCmd
  refine ⟨decodeCommand_eq_reservedCmd_iff, fun s w hi _ => ⟨fun hf => ?_, fun hf => exec_reservedCmd_fault hi hf w⟩⟩
  rw [exec_reservedCmd_ready ⟨hi, hf⟩, recordFault_of_idle hi]
  rfl

end Sys2Proof.Machine
end

section
/-! PROOFS. Residuals (R92 to R95): the sign modifier, the sign folding and its inverse, and that a residual fits its entry. -/

namespace Sys2Proof.Machine

/-! ### The sign folding -/

/-- The unsigned integer that encodes a signed residual: the inverse of RD.MAP (R68). -/
def rdUnmap (r : Int) : Nat := if 0 ≤ r then (2 * r).toNat else (-2 * r - 1).toNat

theorem rdMap_of_odd {u : Nat} (h : u % 2 = 1) : rdMap u = -(((u + 1) / 2 : Nat) : Int) := if_pos h

theorem rdMap_of_even {u : Nat} (h : u % 2 = 0) : rdMap u = ((u / 2 : Nat) : Int) := if_neg (by omega)

theorem rdMap_rdUnmap (r : Int) : rdMap (rdUnmap r) = r := by
  unfold rdUnmap
  split
  · rw [rdMap_of_even (by omega)]; omega
  · rw [rdMap_of_odd (by omega)]; omega

theorem rdUnmap_rdMap (u : Nat) : rdUnmap (rdMap u) = u := by
  unfold rdUnmap
  rcases Nat.mod_two_eq_zero_or_one u with h | h
  · rw [rdMap_of_even h, if_pos (by omega)]; omega
  · rw [rdMap_of_odd h, if_neg (by omega)]; omega

/-- Settles O17: RD.SM by the value of the modifier, RD.MAP by parity, and the two laws of the inverse. -/
theorem signModifierAndFolding : Obligations.SignModifierAndFolding := by
  unfold Obligations.SignModifierAndFolding
  refine ⟨fun v s => ?_, fun u => ⟨rdMap_of_odd, rdMap_of_even⟩, rdMap_rdUnmap, rdUnmap_rdMap⟩
  cases hm : s.signModifier <;> simp [rdSm, clearSm, hm]

/-! ### The store -/

theorem resAt_setRes {s : State} {i : Nat} {r : Int} (h : fitsEntry r = true) : resAt (setRes s i r) i = r := by
  simp only [resAt, resWord, setRes_res, Memory.get?_set_same, Option.getD_some, toInt_ofInt_of_fits h]

theorem resWord_setRes_other {s : State} {i j : Nat} {r : Int} (h : j ≠ i) : resWord (setRes s i r) j = resWord s j := by
  simp only [resWord, setRes_res, Memory.get?_set_other _ _ h]

/-! ### The range -/

/-- RD.CODE under the parameters of a residual code gives a value below `2^31` (R91). -/
theorem rdCode_value_lt {k w v : Nat} {s t : State} (hk : k ≤ 23) (hw : w ≤ 31) (h : rdCode k w s = .ok (v, t)) :
    v < 2 ^ 31 := by
  rcases rdCode_cases k w s with herr | ⟨v', n, hok, -, -, -, hv, -⟩
  · simp [herr] at h
  · obtain ⟨rfl, -⟩ : v' = v ∧ advance n s = t := by simpa [hok] using h
    exact value_lt hk hw hv

/-- RD.SM adds at most 1 (R92). -/
theorem rdSm_value_le (v : Nat) (s : State) : (rdSm v s).1 ≤ v + 1 :=
  Nat.add_le_add_left (Bool.toNat_le s.signModifier) v

theorem fitsEntry_of_range {r : Int} (h1 : -2 ^ 30 ≤ r) (h2 : r ≤ 2 ^ 30) : fitsEntry r = true := by
  simp only [fitsEntry, Bool.and_eq_true, decide_eq_true_eq]
  omega

/-- Settles O18: the value is at most `2^31` by `rdCode_value_lt`, so its residual is in the range of `rdMap_range`, and a
residual of that range is read back from its entry. -/
theorem residualFitsEntry : Obligations.ResidualFitsEntry := by
  unfold Obligations.ResidualFitsEntry
  intro k w v j s t hk hw hcode
  have hu : (rdSm v t).1 ≤ 2 ^ 31 := (rdSm_value_le v t).trans (rdCode_value_lt hk hw hcode)
  obtain ⟨hlow, hhigh⟩ := rdMap_range hu
  exact ⟨hu, hlow, hhigh, resAt_setRes (fitsEntry_of_range hlow hhigh), fun _ hj => resWord_setRes_other hj, rfl⟩

end Sys2Proof.Machine
end

section
/-! PROOFS. The bound on HISTORY (R102): RD.HIST keeps it, and so does every way a whole RD_RUN or SF_RUN can end. -/

namespace Sys2Proof.Machine

/-- RD.HIST under the bound completes and keeps it. -/
theorem rdHist_bounded (u : Nat) {s : State} (hm : s.historyMult.toNat ≤ 255) (hh : s.history.toNat ≤ historyBound) :
    ∃ t, rdHist u s = .ok t ∧ t.history.toNat ≤ historyBound := by
  refine ⟨_, rdHist_ok hm, ?_⟩
  rw [setHistory_history]
  split
  · rw [BitVec.toNat_ofNat]
    exact (Nat.mod_le _ _).trans (history_bound hm hh ‹_›)
  · decide

/-! ### How the body of a command ends -/

/-- What R102 says of the end of a command started in `s`: a fault is not E_HIST_OVF; a completed command has raised no
fault and, from INITIAL_HISTORY within the bound, left HISTORY within it. -/
def EndsBounded (s : State) : Except BlockFault State → Prop
  | .error e => e ≠ .histOvf
  | .ok t => t.fault = s.fault ∧ (s.initialHistory.toNat ≤ historyBound → t.history.toNat ≤ historyBound)

theorem checkConfigPr_ne_histOvf (s : State) : checkConfigPr s ≠ .error .histOvf := by
  rcases checkConfigPr_cases s with h | h | h | h <;> simp [h]

theorem rdBlock_endsBounded {s : State} (hc : checkConfigRd s = .ok ()) : EndsBounded s (rdBlock s) := by
  obtain ⟨hmult, -, -, hsize, -⟩ := checkConfigRd_ok hc
  obtain ⟨hovf, hbound⟩ := rdLoop_bounded s.sampleCount.toNat (s := startRd s) hmult hsize
  cases h : rdBlock s with
  | error e => exact fun he => hovf (he ▸ h)
  | ok t =>
    have hfault : t.fault = s.fault := by rw [(rdBlock_moved hc h).1.frame]; rfl
    exact ⟨hfault, fun hh => hbound hh t h⟩

/-- The predictor raises faults of its own only, and leaves HISTORY alone (R118). -/
theorem prBlock_endsBounded {s m : State} (hm : EndsBounded s (.ok m)) : EndsBounded s (prBlock m) := by
  cases h : prBlock m with
  | error e => rcases prLoop_error _ h with rfl | rfl | rfl <;> exact BlockFault.noConfusion
  | ok t =>
    obtain ⟨hfault, hbound⟩ := hm
    have hframe := (prBlock_moved h).1.frame
    have hf : t.fault = m.fault := by rw [hframe]; rfl
    have hh : t.history = m.history := by rw [hframe]; rfl
    exact ⟨hf.trans hfault, fun hs => hh ▸ hbound hs⟩

theorem finish_endsBounded {s : State} {r : Except BlockFault State} (h : EndsBounded s r) :
    EndsBounded s (r.map finish) := by
  cases r <;> exact h

theorem rdRunBody_endsBounded (s : State) : EndsBounded s (rdRunBody s) := by
  rw [rdRunBody_eq]
  rcases checkConfigRd_cases s with hc | hc <;> rw [hc]
  · exact finish_endsBounded (rdBlock_endsBounded hc)
  · exact BlockFault.noConfusion

theorem sfRunBody_endsBounded (s : State) : EndsBounded s (sfRunBody s) := by
  rw [sfRunBody_eq]
  rcases checkConfigRd_cases s with hc | hc <;> rw [hc]
  · cases hp : checkConfigPr s with
    | error e => exact fun he => checkConfigPr_ne_histOvf s (he ▸ hp)
    | ok _ =>
      have hrd := rdBlock_endsBounded hc
      cases hb : rdBlock s with
      | error e => rw [hb] at hrd; exact hrd
      | ok m => rw [hb] at hrd; exact finish_endsBounded (prBlock_endsBounded hrd)
  · exact BlockFault.noConfusion

/-! ### How the command ends -/

theorem faultCodeOf_eq_8_iff (e : BlockFault) : faultCodeOf e = 8 ↔ e = .histOvf := by
  cases e <;> decide

/-- R102 of a working command, by the status it leaves. -/
theorem workingCommand_bounded {run : Run} {body : State → Except BlockFault State}
    (hbody : ∀ s, EndsBounded s (body s)) {s t : State} (hready : Ready s)
    (h : ifAccepted s (settle run (clearDone s) (body (clearDone s))) = .next t) :
    (t.fault = true → t.faultCode ≠ 8)
      ∧ (t.fault = false → s.initialHistory.toNat ≤ historyBound → t.history.toNat ≤ historyBound) := by
  rw [ifAccepted_ready hready] at h
  obtain rfl := Host.Outcome.next.inj h
  have hb := hbody (clearDone s)
  cases hr : body (clearDone s) with
  | error e =>
    rw [hr] at hb
    simp only [settle, enterFault_fault, enterFault_faultCode]
    exact ⟨fun _ hcode => hb ((faultCodeOf_eq_8_iff e).1 hcode), fun hf => nomatch hf⟩
  | ok m =>
    rw [hr] at hb
    obtain ⟨hfault, hbound⟩ := hb
    have hclear : m.fault = false := hfault.trans hready.2
    exact ⟨fun hf => absurd (hclear.symm.trans hf) Bool.false_ne_true, fun _ => hbound⟩

/-- The state of the spec's vector V28 before its update: `u = 0xFFFF` takes HISTORY from 10 to 2621410. -/
def risingHistory : State := { State.reset with historyMult := 40, history := 10 }

/-- Settles O20: RD.K and RD.HIST under the bound, the two working commands by how their bodies end, and vector V28 against
the document's bound of 0xFFFF. -/
theorem historyStaysBounded : Obligations.HistoryStaysBounded := by
  unfold Obligations.HistoryStaysBounded
  refine ⟨fun u s hm hh => ⟨rdK_le_16 hh, rdHist_bounded u hm hh⟩, fun s t hready hrun => ?_,
    0xFFFF, risingHistory, setHistory 2621410 risingHistory, by decide, by decide, rfl, by decide⟩
  rcases hrun with h | h
  · exact workingCommand_bounded rdRunBody_endsBounded hready h
  · exact workingCommand_bounded sfRunBody_endsBounded hready h

end Sys2Proof.Machine
end

section
/-! PROOFS. Order 0 (R116): a sample loop that warm-up covers whole stores the running sums of the residuals, and stops at the
first one that does not fit. -/

namespace Sys2Proof.Machine

/-- The sum of the first `n` residuals. -/
def residualSum (s : State) (n : Nat) : Int := ∑ i ∈ Finset.range n, resAt s i

theorem residualSum_succ (s : State) (n : Nat) : residualSum s (n + 1) = residualSum s n + resAt s n :=
  Finset.sum_range_succ ..

theorem fitsEntry_smpAt (s : State) (i : Nat) : fitsEntry (smpAt s i) = true := by
  have hlow : -2 ^ 31 ≤ smpAt s i := BitVec.le_toInt _
  have hhigh : smpAt s i < 2 ^ 31 := BitVec.toInt_lt
  simp only [fitsEntry, Bool.and_eq_true, decide_eq_true_eq]
  omega

/-! ### The sample loop while it is warming up -/

/-- How far a loop of warm-up steps from `s` to `t` has come: the samples before PR_IDX are the running sums, and COEF is not
touched (R111, R116). -/
structure Summed (s t : State) : Prop where
  frame : t = { s with prIdx := t.prIdx, smp := t.smp }
  sums : ∀ j < t.prIdx.toNat, smpAt t j = residualSum s (j + 1)

theorem Summed.resAt {s t : State} (h : Summed s t) (i : Nat) : resAt t i = resAt s i := by rw [h.frame]; rfl
theorem Summed.order {s t : State} (h : Summed s t) : t.order = s.order := by rw [h.frame]
theorem Summed.sampleCount {s t : State} (h : Summed s t) : t.sampleCount = s.sampleCount := by rw [h.frame]
theorem Summed.coef {s t : State} (h : Summed s t) : t.coef = s.coef := by rw [h.frame]
theorem Summed.fault {s t : State} (h : Summed s t) : t.fault = s.fault := by rw [h.frame]

theorem Summed.start (s : State) : Summed (startPr s) (startPr s) := ⟨rfl, fun _ hj => absurd hj (Nat.not_lt_zero _)⟩

/-- PR.WARM adds the next residual to the running sum stored last. -/
theorem Summed.prWarm {s t : State} (h : Summed s t) :
    prWarm t.prIdx.toNat t = storeSample t.prIdx.toNat (residualSum s (t.prIdx.toNat + 1)) t := by
  have hsums := h.sums
  rw [Machine.prWarm, residualSum_succ]
  simp only [h.resAt]
  cases hn : t.prIdx.toNat with
  | zero => simp [residualSum]
  | succ n => simp [hsums n (by omega)]

/-- Storing the next running sum moves on by one sample. -/
theorem Summed.next {s t : State} (h : Summed s t) (hi : t.prIdx.toNat < s.sampleCount.toNat)
    (hfit : fitsEntry (residualSum s (t.prIdx.toNat + 1)) = true) :
    Summed s (nextSample (setSmp t t.prIdx.toNat (residualSum s (t.prIdx.toNat + 1)))) where
  frame := by
    have hframe := h.frame
    generalize t.prIdx = i at hframe ⊢
    generalize t.smp = m at hframe ⊢
    rw [hframe]; rfl
  sums := fun j hj => by
    rw [nextSample_toNat (by rwa [setSmp_prIdx, setSmp_sampleCount, h.sampleCount]), setSmp_prIdx] at hj
    change smpAt (setSmp t _ _) j = _
    rcases Nat.lt_succ_iff_lt_or_eq.1 hj with hlt | rfl
    · rw [smpAt_setSmp_other hlt.ne, h.sums j hlt]
    · exact smpAt_setSmp hfit

/-- With order 0, and for a sample up to ORDER, PR.STEP is a step of warm-up (R116, R117). -/
theorem prStep_of_warm {s : State} (h : s.order.toNat = 0 ∨ s.prIdx.toNat ≤ s.order.toNat) :
    prStep s = (prWarm s.prIdx.toNat s).map nextSample := by
  rw [prStep, if_pos h]
  cases prWarm s.prIdx.toNat s <;> rfl

/-- A sample loop that reaches no steady state stores the running sums, or faults with E_SAMPLE_OVF at one that does not
fit. -/
theorem prLoop_warm_cases {s : State} (hwarm : s.order.toNat = 0 ∨ s.sampleCount.toNat ≤ s.order.toNat + 1) (n : Nat) :
    ∀ {t : State}, Summed s t →
      (∃ u, prLoop n t = .ok u ∧ Summed s u)
      ∨ (prLoop n t = .error .sampleOvf ∧ ∃ j < s.sampleCount.toNat, fitsEntry (residualSum s (j + 1)) = false) := by
  induction n with
  | zero => exact fun h => .inl ⟨_, rfl, h⟩
  | succ n ih =>
    intro t h
    rw [prLoop, h.sampleCount]
    split
    case isFalse => exact .inl ⟨t, rfl, h⟩
    case isTrue hi =>
      rw [prStep_of_warm (by rw [h.order]; omega), h.prWarm]
      rcases storeSample_cases t.prIdx.toNat (residualSum s (t.prIdx.toNat + 1)) t with ⟨hfit, hs⟩ | ⟨hfit, hs⟩ <;> rw [hs]
      · exact ih (h.next hi hfit)
      · exact .inr ⟨rfl, _, hi, hfit⟩

/-! ### The command -/

/-- check_config_PR passes when every register it looks at is legal (R174). -/
theorem checkConfigPr_of_legal {s : State} (htype : s.predType = 0) (horder : s.order.toNat ≤ 31)
    (hshift : s.qlpShift.toNat ≤ 15) (hcount : s.sampleCount.toNat ≤ s.params.maxn)
    (hcoef : ∀ j, j < s.order.toNat → fitsCoef (coefAt s j) = true) : checkConfigPr s = .ok () := by
  simp [checkConfigPr, htype, Nat.not_lt.2 horder, Nat.not_lt.2 hshift, Nat.not_lt.2 hcount, (coefsLegal_iff s _).2 hcoef]

/-- PR_RUN accepted with a legal configuration ends as its sample loop does (R118). -/
theorem exec_prRun_ready {s : State} (h : Ready s) (hc : checkConfigPr s = .ok ()) :
    exec .prRun s = .next (settle .pr (clearDone s) ((prBlock (clearDone s)).map finish)) := by
  have hcheck : checkConfigPr (clearDone s) = .ok () :=
    (checkConfigPr_congr (s := s) (s' := clearDone s) rfl rfl rfl rfl rfl rfl).trans hc
  have hbody : prRunBody (clearDone s) = (prBlock (clearDone s)).map finish := by rw [prRunBody_eq, hcheck]; rfl
  rw [← hbody]
  exact ifAccepted_ready h

/-- A PR_RUN that warm-up covers whole: it completes with the running sums, COEF untouched, when they all fit, and faults
with E_SAMPLE_OVF when one does not. -/
theorem exec_prRun_warm {s : State} (hready : Ready s) (hc : checkConfigPr s = .ok ())
    (hwarm : s.order.toNat = 0 ∨ s.sampleCount.toNat ≤ s.order.toNat + 1) :
    ((∀ j < s.sampleCount.toNat, fitsEntry (residualSum s (j + 1)) = true) →
      ∃ t, exec .prRun s = .next t ∧ Completed t ∧ t.coef = s.coef ∧ t.prIdx = s.sampleCount
        ∧ ∀ j < s.sampleCount.toNat, smpAt t j = residualSum s (j + 1))
    ∧ ((∃ j < s.sampleCount.toNat, fitsEntry (residualSum s (j + 1)) = false) →
      ∃ t, exec .prRun s = .next t ∧ t.fault = true ∧ t.faultCode = 10) := by
  have hexec := exec_prRun_ready hready hc
  rcases prLoop_warm_cases (s := startPr (clearDone s)) hwarm s.sampleCount.toNat (.start _)
    with ⟨u, hok, hu⟩ | ⟨herr, hunfit⟩
  · have hblock : prBlock (clearDone s) = .ok u := hok
    have hidx : u.prIdx = s.sampleCount := (prBlock_moved hblock).2
    have hsums : ∀ j < s.sampleCount.toNat, smpAt u j = residualSum s (j + 1) := hidx ▸ hu.sums
    rw [hblock] at hexec
    refine ⟨fun _ => ⟨finish u, hexec, ⟨rfl, hu.fault.trans hready.2⟩, hu.coef, hidx, hsums⟩, fun ⟨j, hj, hfit⟩ => ?_⟩
    rw [← hsums j hj] at hfit
    cases (fitsEntry_smpAt u j).symm.trans hfit
  · have hblock : prBlock (clearDone s) = .error .sampleOvf := herr
    rw [hblock] at hexec
    obtain ⟨j, hj, hfit⟩ := hunfit
    refine ⟨fun hall => ?_, fun _ => ⟨_, hexec, enterFault_fault .., enterFault_faultCode ..⟩⟩
    cases (hall j hj).symm.trans hfit

/-- Settles O26: with order 0 every sample is a warm-up sample, and the check passes whatever COEF holds. -/
theorem orderZeroIsRunningSum : Obligations.OrderZeroIsRunningSum := by
  unfold Obligations.OrderZeroIsRunningSum
  intro s hready htype horder hshift hcount
  have hzero : s.order.toNat = 0 := by rw [horder]; rfl
  have hc := checkConfigPr_of_legal htype (by omega) hshift hcount fun j hj => by omega
  exact exec_prRun_warm hready hc (.inl hzero)

end Sys2Proof.Machine
end

section
/-! PROOFS. The control commands NOP, CLR_FAULT and SOFT_RESET (R130, R132, R133), and what DONE means to the others. -/

namespace Sys2Proof.Machine

/-! ### NOP, and which commands clear DONE -/

/-- A command without an effect leaves the state as it was, whether FAULT lets it through or not. -/
theorem ifAccepted_self {s : State} (hi : s.engine = .idle) : ifAccepted s s = .next s := by
  cases hf : s.fault with
  | false => exact ifAccepted_ready ⟨hi, hf⟩
  | true => exact ifAccepted_fault hi hf

/-- The five commands that clear DONE (R134): once accepted, all they do is a function of the state with DONE cleared. -/
theorem exec_eq_effect_of_clearDone {i : Instr} (hi : i ∈ [Instr.rdRun, .prRun, .sfRun, .clrFault, .softReset]) :
    ∃ effect : State → State, ∀ s, Ready s → exec i s = .next (effect (clearDone s)) := by
  simp only [List.mem_cons, List.not_mem_nil, or_false] at hi
  obtain rfl | rfl | rfl | rfl | rfl := hi
  · exact ⟨fun s => settle .rd s (rdRunBody s), fun s h => ifAccepted_ready h⟩
  · exact ⟨fun s => settle .pr s (prRunBody s), fun s h => ifAccepted_ready h⟩
  · exact ⟨fun s => settle .sf s (sfRunBody s), fun s h => ifAccepted_ready h⟩
  · exact ⟨clearFault, fun s h => ifIdle_idle h.1⟩
  · exact ⟨softReset, fun s h => ifIdle_idle h.1⟩

/-- Settles O37: NOP has no effect to accept, and the other commands see DONE only after it is cleared. -/
theorem nopChangesNothing : Obligations.NopChangesNothing := by
  unfold Obligations.NopChangesNothing
  refine ⟨rfl, fun s hidle => ifAccepted_self hidle, fun s b i hready hi => ?_⟩
  obtain ⟨effect, heffect⟩ := exec_eq_effect_of_clearDone hi
  have hready' : Ready { s with done := b } := hready
  have hclear : clearDone { s with done := b } = clearDone s := rfl
  rw [heffect _ hready', heffect s hready, hclear]

/-! ### CLR_FAULT -/

/-- Settles O38: CLR_FAULT is accepted whatever FAULT is, and its effect is `clearFault`. -/
theorem clrFaultClearsStatus : Obligations.ClrFaultClearsStatus := by
  unfold Obligations.ClrFaultClearsStatus
  exact ⟨rfl, fun s hidle => (ifIdle_idle hidle : ifIdle s (clearFault s) = .next (clearFault s))⟩

/-! ### SOFT_RESET -/

/-- With COEF all 0, a COEF register reads 0, whatever its index. -/
theorem coefWord_of_coef_zero {s : State} (h : s.coef = Vector.replicate 32 0) (j : Nat) : coefWord s j = 0 := by
  rw [coefWord, h, Vector.getElem?_replicate]
  split <;> rfl

/-- After SOFT_RESET on an idle engine every register that can be read reads 0 (R133). -/
theorem readReg_softReset {s : State} (hidle : s.engine = .idle) {r : Reg} (hr : r ≠ .cmd) :
    readReg (softReset s) r = some 0 := by
  cases r with
  | cmd => exact absurd rfl hr
  | status => simp [readReg, statusWord, busy, hidle]
  | coef i => exact congrArg some (coefWord_of_coef_zero (softReset_coef s) i)
  | _ => rfl

/-- The registers of the reset state are those SOFT_RESET leaves (R191). -/
theorem softReset_reset : softReset State.reset = State.reset := rfl

theorem readReg_reset {r : Reg} (hr : r ≠ .cmd) : readReg State.reset r = some 0 :=
  softReset_reset ▸ readReg_softReset (s := State.reset) rfl hr

/-- Settles O39: SOFT_RESET is accepted whatever FAULT is, and its effect is `softReset`. -/
theorem softResetZeroesRegisters : Obligations.SoftResetZeroesRegisters := by
  unfold Obligations.SoftResetZeroesRegisters
  refine ⟨rfl, fun s hidle => ⟨softReset s, ifIdle_idle hidle, fun r hr => ?_,
    rfl, rfl, rfl, rfl, rfl, rfl, rfl, rfl, hidle⟩⟩
  have hzero := readReg_softReset hidle hr
  exact ⟨hzero, hzero.trans (readReg_reset hr).symm⟩

end Sys2Proof.Machine
end

section
/-! PROOFS. Codewords off a string of bits (R63 to R66): decoding after encoding, encoding after decoding, and that a long enough
string always decodes (R69). -/

namespace Sys2Proof

/-! ### Decoding after encoding -/

/-- An encoded codeword, whatever follows it, is decoded as itself under parameters that select its format (R63). -/
theorem decodeCodeword_codewordBits {i : Instr} {c : Codeword} {k w : Nat} (hc : i.codeword? = some c) (hwf : i.wf = true)
    (hread : c.readUnder k w = true) (rest : List Bool) :
    decodeCodeword k w (codewordBits c ++ rest) = .ok (i, rest) := by
  cases c with
  | short p =>
    obtain ⟨hp, hi⟩ := short_le hc
    obtain rfl : k = 0 := by simpa [Codeword.readUnder] using hread
    have hprefix := unaryPrefix_zero p Config.escLen 0 rest (Nat.lt_succ_of_le hp)
    simp [decodeCodeword, codewordBits, hprefix, hi, orReject]
  | rice p k' x =>
    obtain ⟨hp, hi, hwf_iff⟩ := rice_le hc
    obtain ⟨-, -, hx⟩ := hwf_iff.1 hwf
    obtain ⟨rfl, hk⟩ : k = k' ∧ k' ≠ 0 := by simpa [Codeword.readUnder] using hread
    have hprefix := unaryPrefix_zero p Config.escLen 0 (fieldBits k x ++ rest) (Nat.lt_succ_of_le hp)
    have hsuffix := takeField_fieldBits k 0 x rest
    rw [Nat.mod_eq_of_lt hx] at hsuffix
    simp [decodeCodeword, codewordBits, hprefix, hk, hsuffix, hi, orReject]
  | esc w' f =>
    obtain ⟨rfl, hwf_iff⟩ := esc_wf hc
    obtain ⟨-, -, hf⟩ := hwf_iff.1 hwf
    obtain rfl : w = w' := by simpa [Codeword.readUnder] using hread
    have hprefix := unaryPrefix_cap Config.escLen 0 (fieldBits w f ++ rest)
    have hfield := takeField_fieldBits w 0 f rest
    rw [Nat.mod_eq_of_lt hf] at hfield
    simp [decodeCodeword, codewordBits, hprefix, hfield]

/-- A command's word is decoded as the command (R61, R62). -/
theorem decodeCommand_encode {i : Instr} (hc : i.codeword? = none) (hwf : i.wf = true) :
    ∃ w, encode i = .command w ∧ decodeCommand w = i := by
  cases i with
  | reservedCmd w =>
    exact ⟨w, rfl, (Machine.decodeCommand_eq_reservedCmd_iff w w).2 ⟨rfl, of_decide_eq_true hwf⟩⟩
  | nop | rdRun | prRun | sfRun | clrFault | softReset => exact ⟨_, rfl, rfl⟩
  | _ => nomatch hc

/-- Settles O2: a codeword by its format, a command by its word. -/
theorem encodeThenDecode : Obligations.EncodeThenDecode := by
  unfold Obligations.EncodeThenDecode
  intro i hwf
  cases hc : i.codeword? with
  | none =>
    obtain ⟨w, hencode, hdecode⟩ := decodeCommand_encode hc hwf
    rw [hencode]
    exact hdecode
  | some c =>
    rw [encode_of_codeword hc]
    intro c' k w rest hc' hread
    obtain rfl := Option.some.inj hc'
    exact decodeCodeword_codewordBits hc hwf hread rest

/-! ### Encoding after decoding -/

theorem orReject_eq_ok {o : Option Instr} {bits rest : List Bool} {i : Instr} (h : orReject o bits = .ok (i, rest)) :
    o = some i ∧ bits = rest := by
  cases o with
  | none => cases h
  | some j => simpa [orReject] using h

/-- What was decoded is a codeword that fits the parameters it was read under, and the bits are its encoding and the rest. -/
theorem decodeCodeword_eq_ok {k w : Nat} {bits rest : List Bool} {i : Instr} (h : decodeCodeword k w bits = .ok (i, rest)) :
    ∃ c, i.codeword? = some c ∧ c.Fits k w ∧ bits = codewordBits c ++ rest := by
  unfold decodeCodeword at h
  split at h
  case h_1 => cases h
  case h_2 bits' hprefix =>
    obtain ⟨-, rfl⟩ | ⟨q, hq, -⟩ := unaryPrefix_some _ _ _ _ _ hprefix
    swap
    · cases hq
    split at h
    case h_1 => cases h
    case h_2 f bits'' hfield =>
      obtain ⟨v, rfl, hv, rfl⟩ := takeField_some _ _ _ _ _ hfield
      obtain ⟨rfl, rfl⟩ : .cwEsc w (0 * 2 ^ w + v) = i ∧ bits'' = rest := by simpa using h
      exact ⟨.esc w (0 * 2 ^ w + v), rfl, ⟨rfl, by omega⟩, by simp [codewordBits]⟩
  case h_3 p bits' hprefix =>
    obtain ⟨hq, -⟩ | ⟨q, hq, hlt, rfl⟩ := unaryPrefix_some _ _ _ _ _ hprefix
    · cases hq
    obtain rfl : p = q := by simpa using hq
    have hp : p ≤ 8 := Nat.le_of_lt_succ hlt
    split at h
    case isTrue hk =>
      obtain ⟨hi, rfl⟩ := orReject_eq_ok h
      exact ⟨.short p, Machine.codeword?_short hi, ⟨hk, hp⟩, rfl⟩
    case isFalse hk =>
      split at h
      case h_1 => cases h
      case h_2 x bits'' hsuffix =>
        obtain ⟨hi, rfl⟩ := orReject_eq_ok h
        obtain ⟨v, rfl, hv, rfl⟩ := takeField_some _ _ _ _ _ hsuffix
        exact ⟨_, Machine.codeword?_rice hi, ⟨rfl, hk, hp, by omega⟩, by simp [codewordBits]⟩

/-- A codeword read under legal parameters is well-formed (R80, R90, R20). -/
theorem wf_of_fits {i : Instr} {c : Codeword} {k w : Nat} (hc : i.codeword? = some c) (hfits : c.Fits k w) (hk : k ≤ 23)
    (hw1 : 1 ≤ w) (hw : w ≤ 31) : i.wf = true := by
  cases c with
  | short p =>
    obtain ⟨hp, hi⟩ := short_le hc
    interval_cases p <;> obtain rfl := Option.some.inj hi <;> rfl
  | rice p k' x =>
    obtain ⟨rfl, hk0, -, hx⟩ := hfits
    exact (rice_le hc).2.2.2 ⟨Nat.pos_of_ne_zero hk0, hk, hx⟩
  | esc w' f =>
    obtain ⟨rfl, hf⟩ := hfits
    exact (esc_wf hc).2.2 ⟨hw1, hw, hf⟩

/-- Settles O3: by what the decoder's outcome says of the string. -/
theorem decodeThenEncode : Obligations.DecodeThenEncode := by
  unfold Obligations.DecodeThenEncode
  intro k w bits rest i hk hw1 hw h
  obtain ⟨c, hc, hfits, hbits⟩ := decodeCodeword_eq_ok h
  exact ⟨wf_of_fits hc hfits hk hw1 hw, codewordBits c, encode_of_codeword hc, hbits⟩

/-! ### Strings that are long enough -/

/-- A field is there when its bits are. -/
theorem takeField_of_length {n : Nat} {bits : List Bool} (h : n ≤ bits.length) (acc : Nat) :
    ∃ f rest, takeField n acc bits = some (f, rest) := by
  cases htake : takeField n acc bits with
  | none => exact absurd ((takeField_none_iff n acc bits).1 htake) (Nat.not_lt.2 h)
  | some r => exact ⟨r.1, r.2, rfl⟩

/-- Settles O4: nine bits hold a prefix or an escape, and what follows holds the suffix or the field; a prefix count that is no
format cannot arise. -/
theorem longEnoughBitsDecode : Obligations.LongEnoughBitsDecode := by
  unfold Obligations.LongEnoughBitsDecode
  intro k w bits hlen
  have hesc : Config.escLen = 9 := rfl
  cases hprefix : unaryPrefix Config.escLen 0 bits with
  | none => exact absurd (unaryPrefix_none _ _ _ hprefix) (by omega)
  | some r =>
    obtain ⟨r, tail⟩ := r
    have htail := unaryPrefix_length _ _ _ _ _ hprefix
    obtain ⟨rfl, -⟩ | ⟨p, rfl, hp, -⟩ := unaryPrefix_some _ _ _ _ _ hprefix
    · obtain ⟨f, rest, hfield⟩ := takeField_of_length (n := w) (bits := tail) (by omega) 0
      exact ⟨.cwEsc w f, rest, by simp [decodeCodeword, hprefix, hfield]⟩
    · by_cases hk : k = 0
      · obtain ⟨i, hi⟩ := Machine.shortInstr_some (p := 0 + p) (by omega)
        exact ⟨i, tail, by simp only [decodeCodeword, hprefix, if_pos hk, hi, orReject]⟩
      · obtain ⟨x, rest, hsuffix⟩ := takeField_of_length (n := k) (bits := tail) (by omega) 0
        obtain ⟨i, hi⟩ := Machine.riceInstr_some (p := 0 + p) k x (by omega)
        exact ⟨i, rest, by simp only [decodeCodeword, hprefix, if_neg hk, hsuffix, hi, orReject]⟩

/-- Settles O1: each word is decoded by computation. -/
theorem specWordsDecode : Obligations.SpecWordsDecode := by
  unfold Obligations.SpecWordsDecode
  decide

end Sys2Proof
end

section
/-! PROOFS. The working commands RD_RUN, PR_RUN and SF_RUN under one name (R100, R118, R131): what each is, and how its body can
end, said once. -/

namespace Sys2Proof.Machine

/-! ### The three commands -/

/-- The command word's instruction. -/
def commandOf : Run → Instr
  | .rd => .rdRun
  | .pr => .prRun
  | .sf => .sfRun

/-- The command up to its end. -/
def runBody : Run → State → Except BlockFault State
  | .rd => rdRunBody
  | .pr => prRunBody
  | .sf => sfRunBody

theorem exists_commandOf {i : Instr} (h : i ∈ [Instr.rdRun, .prRun, .sfRun]) : ∃ run, i = commandOf run := by
  simp only [List.mem_cons, List.not_mem_nil, or_false] at h
  obtain rfl | rfl | rfl := h
  · exact ⟨.rd, rfl⟩
  · exact ⟨.pr, rfl⟩
  · exact ⟨.sf, rfl⟩

theorem exec_commandOf (run : Run) (s : State) :
    exec (commandOf run) s = ifAccepted s (settle run (clearDone s) (runBody run (clearDone s))) := by
  cases run <;> rfl

theorem exec_commandOf_ready {s : State} (run : Run) (h : Ready s) :
    exec (commandOf run) s = .next (settle run (clearDone s) (runBody run (clearDone s))) := by
  rw [exec_commandOf, ifAccepted_ready h]

/-! ### What a command has done where it completes -/

/-- What the blocks of a working command may have changed between `s` and `t`, with the buffers still in canonical form and
within their sizes. -/
structure Worked (s t : State) : Prop where
  frame : t = { s with
    bitpos := t.bitpos, history := t.history, signModifier := t.signModifier, rdIdx := t.rdIdx, prIdx := t.prIdx,
    coef := t.coef, res := t.res, smp := t.smp }
  res_wf : s.res.wf → t.res.wf
  smp_wf : s.smp.wf → t.smp.wf
  res_below : ∀ n, s.sampleCount.toNat ≤ n → s.res.below n → t.res.below n
  smp_below : ∀ n, s.sampleCount.toNat ≤ n → s.smp.below n → t.smp.below n

theorem Worked.sampleCount {s t : State} (h : Worked s t) : t.sampleCount = s.sampleCount := by rw [h.frame]
theorem Worked.fault {s t : State} (h : Worked s t) : t.fault = s.fault := by rw [h.frame]
theorem Worked.faultCode {s t : State} (h : Worked s t) : t.faultCode = s.faultCode := by rw [h.frame]

theorem Worked.trans {s t u : State} (h : Worked s t) (h' : Worked t u) : Worked s u where
  frame := by
    have h1 := h.frame
    have h2 := h'.frame
    generalize u.bitpos = a at h2 ⊢
    generalize u.history = b at h2 ⊢
    generalize u.signModifier = c at h2 ⊢
    generalize u.rdIdx = d at h2 ⊢
    generalize u.prIdx = e at h2 ⊢
    generalize u.coef = f at h2 ⊢
    generalize u.res = g at h2 ⊢
    generalize u.smp = i at h2 ⊢
    rw [h2, h1]
  res_wf := h'.res_wf ∘ h.res_wf
  smp_wf := h'.smp_wf ∘ h.smp_wf
  res_below := fun n hn hb => h'.res_below n (h.sampleCount ▸ hn) (h.res_below n hn hb)
  smp_below := fun n hn hb => h'.smp_below n (h.sampleCount ▸ hn) (h.smp_below n hn hb)

theorem worked_startRd (s : State) : Worked s (startRd s) := ⟨rfl, id, id, fun _ _ => id, fun _ _ => id⟩
theorem worked_startPr (s : State) : Worked s (startPr s) := ⟨rfl, id, id, fun _ _ => id, fun _ _ => id⟩

theorem RdMoved.worked {s t : State} (h : RdMoved s t) : Worked s t := by
  have hsmp : t.smp = s.smp := by rw [h.frame]
  have hprIdx : t.prIdx = s.prIdx := by rw [h.frame]
  have hcoef : t.coef = s.coef := by rw [h.frame]
  refine ⟨?_, h.wf, hsmp ▸ id, h.below, fun n _ => hsmp ▸ id⟩
  rw [hsmp, hprIdx, hcoef]
  exact h.frame

theorem PrMoved.worked {s t : State} (h : PrMoved s t) (hidx : t.prIdx.toNat ≤ s.sampleCount.toNat) : Worked s t := by
  have hres : t.res = s.res := by rw [h.frame]
  have hbitpos : t.bitpos = s.bitpos := by rw [h.frame]
  have hhistory : t.history = s.history := by rw [h.frame]
  have hsm : t.signModifier = s.signModifier := by rw [h.frame]
  have hrdIdx : t.rdIdx = s.rdIdx := by rw [h.frame]
  refine ⟨?_, hres ▸ id, h.wf, fun n _ => hres ▸ id, fun n hn => h.below n (hidx.trans hn)⟩
  rw [hres, hbitpos, hhistory, hsm, hrdIdx]
  exact h.frame

theorem rdBlock_worked {s t : State} (hc : checkConfigRd s = .ok ()) (h : rdBlock s = .ok t) : Worked s t :=
  (worked_startRd s).trans (rdBlock_moved hc h).1.worked

theorem prBlock_worked {s t : State} (h : prBlock s = .ok t) : Worked s t := by
  obtain ⟨hmoved, hidx⟩ := prBlock_moved h
  exact (worked_startPr s).trans (hmoved.worked (hidx ▸ le_rfl))

/-! ### How a body can end -/

/-- The faults a command's check raises, before it does anything (R174). -/
def configFaults : Run → List BlockFault
  | .rd => [.config]
  | .pr => [.config, .unsupported, .format]
  | .sf => [.config, .unsupported, .format]

/-- The faults a command raises after its check (R170). E_HIST_OVF is none of them: a legal HISTORY_MULT shuts it out. -/
def midFaults : Run → List BlockFault
  | .rd => [.truncated, .log2Zero, .zeroRun]
  | .pr => [.shiftZero, .sampleOvf, .coefOvf]
  | .sf => [.truncated, .log2Zero, .zeroRun, .shiftZero, .sampleOvf, .coefOvf]

theorem midCommand_configFaults (run : Run) : ∀ e ∈ configFaults run, midCommand e = false := by cases run <;> decide

/-- The ends of a working command's body: a fault of its check, a fault after its check, or completion. -/
inductive RunEnds (run : Run) (s : State) : Except BlockFault State → Prop where
  | config {e : BlockFault} (he : e ∈ configFaults run) : RunEnds run s (.error e)
  | fault {e : BlockFault} (hn : s.sampleCount.toNat ≤ s.params.maxn) (he : e ∈ midFaults run) : RunEnds run s (.error e)
  | completed {t : State} (hn : s.sampleCount.toNat ≤ s.params.maxn) (h : Worked s t) : RunEnds run s (.ok (finish t))

theorem checkConfigPr_clearDone (s : State) : checkConfigPr (clearDone s) = checkConfigPr s :=
  checkConfigPr_congr rfl rfl rfl rfl rfl rfl

theorem checkConfigPr_standAt (e : Engine) (s : State) : checkConfigPr (standAt e s) = checkConfigPr s :=
  checkConfigPr_congr rfl rfl rfl rfl rfl rfl

theorem checkConfigPr_nextResidual (s : State) : checkConfigPr (nextResidual s) = checkConfigPr s :=
  checkConfigPr_congr rfl rfl rfl rfl rfl rfl

theorem checkConfigPr_startPr (s : State) : checkConfigPr (startPr s) = checkConfigPr s :=
  checkConfigPr_congr rfl rfl rfl rfl rfl rfl

theorem rdBlock_error {s : State} {e : BlockFault} (hc : checkConfigRd s = .ok ()) (h : rdBlock s = .error e) :
    e ∈ midFaults .rd := by
  have hovf : e ≠ .histOvf := by
    have hb := rdBlock_endsBounded hc
    rwa [h] at hb
  have he := rdLoop_error _ h
  simp only [midFaults, List.mem_cons, List.not_mem_nil, or_false]
  tauto

theorem prBlock_error {s : State} {e : BlockFault} (h : prBlock s = .error e) : e ∈ midFaults .pr := by
  simpa [midFaults] using prLoop_error _ h

theorem checkConfigPr_error {s : State} {e : BlockFault} (h : checkConfigPr s = .error e) : e ∈ configFaults .pr := by
  rcases checkConfigPr_cases s with hc | hc | hc | hc <;> rw [hc] at h <;> cases h <;> simp [configFaults]

theorem rdRunBody_ends (s : State) : RunEnds .rd s (rdRunBody s) := by
  rw [rdRunBody_eq]
  rcases checkConfigRd_cases s with hc | hc <;> rw [hc]
  · obtain ⟨-, -, -, -, hn, -⟩ := checkConfigRd_ok hc
    cases hb : rdBlock s with
    | error e => exact .fault hn (rdBlock_error hc hb)
    | ok t => exact .completed hn (rdBlock_worked hc hb)
  · exact .config (by simp [configFaults])

theorem prRunBody_ends (s : State) : RunEnds .pr s (prRunBody s) := by
  rw [prRunBody_eq]
  cases hc : checkConfigPr s with
  | error e => exact .config (checkConfigPr_error hc)
  | ok _ =>
    obtain ⟨-, -, -, hn, -⟩ := checkConfigPr_ok hc
    cases hb : prBlock s with
    | error e => exact .fault hn (prBlock_error hb)
    | ok t => exact .completed hn (prBlock_worked hb)

theorem sfRunBody_ends (s : State) : RunEnds .sf s (sfRunBody s) := by
  rw [sfRunBody_eq]
  rcases checkConfigRd_cases s with hc | hc <;> rw [hc]
  · cases hp : checkConfigPr s with
    | error e => exact .config (checkConfigPr_error hp)
    | ok _ =>
      obtain ⟨-, -, -, hn, -⟩ := checkConfigPr_ok hp
      cases hb : rdBlock s with
      | error e => exact .fault hn (List.mem_append_left (midFaults .pr) (rdBlock_error hc hb))
      | ok m =>
        simp only [Except.bind]
        cases hb' : prBlock m with
        | error e => exact .fault hn (List.mem_append_right (midFaults .rd) (prBlock_error hb'))
        | ok t => exact .completed hn ((rdBlock_worked hc hb).trans (prBlock_worked hb'))
  · exact .config (by simp [configFaults])

theorem runBody_ends (run : Run) (s : State) : RunEnds run s (runBody run s) := by
  cases run with
  | rd => exact rdRunBody_ends s
  | pr => exact prRunBody_ends s
  | sf => exact sfRunBody_ends s

/-- A fault that is no fault in the middle of a command changes STATUS and FAULT_CODE alone (R176). -/
theorem enterFault_of_idle {e : BlockFault} (he : midCommand e = false) {s : State} (hidle : s.engine = .idle) (run : Run) :
    enterFault run e s = { s with fault := true, faultCode := faultCodeOf e } := by
  simp only [enterFault, he, Bool.false_eq_true, if_false, recordFault_of_idle hidle]

end Sys2Proof.Machine
end

section
/-! PROOFS. The invariant: it holds at reset, every step keeps it, and where it holds no step is refused (R2, R8, R16, R35). -/

namespace Sys2Proof.Machine

/-! ### The invariant in three parts -/

/-- The parameters and the buffers as the invariant has them (R2, R35, R42). -/
structure BuffersOk (s : State) : Prop where
  params_ok : s.params.wf = true
  res_wf : s.res.wf
  smp_wf : s.smp.wf
  bsmem_wf : s.bsmem.wf
  res_exists : s.res.below s.params.maxn
  smp_exists : s.smp.below s.params.maxn
  bsmem_exists : s.bsmem.below s.params.bsbytes

/-- FAULT and FAULT_CODE as the invariant has them (R16). -/
structure StatusOk (s : State) : Prop where
  code_of_fault : s.fault = false ↔ s.faultCode = 0
  code_known : s.faultCode ∈ knownCodes

theorem Inv.buffersOk {s : State} (h : Inv s) : BuffersOk s :=
  ⟨h.params_ok, h.res_wf, h.smp_wf, h.bsmem_wf, h.res_exists, h.smp_exists, h.bsmem_exists⟩

theorem Inv.statusOk {s : State} (h : Inv s) : StatusOk s := ⟨h.code_of_fault, h.code_known⟩

theorem inv_of_parts {s : State} (hb : BuffersOk s) (hs : StatusOk s) (hr : RunningOk s) : Inv s :=
  ⟨hb.params_ok, hb.res_wf, hb.smp_wf, hb.bsmem_wf, hb.res_exists, hb.smp_exists, hb.bsmem_exists, hs.code_of_fault,
    hs.code_known, hr⟩

theorem runningOk_idle {s : State} (h : s.engine = .idle) : RunningOk s := by simp [RunningOk, h]

/-! ### The buffers -/

theorem BuffersOk.congr {s t : State} (h : BuffersOk s) (hp : t.params = s.params) (hr : t.res = s.res) (hs : t.smp = s.smp)
    (hb : t.bsmem = s.bsmem) : BuffersOk t := by
  obtain ⟨h1, h2, h3, h4, h5, h6, h7⟩ := h
  constructor <;> simpa only [hp, hr, hs, hb]

theorem BuffersOk.worked {s t : State} (h : BuffersOk s) (hn : s.sampleCount.toNat ≤ s.params.maxn) (hw : Worked s t) :
    BuffersOk t := by
  have hp : t.params = s.params := by rw [hw.frame]
  have hb : t.bsmem = s.bsmem := by rw [hw.frame]
  refine ⟨hp ▸ h.params_ok, hw.res_wf h.res_wf, hw.smp_wf h.smp_wf, hb ▸ h.bsmem_wf, ?_, ?_, ?_⟩
  · exact hp ▸ hw.res_below _ hn h.res_exists
  · exact hp ▸ hw.smp_below _ hn h.smp_exists
  · rw [hp, hb]; exact h.bsmem_exists

theorem BuffersOk.setRes {s t : State} (h : BuffersOk s) {i : Nat} {v : Word} (hi : i < s.params.maxn)
    (hp : t.params = s.params) (hr : t.res = s.res.set i v) (hs : t.smp = s.smp) (hb : t.bsmem = s.bsmem) :
    BuffersOk t := by
  refine ⟨hp ▸ h.params_ok, ?_, hs ▸ h.smp_wf, hb ▸ h.bsmem_wf, ?_, ?_, ?_⟩
  · rw [hr]; exact Memory.wf_set _ _ h.res_wf
  · rw [hr, hp]; exact Memory.below_set h.res_exists hi
  · rw [hs, hp]; exact h.smp_exists
  · rw [hb, hp]; exact h.bsmem_exists

theorem BuffersOk.setByte {s t : State} (h : BuffersOk s) {a : Nat} {b : Byte} (ha : a < s.params.bsbytes)
    (hp : t.params = s.params) (hr : t.res = s.res) (hs : t.smp = s.smp) (hb : t.bsmem = s.bsmem.set a b) :
    BuffersOk t := by
  refine ⟨hp ▸ h.params_ok, hr ▸ h.res_wf, hs ▸ h.smp_wf, ?_, ?_, ?_, ?_⟩
  · rw [hb]; exact Memory.wf_set _ _ h.bsmem_wf
  · rw [hr, hp]; exact h.res_exists
  · rw [hs, hp]; exact h.smp_exists
  · rw [hb, hp]; exact Memory.below_set h.bsmem_exists ha

theorem BuffersOk.unspecify {s : State} (h : BuffersOk s) (hn : s.sampleCount.toNat ≤ s.params.maxn) (run : Run) :
    BuffersOk (unspecify run s) := by
  refine ⟨h.params_ok, ?_, ?_, h.bsmem_wf, ?_, ?_, h.bsmem_exists⟩
  · simp only [unspecify_res]; split
    · exact Memory.wf_fill _ _ h.res_wf
    · exact h.res_wf
  · simp only [unspecify_smp]; split
    · exact Memory.wf_fill _ _ h.smp_wf
    · exact h.smp_wf
  · simp only [unspecify_res, unspecify_params]; split
    · exact Memory.below_fill _ h.res_exists hn
    · exact h.res_exists
  · simp only [unspecify_smp, unspecify_params]; split
    · exact Memory.below_fill _ h.smp_exists hn
    · exact h.smp_exists

/-! ### The status -/

theorem StatusOk.congr {s t : State} (h : StatusOk s) (hf : t.fault = s.fault) (hc : t.faultCode = s.faultCode) :
    StatusOk t := by
  obtain ⟨h1, h2⟩ := h
  constructor <;> simpa only [hf, hc]

theorem statusOk_of_fault {s : State} {e : BlockFault} (hf : s.fault = true) (hc : s.faultCode = faultCodeOf e) :
    StatusOk s := by
  constructor
  · rw [hf, hc]; cases e <;> decide
  · rw [hc]; cases e <;> decide

theorem statusOk_clear {s : State} (hf : s.fault = false) (hc : s.faultCode = 0) : StatusOk s := by
  constructor
  · simp [hf, hc]
  · rw [hc]; decide

/-- A fault entered from legal buffers meets the invariant; the count bounds what one in the middle of a command leaves
unspecified (R176). -/
theorem inv_enterFault {s : State} (h : BuffersOk s) (run : Run) {e : BlockFault}
    (hn : midCommand e = true → s.sampleCount.toNat ≤ s.params.maxn) : Inv (enterFault run e s) := by
  refine inv_of_parts ?_ (statusOk_of_fault (enterFault_fault ..) (enterFault_faultCode ..))
    (runningOk_idle (enterFault_engine ..))
  unfold enterFault
  split
  case isTrue he => exact (h.unspecify (hn he) run).congr rfl rfl rfl rfl
  case isFalse => exact h.congr rfl rfl rfl rfl

/-! ### Commands -/

theorem inv_settle {s : State} {run : Run} {r : Except BlockFault State} (hends : RunEnds run s r) (hb : BuffersOk s)
    (hs : StatusOk s) : Inv (settle run s r) := by
  cases hends with
  | config he => exact inv_enterFault hb run fun hmid => by simp [midCommand_configFaults run _ he] at hmid
  | fault hn _ => exact inv_enterFault hb run fun _ => hn
  | completed hn hw =>
    exact inv_of_parts ((hb.worked hn hw).congr rfl rfl rfl rfl) (hs.congr hw.fault hw.faultCode) (runningOk_idle rfl)

/-- What an accepted command does, by whether FAULT holds it back (R134, R177). -/
theorem ifAccepted_idle_cases {s e t : State} (hidle : s.engine = .idle) (h : ifAccepted s e = .next t) :
    (s.fault = true ∧ t = s) ∨ (s.fault = false ∧ t = e) := by
  cases hf : s.fault with
  | true => rw [ifAccepted_fault hidle hf] at h; exact .inl ⟨rfl, (Host.Outcome.next.inj h).symm⟩
  | false => rw [ifAccepted_ready ⟨hidle, hf⟩] at h; exact .inr ⟨rfl, (Host.Outcome.next.inj h).symm⟩

theorem inv_ifAccepted {s e t : State} (hinv : Inv s) (hidle : s.engine = .idle) (he : Inv e)
    (h : ifAccepted s e = .next t) : Inv t := by
  rcases ifAccepted_idle_cases hidle h with ⟨-, rfl⟩ | ⟨-, rfl⟩
  · exact hinv
  · exact he

theorem inv_commandOf {s t : State} (hinv : Inv s) (hidle : s.engine = .idle) {run : Run}
    (h : exec (commandOf run) s = .next t) : Inv t := by
  rw [exec_commandOf] at h
  refine inv_ifAccepted hinv hidle (inv_settle (runBody_ends run _) ?_ ?_) h
  · exact hinv.buffersOk.congr rfl rfl rfl rfl
  · exact hinv.statusOk.congr rfl rfl

/-- A command executed with no command running keeps the invariant. -/
theorem inv_exec_command {i : Instr} {s t : State} (hinv : Inv s) (hidle : s.engine = .idle) (hc : i.codeword? = none)
    (h : exec i s = .next t) : Inv t := by
  have hb := hinv.buffersOk
  cases i with
  | nop => exact inv_ifAccepted hinv hidle hinv h
  | rdRun => exact inv_commandOf (run := .rd) hinv hidle h
  | prRun => exact inv_commandOf (run := .pr) hinv hidle h
  | sfRun => exact inv_commandOf (run := .sf) hinv hidle h
  | clrFault =>
    obtain rfl := Host.Outcome.next.inj ((ifIdle_idle hidle).symm.trans h)
    exact inv_of_parts (hb.congr rfl rfl rfl rfl) (statusOk_clear rfl rfl) (runningOk_idle hidle)
  | softReset =>
    obtain rfl := Host.Outcome.next.inj ((ifIdle_idle hidle).symm.trans h)
    exact inv_of_parts (hb.congr rfl rfl rfl rfl) (statusOk_clear rfl rfl) (runningOk_idle hidle)
  | reservedCmd w =>
    refine inv_ifAccepted hinv hidle ?_ h
    exact inv_of_parts (hb.congr rfl rfl rfl rfl) (statusOk_of_fault (e := .badCmd) rfl rfl) (runningOk_idle rfl)
  | _ => nomatch hc

theorem codeword?_decodeCommand (w : Word) : (decodeCommand w).codeword? = none := by
  unfold decodeCommand
  split <;> rfl

/-! ### Host accesses -/

theorem writeReg_keeps (s : State) (w : Word) (r : Reg) :
    (writeReg s w r).params = s.params ∧ (writeReg s w r).res = s.res ∧ (writeReg s w r).smp = s.smp
      ∧ (writeReg s w r).bsmem = s.bsmem ∧ (writeReg s w r).fault = s.fault ∧ (writeReg s w r).faultCode = s.faultCode
      ∧ (writeReg s w r).engine = s.engine ∧ (writeReg s w r).host = s.host := by
  cases r <;> exact ⟨rfl, rfl, rfl, rfl, rfl, rfl, rfl, rfl⟩

theorem inv_of_idle {s t : State} (hinv : Inv s) (hb : BuffersOk t) (hf : t.fault = s.fault)
    (hc : t.faultCode = s.faultCode) (hidle : t.engine = .idle) : Inv t :=
  inv_of_parts hb (hinv.statusOk.congr hf hc) (runningOk_idle hidle)

theorem inv_hostWr {s : State} (hinv : Inv s) (hidle : s.engine = .idle) (off : Nat) (w : Word) : Inv (hostWr off w s) := by
  unfold hostWr
  split
  case h_1 r _ =>
    obtain ⟨hp, hr, hs, hb, hf, hc, he, -⟩ := writeReg_keeps s w r
    exact inv_of_idle hinv (hinv.buffersOk.congr hp hr hs hb) hf hc (he.trans hidle)
  case h_2 => exact hinv

theorem inv_hostWres {s : State} (hinv : Inv s) (hidle : s.engine = .idle) (i : Nat) (v : Word) : Inv (hostWres i v s) := by
  unfold hostWres
  split
  case isTrue hi => exact inv_of_idle hinv (hinv.buffersOk.setRes hi rfl rfl rfl rfl) rfl rfl hidle
  case isFalse => exact hinv

theorem inv_hostWbs {s : State} (hinv : Inv s) (hidle : s.engine = .idle) (a : Nat) (b : Byte) : Inv (hostWbs a b s) := by
  unfold hostWbs
  split
  case isTrue ha => exact inv_of_idle hinv (hinv.buffersOk.setByte ha rfl rfl rfl rfl) rfl rfl hidle
  case isFalse => exact hinv

theorem inv_answer {s : State} (hinv : Inv s) (hidle : s.engine = .idle) (w : Word) : Inv (answer w s) :=
  inv_of_idle hinv (hinv.buffersOk.congr rfl rfl rfl rfl) rfl rfl hidle

theorem inv_serve {a : HostAccess} {s t : State} (hinv : Inv s) (hidle : s.engine = .idle)
    (h : perform (serve a s) = .next t) : Inv t := by
  have hcount : Inv (countWrite s) := inv_of_idle hinv (hinv.buffersOk.congr rfl rfl rfl rfl) rfl rfl hidle
  have hidle' : (countWrite s).engine = .idle := hidle
  cases a with
  | wr off w =>
    simp only [serve] at h
    split at h
    · exact inv_exec_command hcount hidle' (codeword?_decodeCommand w) h
    · obtain rfl := Host.Outcome.next.inj h; exact inv_hostWr hcount hidle' off w
  | wres i v => obtain rfl := Host.Outcome.next.inj h; exact inv_hostWres hcount hidle' i v
  | wsmp i v => obtain rfl := Host.Outcome.next.inj h; exact hcount
  | wbs x b => obtain rfl := Host.Outcome.next.inj h; exact inv_hostWbs hcount hidle' x b
  | rd _ | rres _ | rsmp _ | rbs _ => obtain rfl := Host.Outcome.next.inj h; exact inv_answer hinv hidle _

/-! ### Codewords -/

/-- What decoding one codeword may change, short of where the engine stands. -/
def RdFrame (s t : State) : Prop :=
  t = { s with
    bitpos := t.bitpos, history := t.history, signModifier := t.signModifier, rdIdx := t.rdIdx, res := t.res }

/-- While RD runs: no fault, not done, and every check passed (R174). -/
structure RdRunning (sf : Bool) (s : State) : Prop where
  fault : s.fault = false
  done : s.done = false
  rd : checkConfigRd s = .ok ()
  pr : sf = true → checkConfigPr s = .ok ()

theorem checkConfigRd_of_legal {s : State} (h1 : s.historyMult.toNat ≤ 255) (h2 : s.maximumK.toNat ≤ 255)
    (h3 : 1 ≤ s.sampleSize.toNat) (h4 : s.sampleSize.toNat ≤ 31) (h5 : s.sampleCount.toNat ≤ s.params.maxn)
    (h6 : s.bitend.toNat ≤ 8 * s.params.bsbytes) (h7 : s.bitpos.toNat ≤ s.bitend.toNat) : checkConfigRd s = .ok () := by
  unfold checkConfigRd
  rw [if_neg (by omega), if_neg (by omega), if_neg (by omega), if_neg (by omega), if_neg (by omega), if_neg (by omega)]

/-- The checks still pass wherever the cursor has come to within BITEND. -/
theorem RdRunning.of_frame {sf : Bool} {s t : State} (h : RdRunning sf s) (hf : RdFrame s t)
    (hb : t.bitpos.toNat ≤ s.bitend.toNat) : RdRunning sf t := by
  obtain ⟨h1, h2, h3, h4, h5, h6, -⟩ := checkConfigRd_ok h.rd
  refine ⟨?_, ?_, ?_, fun hsf => ?_⟩
  · rw [hf]; exact h.fault
  · rw [hf]; exact h.done
  · have hend : t.bitend = s.bitend := by rw [hf]
    exact checkConfigRd_of_legal (by rwa [hf]) (by rwa [hf]) (by rwa [hf]) (by rwa [hf]) (by rwa [hf]) (by rwa [hf])
      (by rwa [hend])
  · refine (checkConfigPr_congr ?_ ?_ ?_ ?_ ?_ ?_).trans (h.pr hsf) <;> rw [hf]

theorem RdRunning.count_le {sf : Bool} {s : State} (h : RdRunning sf s) : s.sampleCount.toNat ≤ s.params.maxn := by
  obtain ⟨-, -, -, -, hn, -⟩ := checkConfigRd_ok h.rd
  exact hn

theorem RdRunning.statusOk {sf : Bool} {s t : State} (h : RdRunning sf t) (hs : StatusOk s) (hf : s.fault = false)
    (hc : t.faultCode = s.faultCode) : StatusOk t :=
  hs.congr (h.fault.trans hf.symm) hc

/-- A residual read: its frame, the cursor within BITEND, one entry of RES written. -/
theorem readResidual_frame {s m : State} (h : readResidual s = .ok m) :
    RdFrame s m ∧ m.bitpos.toNat ≤ s.bitend.toNat ∧ m.rdIdx = s.rdIdx ∧ ∃ v, m.res = s.res.set s.rdIdx.toNat v := by
  have hr := readResidual_cases s
  rw [h] at hr
  cases hr with
  | stored v n x _ _ hb => exact ⟨rfl, (advance_toNat hb).trans_le hb, rfl, _, rfl⟩

/-- A zero-run read, or none due: its frame, the cursor within BITEND, zeros after RD_IDX within the block. -/
theorem rdZrun_frame {s m : State} (hb : s.bitpos.toNat ≤ s.bitend.toNat) (h : rdZrun s = .ok m) :
    RdFrame s m ∧ m.bitpos.toNat ≤ s.bitend.toNat
      ∧ ∃ z, m.res = storeZeros z (s.rdIdx.toNat + 1) s.res ∧ (z = 0 ∨ s.rdIdx.toNat + 1 + z ≤ s.sampleCount.toNat) := by
  have hz := rdZrun_cases s
  rw [h] at hz
  cases hz with
  | notDue => exact ⟨rfl, hb, 0, rfl, .inl rfl⟩
  | zeros _ zk z n _ _ _ hb' _ hle => exact ⟨rfl, (advance_toNat hb').trans_le hb', z, rfl, by omega⟩

theorem BuffersOk.readResidual {s m : State} (h : BuffersOk s) (hi : s.rdIdx.toNat < s.params.maxn)
    (hm : readResidual s = .ok m) : BuffersOk m := by
  obtain ⟨hframe, -, -, v, hres⟩ := readResidual_frame hm
  exact h.setRes hi (by rw [hframe]) hres (by rw [hframe]) (by rw [hframe])

theorem BuffersOk.rdZrun {s m : State} (h : BuffersOk s) (hn : s.sampleCount.toNat ≤ s.params.maxn)
    (hb : s.bitpos.toNat ≤ s.bitend.toNat) (hm : rdZrun s = .ok m) : BuffersOk m := by
  obtain ⟨hframe, -, z, hres, hz⟩ := rdZrun_frame hb hm
  have hp : m.params = s.params := by rw [hframe]
  have hs : m.smp = s.smp := by rw [hframe]
  have hbs : m.bsmem = s.bsmem := by rw [hframe]
  refine ⟨hp ▸ h.params_ok, hres ▸ storeZeros_wf _ _ _ h.res_wf, hs ▸ h.smp_wf, hbs ▸ h.bsmem_wf, ?_, ?_, ?_⟩
  · rw [hp, hres]
    rcases hz with rfl | hz
    · exact h.res_exists
    · exact storeZeros_below z _ _ h.res_exists (hz.trans hn)
  · rw [hp, hs]; exact h.smp_exists
  · rw [hp, hbs]; exact h.bsmem_exists

/-- Where RD goes on after a residual the invariant holds (R99, R100, R131). -/
theorem inv_afterResidual {sf : Bool} {s : State} (hb : BuffersOk s) (hs : StatusOk s) (hr : RdRunning sf s)
    (hcount : 0 < s.sampleCount.toNat) : Inv (afterResidual sf s) := by
  have hb' : BuffersOk (afterResidual sf s) :=
    hb.congr (afterResidual_params ..) (afterResidual_res ..) (afterResidual_smp ..) (afterResidual_bsmem ..)
  refine inv_of_parts hb' (hs.congr (afterResidual_fault ..) (afterResidual_faultCode ..)) ?_
  unfold afterResidual
  dsimp only
  split
  case isTrue hi =>
    refine ⟨hr.fault, hr.done, hr.rd, fun hsf => ?_, hi⟩
    rw [checkConfigPr_standAt, checkConfigPr_nextResidual, hr.pr hsf]
  case isFalse =>
    cases sf with
    | false => exact runningOk_idle rfl
    | true =>
      have hpr : checkConfigPr (standAt (.predict true) (startPr (nextResidual s))) = .ok () := by
        rw [checkConfigPr_standAt, checkConfigPr_startPr, checkConfigPr_nextResidual, hr.pr rfl]
      exact ⟨hr.fault, hr.done, hpr, hcount⟩

theorem RunningOk.residual {s : State} {sf : Bool} (h : RunningOk s) (he : s.engine = .residual sf) :
    RdRunning sf s ∧ s.rdIdx.toNat < s.sampleCount.toNat := by
  simp only [RunningOk, he] at h
  obtain ⟨hf, hd, hrd, hpr, hi⟩ := h
  exact ⟨⟨hf, hd, hrd, hpr⟩, hi⟩

theorem RunningOk.zeroRun {s : State} {sf : Bool} (h : RunningOk s) (he : s.engine = .zeroRun sf) :
    RdRunning sf s ∧ zeroRunDue s = true := by
  simp only [RunningOk, he] at h
  obtain ⟨hf, hd, hrd, hpr, hi⟩ := h
  exact ⟨⟨hf, hd, hrd, hpr⟩, hi⟩

theorem inv_step_residual {s t : State} {sf : Bool} (hinv : Inv s) (he : s.engine = .residual sf) (h : step s = .next t) :
    Inv t := by
  obtain ⟨hrun, hi⟩ := hinv.running.residual he
  have hn := hrun.count_le
  rw [step_residual he hi] at h
  obtain rfl := Host.Outcome.next.inj h
  cases hm : readResidual s with
  | error e => exact inv_enterFault hinv.buffersOk _ fun _ => hn
  | ok m =>
    obtain ⟨hframe, hpos, -, -⟩ := readResidual_frame hm
    have hb := hinv.buffersOk.readResidual (hi.trans_le hn) hm
    have hrun' := hrun.of_frame hframe hpos
    have hs := hrun'.statusOk hinv.statusOk hrun.fault (by rw [hframe])
    have hcount : m.sampleCount = s.sampleCount := by rw [hframe]
    dsimp only
    split
    case isTrue hdue =>
      refine inv_of_parts (hb.congr rfl rfl rfl rfl) (hs.congr rfl rfl)
        ⟨hrun'.fault, hrun'.done, hrun'.rd, fun hsf => ?_, hdue⟩
      rw [checkConfigPr_standAt, hrun'.pr hsf]
    case isFalse => exact inv_afterResidual hb hs hrun' (by rw [hcount]; omega)

theorem inv_step_zeroRun {s t : State} {sf : Bool} (hinv : Inv s) (he : s.engine = .zeroRun sf) (h : step s = .next t) :
    Inv t := by
  obtain ⟨hrun, hdue⟩ := hinv.running.zeroRun he
  obtain ⟨-, -, -, -, hn, -, hpos⟩ := checkConfigRd_ok hrun.rd
  rw [step_zeroRun he hdue] at h
  obtain rfl := Host.Outcome.next.inj h
  cases hm : rdZrun s with
  | error e => exact inv_enterFault hinv.buffersOk _ fun _ => hn
  | ok m =>
    obtain ⟨hframe, hpos', -⟩ := rdZrun_frame hpos hm
    have hb := hinv.buffersOk.rdZrun hn hpos hm
    have hrun' := hrun.of_frame hframe hpos'
    have hs := hrun'.statusOk hinv.statusOk hrun.fault (by rw [hframe])
    have hcount : m.sampleCount = s.sampleCount := by rw [hframe]
    have hlt : s.rdIdx.toNat + 1 < s.sampleCount.toNat := by
      simp only [zeroRunDue, Bool.and_eq_true, decide_eq_true_eq] at hdue
      exact hdue.2
    exact inv_afterResidual hb hs hrun' (by rw [hcount]; omega)

/-! ### Samples -/

/-- A sample leaves the registers that were checked legal (R11, R115). -/
theorem PrMoved.checkConfigPr {s t : State} (h : PrMoved s t) (hc : checkConfigPr s = .ok ()) : checkConfigPr t = .ok () := by
  obtain ⟨h1, h2, h3, h4, h5⟩ := checkConfigPr_ok hc
  have hframe := h.frame
  have hp : t.predType = s.predType := by rw [hframe]
  have hq : t.qlpShift = s.qlpShift := by rw [hframe]
  have hpar : t.params = s.params := by rw [hframe]
  refine checkConfigPr_of_legal (hp ▸ h1) (h.order ▸ h2) (hq ▸ h3) ?_ ?_
  · rw [h.sampleCount, hpar]; exact h4
  · rw [h.order]; exact fun j hj => h.coef_legal j (h5 j hj)

theorem inv_step_predict {s t : State} {sf : Bool} (hinv : Inv s) (he : s.engine = .predict sf) (h : step s = .next t) :
    Inv t := by
  have hrun := hinv.running
  simp only [RunningOk, he] at hrun
  obtain ⟨hf, hd, hc, hi⟩ := hrun
  obtain ⟨-, -, -, hn, -⟩ := checkConfigPr_ok hc
  rw [step_predict he] at h
  obtain rfl := Host.Outcome.next.inj h
  rw [sampleStep, if_pos hi]
  cases hm : prStep s with
  | error e => exact inv_enterFault hinv.buffersOk _ fun _ => hn
  | ok m =>
    obtain ⟨hmoved, hidx⟩ := prStep_moved hi hm
    have hb := hinv.buffersOk.worked hn (hmoved.worked (by omega))
    have hframe := hmoved.frame
    have hs : StatusOk m := hinv.statusOk.congr (by rw [hframe]) (by rw [hframe])
    have hf' : m.fault = false := by rw [hframe]; exact hf
    have hd' : m.done = false := by rw [hframe]; exact hd
    have he' : m.engine = .predict sf := by rw [hframe]; exact he
    dsimp only
    split
    case isTrue hi' =>
      refine inv_of_parts hb hs ?_
      simp only [RunningOk, he']
      exact ⟨hf', hd', hmoved.checkConfigPr hc, hi'⟩
    case isFalse => exact inv_of_parts (hb.congr rfl rfl rfl rfl) (hs.congr rfl rfl) (runningOk_idle rfl)

/-- Settles O50: by the point at which the engine stands. -/
theorem stepKeepsInvariant : Obligations.StepKeepsInvariant := by
  unfold Obligations.StepKeepsInvariant
  intro s t hinv h
  cases he : s.engine with
  | idle =>
    cases hh : s.host with
    | nil => rw [step_idle he hh] at h; obtain rfl := Host.Outcome.next.inj h; exact hinv
    | cons a rest =>
      rw [step_serve he hh] at h
      have hpop : Inv (popHost rest s) := inv_of_idle hinv (hinv.buffersOk.congr rfl rfl rfl rfl) rfl rfl he
      exact inv_serve hpop he h
  | residual sf => exact inv_step_residual hinv he h
  | zeroRun sf => exact inv_step_zeroRun hinv he h
  | predict sf => exact inv_step_predict hinv he h

/-- Settles O51: the buffers list nothing, no fault is set and no command runs. -/
theorem resetMeetsInvariant : Obligations.ResetMeetsInvariant :=
  inv_of_parts ⟨rfl, .nil, .nil, .nil, nofun, nofun, nofun⟩ (statusOk_clear rfl rfl) (runningOk_idle rfl)

/-! ### Commands are atomic -/

theorem settle_engine {s : State} {run : Run} {r : Except BlockFault State} (hends : RunEnds run s r) :
    (settle run s r).engine = .idle := by
  cases hends with
  | config _ | fault _ _ => exact enterFault_engine ..
  | completed _ _ => rfl

/-- A command executed with no command running has a next state, in which none runs either. -/
theorem exec_command_idle {i : Instr} {s : State} (hidle : s.engine = .idle) (hc : i.codeword? = none) :
    ∃ t, exec i s = .next t ∧ t.engine = .idle := by
  have accepted : ∀ e : State, e.engine = .idle → ∃ t, ifAccepted s e = .next t ∧ t.engine = .idle := by
    intro e he
    cases hf : s.fault with
    | true => exact ⟨s, ifAccepted_fault hidle hf, hidle⟩
    | false => exact ⟨e, ifAccepted_ready ⟨hidle, hf⟩, he⟩
  cases i with
  | nop => exact accepted s hidle
  | rdRun => exact accepted _ (settle_engine (runBody_ends .rd (clearDone s)))
  | prRun => exact accepted _ (settle_engine (runBody_ends .pr (clearDone s)))
  | sfRun => exact accepted _ (settle_engine (runBody_ends .sf (clearDone s)))
  | clrFault => exact ⟨_, ifIdle_idle hidle, hidle⟩
  | softReset => exact ⟨_, ifIdle_idle hidle, hidle⟩
  | reservedCmd w => exact accepted _ rfl
  | _ => nomatch hc

/-- An access served with no command running has a next state, in which none runs either. -/
theorem perform_serve_idle (a : HostAccess) {s : State} (hidle : s.engine = .idle) :
    ∃ t, perform (serve a s) = .next t ∧ t.engine = .idle := by
  cases a with
  | wr off w =>
    simp only [serve]
    split
    · exact exec_command_idle (s := countWrite s) hidle (codeword?_decodeCommand w)
    · refine ⟨_, rfl, ?_⟩
      unfold hostWr
      split
      · exact (writeReg_keeps (countWrite s) w _).2.2.2.2.2.2.1.trans hidle
      · exact hidle
  | wres i v => exact ⟨_, rfl, by unfold hostWres; split <;> exact hidle⟩
  | wbs x b => exact ⟨_, rfl, by unfold hostWbs; split <;> exact hidle⟩
  | wsmp _ _ | rd _ | rres _ | rsmp _ | rbs _ => exact ⟨_, rfl, hidle⟩

/-- With no command running a step has a next state, in which none runs either. -/
theorem step_of_idle {s : State} (hidle : s.engine = .idle) : ∃ t, step s = .next t ∧ t.engine = .idle := by
  cases hh : s.host with
  | nil => exact ⟨s, step_idle hidle hh, hidle⟩
  | cons a rest =>
    rw [step_serve hidle hh]
    exact perform_serve_idle a (s := popHost rest s) hidle

/-- Settles O52: `step_of_idle`, and the outcome of a step at each point inside a command. -/
theorem commandsAreAtomic : Obligations.CommandsAreAtomic := by
  unfold Obligations.CommandsAreAtomic
  constructor
  · intro s t hidle h
    obtain ⟨u, hu, hidle'⟩ := step_of_idle hidle
    obtain rfl := Host.Outcome.next.inj (hu.symm.trans h)
    exact hidle'
  · intro s hinv
    cases he : s.engine with
    | idle => exact (step_of_idle he).imp fun _ h => h.1
    | residual sf => exact ⟨_, step_residual he (hinv.running.residual he).2⟩
    | zeroRun sf => exact ⟨_, step_zeroRun he (hinv.running.zeroRun he).2⟩
    | predict sf => exact ⟨_, step_predict he⟩

end Sys2Proof.Machine
end

section
/-! PROOFS. The bit source (R80, R81): a field is the number its bits write, a prefix is the ones before the first zero; and RD.CODE
is the table of codewords (R66, R91). -/

namespace Sys2Proof.Machine

/-! ### BS.READ -/

/-- A field is the sum of its bits, each at its place (R40). -/
theorem fieldAt_eq_sum (s : State) (p n : Nat) :
    fieldAt s p n = ∑ j ∈ Finset.range n, (bitAt s (p + j)).toNat * 2 ^ (n - 1 - j) := by
  induction n with
  | zero => rfl
  | succ n ih =>
    have hshift : ∀ j ∈ Finset.range n, (bitAt s (p + j)).toNat * 2 ^ (n + 1 - 1 - j)
        = 2 * ((bitAt s (p + j)).toNat * 2 ^ (n - 1 - j)) := by
      intro j hj
      have hlt := Finset.mem_range.1 hj
      rw [show n + 1 - 1 - j = n - 1 - j + 1 by omega, Nat.pow_succ]
      ring
    rw [fieldAt, ih, Finset.sum_range_succ, Finset.sum_congr rfl hshift, ← Finset.mul_sum]
    simp

/-- Settles O5: the two outcomes of BS.READ, and the value of a field. -/
theorem bsReadTakesField : Obligations.BsReadTakesField := by
  unfold Obligations.BsReadTakesField
  refine fun n s => ⟨fun h => ?_, bsRead_truncated⟩
  exact ⟨_, _, bsRead_ok h, fieldAt_lt .., fieldAt_eq_sum .., rfl, advance_toNat h⟩

/-! ### BS.UNARY9 -/

/-- `n` ones stand at the cursor, all below BITEND. -/
def OnesAt (s : State) (n : Nat) : Prop :=
  ∀ j < n, s.bitpos.toNat + j + 1 ≤ s.bitend.toNat ∧ bitAt s (s.bitpos.toNat + j) = true

theorem onesAt_zero (s : State) : OnesAt s 0 := fun _ hj => absurd hj (Nat.not_lt_zero _)

theorem onesAt_succ {s : State} {n : Nat} (hend : s.bitpos.toNat + 1 ≤ s.bitend.toNat)
    (hbit : bitAt s s.bitpos.toNat = true) (h : OnesAt (advance 1 s) n) : OnesAt s (n + 1) := by
  intro j hj
  cases j with
  | zero => exact ⟨hend, hbit⟩
  | succ j =>
    have hj' := h j (by omega)
    rw [advance_toNat hend, bitAt_advance, advance_bitend] at hj'
    rwa [show s.bitpos.toNat + (j + 1) = s.bitpos.toNat + 1 + j by omega]

/-- The outcomes of the prefix loop: as many ones as are allowed, or ones and a zero, or ones up to BITEND (R81). -/
inductive UnaryRead (s : State) (left p : Nat) : Except BlockFault (Option Nat × State) → Prop where
  | cap (h : OnesAt s left) : UnaryRead s left p (.ok (none, advance left s))
  | zero (n : Nat) (hn : n < left) (h : OnesAt s n) (hend : s.bitpos.toNat + n + 1 ≤ s.bitend.toNat)
      (hbit : bitAt s (s.bitpos.toNat + n) = false) : UnaryRead s left p (.ok (some (p + n), advance (n + 1) s))
  | truncated (n : Nat) (hn : n < left) (h : OnesAt s n) (hend : s.bitend.toNat < s.bitpos.toNat + n + 1) :
      UnaryRead s left p (.error .truncated)

/-- One more one before a prefix. -/
theorem UnaryRead.one {s : State} {left p : Nat} {r : Except BlockFault (Option Nat × State)}
    (hend : s.bitpos.toNat + 1 ≤ s.bitend.toNat) (hbit : bitAt s s.bitpos.toNat = true)
    (h : UnaryRead (advance 1 s) left (p + 1) r) : UnaryRead s (left + 1) p r := by
  have hpos := advance_toNat hend
  cases h with
  | cap h =>
    rw [advance_advance hend, Nat.add_comm 1 left]
    exact .cap (onesAt_succ hend hbit h)
  | zero n hn h hend' hbit' =>
    rw [hpos] at hend' hbit'
    rw [advance_advance hend, Nat.add_comm 1 (n + 1), show p + 1 + n = p + (n + 1) by omega]
    refine .zero (n + 1) (by omega) (onesAt_succ hend hbit h) ?_ ?_
    · rw [advance_bitend] at hend'; omega
    · rwa [bitAt_advance, show s.bitpos.toNat + 1 + n = s.bitpos.toNat + (n + 1) by omega] at hbit'
  | truncated n hn h hend' =>
    rw [hpos, advance_bitend] at hend'
    exact .truncated (n + 1) (by omega) (onesAt_succ hend hbit h) (by omega)

theorem bsUnaryFrom_read (left : Nat) : ∀ (p : Nat) (s : State), UnaryRead s left p (bsUnaryFrom left p s) := by
  induction left with
  | zero => intro p s; simpa [bsUnaryFrom] using UnaryRead.cap (p := p) (onesAt_zero s)
  | succ left ih =>
    intro p s
    rw [bsUnaryFrom]
    split
    case isTrue hend => exact .truncated 0 (by omega) (onesAt_zero s) hend
    case isFalse hend =>
      have hend' := Nat.le_of_not_lt hend
      split
      case isTrue hbit => exact (ih (p + 1) (advance 1 s)).one hend' hbit
      case isFalse hbit => exact .zero 0 (by omega) (onesAt_zero s) hend' (by simpa using hbit)

theorem bsUnary9_eq_zero_iff (s : State) (p : Nat) (t : State) :
    bsUnary9 s = .ok (some p, t) ↔
      p < 9 ∧ OnesAt s p ∧ s.bitpos.toNat + p + 1 ≤ s.bitend.toNat ∧ bitAt s (s.bitpos.toNat + p) = false
        ∧ t = advance (p + 1) s := by
  have hread : UnaryRead s 9 0 (bsUnary9 s) := bsUnaryFrom_read ..
  constructor
  · intro h
    rw [h] at hread
    cases hread with
    | zero n hn hones hend hbit => simpa using ⟨hn, hones, hend, hbit⟩
  · rintro ⟨hp, hones, hend, hbit, rfl⟩
    generalize bsUnary9 s = r at hread
    cases hread with
    | cap h => simp [(h p hp).2] at hbit
    | zero n hn h hend' hbit' =>
      rcases Nat.lt_trichotomy n p with hlt | rfl | hgt
      · simp [(hones n hlt).2] at hbit'
      · rw [Nat.zero_add]
      · simp [(h p hgt).2] at hbit
    | truncated n hn h hend' =>
      rcases Nat.lt_trichotomy n p with hlt | rfl | hgt
      · exact absurd (hones n hlt).1 (by omega)
      · omega
      · simp [(h p hgt).2] at hbit

theorem bsUnary9_eq_cap_iff (s t : State) : bsUnary9 s = .ok (none, t) ↔ OnesAt s 9 ∧ t = advance 9 s := by
  have hread : UnaryRead s 9 0 (bsUnary9 s) := bsUnaryFrom_read ..
  constructor
  · intro h
    rw [h] at hread
    cases hread with
    | cap hones => exact ⟨hones, rfl⟩
  · rintro ⟨hones, rfl⟩
    generalize bsUnary9 s = r at hread
    cases hread with
    | cap h => rfl
    | zero n hn h hend hbit => simp [(hones n hn).2] at hbit
    | truncated n hn h hend => exact absurd (hones n hn).1 (by omega)

theorem bsUnary9_error {s : State} {e : BlockFault} (h : bsUnary9 s = .error e) : e = .truncated := by
  have hread : UnaryRead s 9 0 (bsUnary9 s) := bsUnaryFrom_read ..
  rw [h] at hread
  cases hread
  rfl

theorem onesAt_iff_of_end {s : State} {n : Nat} (hend : s.bitpos.toNat + n ≤ s.bitend.toNat) :
    OnesAt s n ↔ ∀ j < n, bitAt s (s.bitpos.toNat + j) = true :=
  ⟨fun h j hj => (h j hj).2, fun h j hj => ⟨by omega, h j hj⟩⟩

/-- Settles O6: the two ways a prefix can be read, and the fault. -/
theorem bsUnary9CountsOnes : Obligations.BsUnary9CountsOnes := by
  unfold Obligations.BsUnary9CountsOnes
  refine fun s => ⟨fun p t => ?_, fun t => ?_, fun e => bsUnary9_error⟩
  · rw [bsUnary9_eq_zero_iff, Nat.lt_succ_iff]
    constructor
    · rintro ⟨hp, hones, hend, h⟩
      exact ⟨hp, hend, (onesAt_iff_of_end (by omega)).1 hones, h⟩
    · rintro ⟨hp, hend, hones, h⟩
      exact ⟨hp, (onesAt_iff_of_end (by omega)).2 hones, hend, h⟩
  · rw [bsUnary9_eq_cap_iff]
    constructor
    · rintro ⟨hones, h⟩
      have hend := (hones 8 (by omega)).1
      exact ⟨hend, (onesAt_iff_of_end hend).1 hones, h⟩
    · rintro ⟨hend, hones, h⟩
      exact ⟨(onesAt_iff_of_end hend).2 hones, h⟩

/-- Settles O7: by the agreement of the two readings on the window of the stream. -/
theorem primitivesAgreeWithCodewordTable : Obligations.PrimitivesAgreeWithCodewordTable := by
  unfold Obligations.PrimitivesAgreeWithCodewordTable
  intro k w s
  rcases rdCode_agrees k w s with ⟨e, hdecode, hcode⟩ | ⟨i, c, rest, hdecode, hc, -, -, hcode⟩
  · simp only [hdecode, hcode]
  · simp only [hdecode, hc, hcode]

end Sys2Proof.Machine
end

section
/-! PROOFS. Codewords as steps (R63, R66, R97 to R99): the three formats as residual codes, any format as a zero-run code, the
faults, the frame and the refusals. -/

namespace Sys2Proof.Machine

/-! ### Residual codes -/

/-- A codeword as a residual code, where it is selected, its bits are there and HISTORY_MULT is legal. -/
theorem exec_residual_codeword {i : Instr} {c : Codeword} {sf : Bool} {s : State} (hc : i.codeword? = some c)
    (he : s.engine = .residual sf) (hi : s.rdIdx.toNat < s.sampleCount.toNat)
    (hread : c.readUnder (rdK s) s.sampleSize.toNat = true) (hb : s.bitpos.toNat + codewordReads c ≤ s.bitend.toNat)
    (hm : s.historyMult.toNat ≤ 255) :
    exec i s = .next (goOn sf (residualDone s (codewordLength s.params.giveBackOnZero c) (codewordValue c))) := by
  rw [exec_codeword hc, codeword_residual he hi hread hb, afterResidualCode_ok hm]

/-- Settles O8: CW_SHORT gives nothing back. -/
theorem shortCodewordIsResidual : Obligations.ShortCodewordIsResidual := by
  unfold Obligations.ShortCodewordIsResidual
  intro i p sf s hc he hi hk hb hm
  exact exec_residual_codeword hc he hi (by simp [Codeword.readUnder, hk]) hb hm

/-- Settles O9: by the suffix, which decides the value and what is given back. -/
theorem riceCodewordIsResidual : Obligations.RiceCodewordIsResidual := by
  unfold Obligations.RiceCodewordIsResidual
  intro i p k x sf s hc hwf he hi hk hb hm
  obtain ⟨-, -, hwf_iff⟩ := rice_le hc
  obtain ⟨hk1, -, -⟩ := hwf_iff.1 hwf
  have hread : (Codeword.rice p k x).readUnder (rdK s) s.sampleSize.toNat = true := by
    simp [Codeword.readUnder, hk]; omega
  have hexec := exec_residual_codeword hc he hi hread hb hm
  have hback : p + 1 + k - 1 = p + k := by omega
  refine ⟨fun hx => ?_, fun hx => ?_, fun hx hpb => ?_, fun hx hpb => ?_⟩
  · simpa [codewordLength, codewordReads, codewordGivesBack, codewordValue, hx] using hexec
  · simpa [codewordLength, codewordReads, codewordGivesBack, codewordValue, hx, hback] using hexec
  · simpa [codewordLength, codewordReads, codewordGivesBack, codewordValue, hx, Params.giveBackOnZero, hpb, hback] using hexec
  · simpa [codewordLength, codewordReads, codewordGivesBack, codewordValue, hx, Params.giveBackOnZero, hpb] using hexec

/-- Settles O10: CW_ESC is selected by the field width alone, and gives nothing back. -/
theorem escapeCodewordIsResidual : Obligations.EscapeCodewordIsResidual := by
  unfold Obligations.EscapeCodewordIsResidual
  intro w f sf s _ he hi hw hb hm
  exact exec_residual_codeword (c := .esc w f) rfl he hi (by simp [Codeword.readUnder, hw]) hb hm

/-! ### Zero-run codes -/

/-- A well-formed codeword fits the parameters that select it. -/
theorem fits_of_readUnder {i : Instr} {c : Codeword} {k w : Nat} (hc : i.codeword? = some c) (hwf : i.wf = true)
    (hread : c.readUnder k w = true) : c.Fits k w := by
  cases c with
  | short p => exact ⟨by simpa [Codeword.readUnder] using hread, (short_le hc).1⟩
  | rice p k' x =>
    obtain ⟨hp, -, hwf_iff⟩ := rice_le hc
    obtain ⟨rfl, hk⟩ : k = k' ∧ k' ≠ 0 := by simpa [Codeword.readUnder] using hread
    exact ⟨rfl, hk, hp, (hwf_iff.1 hwf).2.2⟩
  | esc w' f =>
    obtain rfl : w = w' := by simpa [Codeword.readUnder] using hread
    exact ⟨rfl, ((esc_wf hc).2.1 hwf).2.2⟩

/-- The count of a zero-run code fits 16 bits (R97, R98). -/
theorem zeroRun_value_le {s : State} {c : Codeword} {zk : Nat} (hdue : zeroRunDue s = true) (hzk : rdZk s = .ok zk)
    (hfits : c.Fits zk 16) : codewordValue c ≤ 0xFFFF := by
  have hlt : s.history.toNat < 128 := by
    simp only [zeroRunDue, Bool.and_eq_true, decide_eq_true_eq] at hdue
    exact hdue.1
  have hzk8 : zk ≤ 8 := by
    rcases rdZk_cases s with ⟨-, h⟩ | ⟨-, zk', h, -, hle⟩
    · rw [h] at hzk; cases hzk
    · rw [h] at hzk; obtain rfl := Except.ok.inj hzk; exact hle hlt
  have hpow : 2 ^ zk ≤ 2 ^ 8 := Nat.pow_le_pow_right (by omega) hzk8
  have hvalue := codewordValue_le hfits
  omega

/-- Settles O11: what is left is the state `insertZeros` makes, whose entries `get?_storeZeros` gives. -/
theorem zeroRunCodewordInsertsZeros : Obligations.ZeroRunCodewordInsertsZeros := by
  unfold Obligations.ZeroRunCodewordInsertsZeros
  intro i c zk sf s hc hwf he hdue hzk hread hb hz
  have hvalue := zeroRun_value_le hdue hzk (fits_of_readUnder hc hwf hread)
  refine ⟨insertZeros (codewordValue c) (advance (codewordLength s.params.giveBackOnZero c) s), ?_, ?_, fun j => ?_⟩
  · rw [exec_codeword hc, codeword_zeroRun he hzk hread hb, afterZeroRunCode]
    rcases useZeroRun_cases (codewordValue c) (advance (codewordLength s.params.giveBackOnZero c) s) with ⟨hlt, -⟩ | ⟨-, h⟩
    · exact absurd hlt (Nat.not_lt.2 hz)
    · rw [h]
  · have hmod : zrunModifier (codewordValue c) s.signModifier = true := if_pos hvalue
    rw [← hmod]
    rfl
  · simp only [resWord, insertZeros_res, advance_res, advance_rdIdx, get?_storeZeros]
    by_cases hj : s.rdIdx.toNat < j ∧ j ≤ s.rdIdx.toNat + codewordValue c
    · rw [if_pos hj, if_pos (by omega)]; rfl
    · rw [if_neg hj, if_neg (by omega)]

/-! ### Faults and refusals -/

theorem codeword_of_residual {c : Codeword} {sf : Bool} {s : State} (he : s.engine = .residual sf)
    (hi : s.rdIdx.toNat < s.sampleCount.toNat) :
    codeword c s = readCodeword (rdRunOf sf) (rdK s) s.sampleSize.toNat c (afterResidualCode sf) s := by
  simp only [codeword, he, if_pos hi]

theorem codeword_of_complete {c : Codeword} {sf : Bool} {s : State} (he : s.engine = .residual sf)
    (hi : s.sampleCount.toNat ≤ s.rdIdx.toNat) : codeword c s = .refused .codewordNotDue := by
  simp only [codeword, he, if_neg (Nat.not_lt.2 hi)]

theorem codeword_of_zeroRun {c : Codeword} {sf : Bool} {zk : Nat} {s : State} (he : s.engine = .zeroRun sf)
    (hzk : rdZk s = .ok zk) :
    codeword c s = readCodeword (rdRunOf sf) zk 16 c (afterZeroRunCode sf) s := by
  simp only [codeword, he, hzk, Config.zrunWidth]

theorem codeword_of_log2Zero {c : Codeword} {sf : Bool} {s : State} (he : s.engine = .zeroRun sf) (h0 : s.history.toNat = 0) :
    codeword c s = .next (enterFault (rdRunOf sf) .log2Zero s) := by
  have hzk : rdZk s = .error .log2Zero := if_pos h0
  simp only [codeword, he, hzk]

theorem readCodeword_truncated {run : Run} {k w : Nat} {c : Codeword} {use : Nat → State → State} {s : State}
    (hread : c.readUnder k w = true) (hb : s.bitend.toNat < s.bitpos.toNat + codewordReads c) :
    readCodeword run k w c use s = .next (enterFault run .truncated s) := by
  rw [readCodeword, if_pos hread, if_pos hb]

theorem readCodeword_notSelected {run : Run} {k w : Nat} {c : Codeword} {use : Nat → State → State} {s : State}
    (hread : c.readUnder k w = false) : readCodeword run k w c use s = .refused .codewordNotSelected := by
  simp only [readCodeword, hread, Bool.false_eq_true, if_false]

/-- The status a fault entered leaves (R176). -/
theorem enterFault_status (run : Run) (e : BlockFault) (s : State) :
    (enterFault run e s).fault = true ∧ (enterFault run e s).faultCode = faultCodeOf e
      ∧ (enterFault run e s).engine = .idle :=
  ⟨enterFault_fault .., enterFault_faultCode .., enterFault_engine ..⟩

/-- Settles O12: the first check that fails decides the fault. -/
theorem codewordStepFaults : Obligations.CodewordStepFaults := by
  unfold Obligations.CodewordStepFaults
  intro i c sf s hc
  rw [exec_codeword hc]
  refine ⟨fun he h0 => ?_, fun he hi hread hb => ?_, fun zk he hzk hread hb => ?_, fun zk he hzk hread hb hz => ?_⟩
  · exact ⟨_, codeword_of_log2Zero he (by simp [h0]), enterFault_status ..⟩
  · exact ⟨_, (codeword_of_residual he hi).trans (readCodeword_truncated hread hb), enterFault_status ..⟩
  · exact ⟨_, (codeword_of_zeroRun he hzk).trans (readCodeword_truncated hread hb), enterFault_status ..⟩
  · rw [codeword_zeroRun he hzk hread hb, afterZeroRunCode]
    rcases useZeroRun_cases (codewordValue c) (advance (codewordLength s.params.giveBackOnZero c) s) with ⟨-, h⟩ | ⟨hle, -⟩
    · rw [h]; exact ⟨_, rfl, enterFault_status ..⟩
    · exact absurd hle (Nat.not_le.2 hz)

/-- A command executed while a command is running is refused (R134, R201). -/
theorem exec_command_busy {i : Instr} {s : State} (hbusy : s.engine ≠ .idle) (hc : i.codeword? = none) :
    exec i s = .refused .commandWhileBusy := by
  cases i with
  | nop | rdRun | prRun | sfRun | reservedCmd _ => exact ifAccepted_busy hbusy
  | clrFault | softReset => exact ifIdle_busy hbusy
  | _ => nomatch hc

/-- Settles O14: a codeword by the point at which the engine stands, a command by its acceptance. -/
theorem refusedWhereNoMeaning : Obligations.RefusedWhereNoMeaning := by
  unfold Obligations.RefusedWhereNoMeaning
  refine ⟨fun i c sf s hc => ?_, fun i s hbusy hc => exec_command_busy hbusy hc⟩
  rw [exec_codeword hc]
  refine ⟨fun he => ?_, fun he => ?_, codeword_of_complete, fun he hi hread => ?_, fun zk he hzk hread => ?_⟩
  · simp only [codeword, he]
  · simp only [codeword, he]
  · exact (codeword_of_residual he hi).trans (readCodeword_notSelected hread)
  · exact (codeword_of_zeroRun he hzk).trans (readCodeword_notSelected hread)

/-! ### What a codeword step can do, and its frame -/

/-- The outcomes of a codeword step: a fault, a residual stored at RD_IDX, or zeros after it. -/
inductive CodewordStep (c : Codeword) (s : State) : State → Prop where
  | fault (run : Run) (e : BlockFault) : CodewordStep c s (enterFault run e s)
  | residual (sf : Bool) (m : State) (v : Word) (he : s.engine = .residual sf) (hframe : RdFrame s m)
      (hres : m.res = s.res.set s.rdIdx.toNat v) : CodewordStep c s (goOn sf m)
  | zeros (sf : Bool) (n : Nat) (he : s.engine = .zeroRun sf) :
      CodewordStep c s (afterResidual sf (insertZeros (codewordValue c) (advance n s)))

theorem afterResidualCode_step {c : Codeword} {s : State} {sf : Bool} (he : s.engine = .residual sf) (v n : Nat) :
    CodewordStep c s (afterResidualCode sf v (advance n s)) := by
  unfold afterResidualCode
  rcases useResidual_cases v (advance n s) with h | ⟨x, h⟩ <;> rw [h]
  · dsimp only
    rw [enterFault_advance (rdRunOf sf) rfl]
    exact .fault ..
  · exact .residual sf _ _ he rfl rfl

theorem afterZeroRunCode_step {c : Codeword} {s : State} {sf : Bool} (he : s.engine = .zeroRun sf) (n : Nat) :
    CodewordStep c s (afterZeroRunCode sf (codewordValue c) (advance n s)) := by
  unfold afterZeroRunCode
  rcases useZeroRun_cases (codewordValue c) (advance n s) with ⟨-, h⟩ | ⟨-, h⟩ <;> rw [h]
  · dsimp only
    rw [enterFault_advance (rdRunOf sf) rfl]
    exact .fault ..
  · exact .zeros sf n he

theorem readCodeword_step {run : Run} {k w : Nat} {c : Codeword} {use : Nat → State → State} {s t : State}
    (huse : ∀ n, CodewordStep c s (use (codewordValue c) (advance n s))) (h : readCodeword run k w c use s = .next t) :
    CodewordStep c s t := by
  unfold readCodeword at h
  split at h
  · split at h <;> obtain rfl := Host.Outcome.next.inj h
    · exact .fault ..
    · exact huse _
  · cases h

theorem codeword_step {c : Codeword} {s t : State} (h : codeword c s = .next t) : CodewordStep c s t := by
  unfold codeword at h
  split at h
  · cases h
  · cases h
  · rename_i sf he
    split at h
    · exact readCodeword_step (afterResidualCode_step he _) h
    · cases h
  · rename_i sf he
    split at h
    · obtain rfl := Host.Outcome.next.inj h; exact .fault ..
    · exact readCodeword_step (afterZeroRunCode_step he) h

/-- Everything but what a codeword step can change is as it was. -/
def CodewordUnchanged (s t : State) : Prop :=
  t = { s with
    done := t.done, bitpos := t.bitpos, history := t.history, signModifier := t.signModifier, rdIdx := t.rdIdx,
    prIdx := t.prIdx, res := t.res, engine := t.engine }

theorem RdFrame.eq_with {s m : State} (h : RdFrame s m) :
    ∃ a b c d e, m = { s with bitpos := a, history := b, signModifier := c, rdIdx := d, res := e } :=
  ⟨_, _, _, _, _, h⟩

theorem afterResidual_unchanged {s m : State} (hframe : RdFrame s m) (sf : Bool) :
    CodewordUnchanged s (afterResidual sf m)
      ∧ ((afterResidual sf m).engine = .predict true ∨ (afterResidual sf m).prIdx = s.prIdx) := by
  obtain ⟨a, b, c, d, e, rfl⟩ := hframe.eq_with
  unfold afterResidual
  dsimp only
  split
  · exact ⟨rfl, .inr rfl⟩
  · cases sf with
    | false => exact ⟨rfl, .inr rfl⟩
    | true => exact ⟨rfl, .inl rfl⟩

theorem goOn_res (sf : Bool) (m : State) : (goOn sf m).res = m.res := by
  unfold goOn
  split
  · rfl
  · exact afterResidual_res ..

theorem goOn_unchanged {s m : State} (hframe : RdFrame s m) (sf : Bool) :
    CodewordUnchanged s (goOn sf m) ∧ ((goOn sf m).engine = .predict true ∨ (goOn sf m).prIdx = s.prIdx) := by
  unfold goOn
  split
  · obtain ⟨a, b, c, d, e, rfl⟩ := hframe.eq_with
    exact ⟨rfl, .inr rfl⟩
  · exact afterResidual_unchanged hframe sf

theorem resWord_congr {s t : State} {j : Nat} (h : t.res.get? j = s.res.get? j) : resWord t j = resWord s j := by
  simp only [resWord, h]

theorem smpWord_congr {s t : State} {j : Nat} (h : t.smp.get? j = s.smp.get? j) : smpWord t j = smpWord s j := by
  simp only [smpWord, h]

theorem bsByte_congr {s t : State} (h : t.bsmem = s.bsmem) (a : Nat) : bsByte t a = bsByte s a := by
  simp only [bsByte, h]

/-- Settles O13: by what a codeword step without a fault can be. -/
theorem codewordFrame : Obligations.CodewordFrame := by
  unfold Obligations.CodewordFrame
  intro i c s t hc h hs ht
  rw [exec_codeword hc] at h
  cases codeword_step h with
  | fault run e => rw [enterFault_fault] at ht; cases ht
  | residual sf m v he hframe hres =>
    obtain ⟨hunchanged, hprIdx⟩ := goOn_unchanged hframe sf
    have hother : ∀ j, j ≠ s.rdIdx.toNat → resWord (goOn sf m) j = resWord s j := fun j hj =>
      resWord_congr (by rw [goOn_res, hres, Memory.get?_set_other _ _ hj])
    refine ⟨hunchanged, bsByte_congr (by rw [hunchanged]), fun j => smpWord_congr (by rw [hunchanged]),
      fun j hj => hother j (by omega), fun _ j _ => hother j, fun sf' j he' => ?_, hprIdx⟩
    rw [he] at he'; cases he'
  | zeros sf n he =>
    obtain ⟨hunchanged, hprIdx⟩ := afterResidual_unchanged (s := s) (m := insertZeros (codewordValue c) (advance n s)) rfl sf
    have hother : ∀ j, (j ≤ s.rdIdx.toNat ∨ s.rdIdx.toNat + codewordValue c < j) →
        resWord (afterResidual sf (insertZeros (codewordValue c) (advance n s))) j = resWord s j := fun j hj =>
      resWord_congr (by
        rw [afterResidual_res, insertZeros_res, get?_storeZeros, if_neg (by rw [advance_rdIdx]; omega), advance_res])
    refine ⟨hunchanged, bsByte_congr (by rw [hunchanged]), fun j => smpWord_congr (by rw [hunchanged]),
      fun j hj => hother j (by omega), fun sf' j he' => ?_, fun _ j _ => hother j, hprIdx⟩
    rw [he] at he'; cases he'

end Sys2Proof.Machine
end

section
/-! PROOFS. The Rice parameters by their tables (R90, R97), and the history update (R96). -/

namespace Sys2Proof.Machine

/-! ### RD.K -/

/-- The row of the table of R90 that HISTORY is in. -/
theorem ilog2_of_range {h m : Nat} (hm : 1 ≤ m) (hlow : 512 * (2 ^ m - 3) ≤ h) (hhigh : h ≤ 512 * (2 ^ (m + 1) - 3) - 1) :
    ilog2 (h / 512 + 3) = m := by
  have hpow : 2 ^ 1 ≤ 2 ^ m := Nat.pow_le_pow_right (by omega) hm
  rw [Nat.pow_succ] at hhigh
  refine (Nat.log2_eq_iff (by omega)).2 ⟨by omega, ?_⟩
  rw [Nat.pow_succ]
  omega

/-- RD.K before MAXIMUM_K limits it is at least 1. -/
theorem one_le_ilog2 (h : Nat) : 1 ≤ ilog2 (h / 512 + 3) := (Nat.le_log2 (by omega)).2 (by omega)

theorem rdK_eq_zero_iff (s : State) : rdK s = 0 ↔ s.maximumK = 0 := by
  have hlog := one_le_ilog2 s.history.toNat
  constructor
  · intro h
    have hzero : s.maximumK.toNat = 0 := by unfold rdK at h; omega
    exact BitVec.eq_of_toNat_eq hzero
  · intro h
    simp [rdK, h]

/-- Settles O15: the rows of the table, the limit of 23 and when it is 0. -/
theorem riceParameterRanges : Obligations.RiceParameterRanges := by
  unfold Obligations.RiceParameterRanges
  refine fun s => ⟨fun m hm hlow hhigh => ?_, rdK_le s, rdK_eq_zero_iff s⟩
  rw [rdK, ilog2_of_range hm hlow hhigh]

/-! ### RD.ZK -/

/-- The rows of the table of R97. -/
def zeroRunTable (h : Nat) : Nat :=
  if h = 1 then 7 else if h ≤ 3 then 6 else if h ≤ 7 then 5 else if h ≤ 15 then 4 else if h ≤ 31 then 3
  else if h ≤ 47 then 2 else if h ≤ 63 then 3 else if h ≤ 111 then 2 else 3

/-- The formula of R97 has the values of its table at the 127 values of HISTORY. -/
theorem zeroRun_formula_eq_table : ∀ h < 128, h ≠ 0 → 7 - ilog2 h + (h + 16) / 64 = zeroRunTable h := by decide

/-- Settles O16: the formula by its table. -/
theorem zeroRunParameterTable : Obligations.ZeroRunParameterTable := by
  unfold Obligations.ZeroRunParameterTable
  intro s hlt
  dsimp only
  by_cases h0 : s.history.toNat = 0
  · rw [rdZk, if_pos h0, if_pos h0]
  · rw [rdZk, if_neg h0, if_neg h0, zeroRun_formula_eq_table _ hlt h0, Nat.min_comm]
    rfl

/-! ### RD.HIST -/

/-- E_HIST_OVF, where the new value leaves 32 bits (R96). -/
theorem rdHist_overflow {u : Nat} {s : State} (hu : u ≤ 0xFFFF)
    (hovf : 2 ^ 32 - 1 < s.history.toNat + u * s.historyMult.toNat - s.history.toNat * s.historyMult.toNat / 512) :
    rdHist u s = .error .histOvf := by
  have hexact : histUpdate s.history.toNat s.historyMult.toNat u > 2 ^ 32 - 1 := by
    simp only [histUpdate]
    generalize s.history.toNat * s.historyMult.toNat = a at *
    generalize u * s.historyMult.toNat = b at *
    omega
  rw [rdHist, if_pos hu]
  exact if_pos hexact

/-- With a legal HISTORY_MULT less than the whole of HISTORY decays. -/
theorem history_decay_lt {h m : Nat} (hm : m ≤ 255) (hh : 1 ≤ h) : h * m / 512 < h := by
  have hle : h * m ≤ h * 255 := Nat.mul_le_mul_left _ hm
  omega

/-- With a legal HISTORY_MULT a HISTORY of at least 1 stays at least 1 (R97). -/
theorem rdHist_pos {u : Nat} {s t : State} (hm : s.historyMult.toNat ≤ 255) (hh : 1 ≤ s.history.toNat)
    (h : rdHist u s = .ok t) : 1 ≤ t.history.toNat := by
  rw [rdHist_ok hm] at h
  obtain rfl := Except.ok.inj h
  rw [setHistory_history]
  split
  case isTrue hu =>
    have hfits := history_fits hm s.history.isLt hu
    have hdecay := history_decay_lt hm hh
    rw [BitVec.toNat_ofNat, Nat.mod_eq_of_lt (by omega)]
    omega
  case isFalse => decide

/-- Settles O19: the overflow, the limit for a large value, and the formula under a legal HISTORY_MULT. -/
theorem historyUpdate : Obligations.HistoryUpdate := by
  unfold Obligations.HistoryUpdate
  intro u s
  refine ⟨rdHist_overflow, fun hu => ?_, fun hm => ⟨history_mul_div_le hm, fun hu => ?_, fun t h hh => rdHist_pos hm hh h⟩⟩
  · rw [rdHist, if_neg (Nat.not_le.2 hu)]; rfl
  · exact ⟨history_fits hm s.history.isLt hu, rdHist_formula hm hu (history_fits hm s.history.isLt hu)⟩

end Sys2Proof.Machine
end

section
/-! PROOFS. The working commands by their outcomes: what a completed one is, and what a failed check leaves (R134, R174, R176). -/

namespace Sys2Proof.Machine

/-- A command that ends without a fault is one whose body completes. -/
theorem exec_commandOf_completed_iff {s t : State} (run : Run) (h : Ready s) (ht : t.fault = false) :
    exec (commandOf run) s = .next t ↔ runBody run (clearDone s) = .ok t := by
  rw [exec_commandOf_ready run h]
  cases runBody run (clearDone s) with
  | error e =>
    refine ⟨fun hnext => ?_, nofun⟩
    rw [← Host.Outcome.next.inj hnext, settle, enterFault_fault] at ht
    cases ht
  | ok m => simp [settle]

/-- A command whose check fails leaves STATUS and FAULT_CODE changed and nothing else (R174, R176). -/
theorem exec_commandOf_config {s : State} {run : Run} {e : BlockFault} (h : Ready s)
    (hbody : runBody run (clearDone s) = .error e) (he : midCommand e = false) :
    exec (commandOf run) s = .next { s with done := false, fault := true, faultCode := faultCodeOf e } := by
  rw [exec_commandOf_ready run h, hbody, settle, enterFault_of_idle he (s := clearDone s) h.1]
  rfl

theorem rdRunBody_eq_ok_iff (s t : State) :
    rdRunBody s = .ok t ↔ checkConfigRd s = .ok () ∧ ∃ m, rdBlock s = .ok m ∧ t = finish m := by
  rw [rdRunBody_eq]
  cases checkConfigRd s with
  | error e => simp [Except.bind]
  | ok _ => cases rdBlock s <;> simp [Except.bind, Except.map, eq_comm]

theorem prRunBody_eq_ok_iff (s t : State) :
    prRunBody s = .ok t ↔ checkConfigPr s = .ok () ∧ ∃ m, prBlock s = .ok m ∧ t = finish m := by
  rw [prRunBody_eq]
  cases checkConfigPr s with
  | error e => simp [Except.bind]
  | ok _ => cases prBlock s <;> simp [Except.bind, Except.map, eq_comm]

theorem sfRunBody_eq_ok_iff (s t : State) :
    sfRunBody s = .ok t ↔ checkConfigRd s = .ok () ∧ checkConfigPr s = .ok ()
      ∧ ∃ m, rdBlock s = .ok m ∧ ∃ p, prBlock m = .ok p ∧ t = finish p := by
  rw [sfRunBody_eq]
  cases checkConfigRd s with
  | error e => simp [Except.bind]
  | ok _ =>
    cases checkConfigPr s with
    | error e => simp [Except.bind]
    | ok _ =>
      cases rdBlock s with
      | error e => simp [Except.bind]
      | ok m => cases hp : prBlock m <;> simp [Except.bind, Except.map, hp, eq_comm (a := t)]

theorem exec_rdRun_completed_iff {s t : State} (h : Ready s) (ht : t.fault = false) :
    exec .rdRun s = .next t ↔ checkConfigRd s = .ok () ∧ ∃ m, rdBlock (clearDone s) = .ok m ∧ t = finish m :=
  (exec_commandOf_completed_iff .rd h ht).trans (rdRunBody_eq_ok_iff (clearDone s) t)

theorem exec_prRun_completed_iff {s t : State} (h : Ready s) (ht : t.fault = false) :
    exec .prRun s = .next t ↔ checkConfigPr s = .ok () ∧ ∃ m, prBlock (clearDone s) = .ok m ∧ t = finish m := by
  rw [← checkConfigPr_clearDone s]
  exact (exec_commandOf_completed_iff .pr h ht).trans (prRunBody_eq_ok_iff (clearDone s) t)

theorem exec_sfRun_completed_iff {s t : State} (h : Ready s) (ht : t.fault = false) :
    exec .sfRun s = .next t ↔ checkConfigRd s = .ok () ∧ checkConfigPr s = .ok ()
      ∧ ∃ m, rdBlock (clearDone s) = .ok m ∧ ∃ p, prBlock m = .ok p ∧ t = finish p := by
  rw [← checkConfigPr_clearDone s]
  exact (exec_commandOf_completed_iff .sf h ht).trans (sfRunBody_eq_ok_iff (clearDone s) t)

/-- RD_RUN accepted with a legal configuration ends as its residual loop does (R100). -/
theorem exec_rdRun_ready {s : State} (h : Ready s) (hc : checkConfigRd s = .ok ()) :
    exec .rdRun s = .next (settle .rd (clearDone s) ((rdBlock (clearDone s)).map finish)) := by
  have hbody : runBody .rd (clearDone s) = (rdBlock (clearDone s)).map finish := by
    have hcheck : checkConfigRd (clearDone s) = .ok () := hc
    rw [runBody, rdRunBody_eq, hcheck]
    rfl
  rw [← hbody]
  exact exec_commandOf_ready .rd h

/-- Settles O45: a check that passes has every register in its range. -/
theorem rdRunConfiguration : Obligations.RdRunConfiguration := by
  unfold Obligations.RdRunConfiguration
  intro s hready hillegal
  rcases checkConfigRd_cases s with hc | hc
  · have hlegal := checkConfigRd_ok hc
    omega
  · have hbody : runBody .rd (clearDone s) = .error .config := by
      have hcheck : checkConfigRd (clearDone s) = .error .config := hc
      rw [runBody, rdRunBody_eq, hcheck]
      rfl
    exact exec_commandOf_config hready hbody rfl

end Sys2Proof.Machine
end

section
/-! PROOFS. RD_RUN (R98 to R102): what a completed one has written, and the streams on which it completes. -/

namespace Sys2Proof.Machine

/-! ### A completed RD_RUN -/

/-- On an idle engine, `finish` sets DONE and nothing else. -/
theorem finish_of_idle {s : State} (hidle : s.engine = .idle) : finish s = { s with done := true } := by
  rw [finish, ← hidle]

/-- Settles O21: by what the residual loop has done. -/
theorem rdRunWritesWholeBlock : Obligations.RdRunWritesWholeBlock := by
  unfold Obligations.RdRunWritesWholeBlock
  intro s t hready h ht
  obtain ⟨hc, m, hm, rfl⟩ := (exec_rdRun_completed_iff hready ht).1 h
  obtain ⟨hmoved, hidx, -⟩ := rdBlock_moved (s := clearDone s) hc hm
  have hframe := hmoved.frame
  have hidle : m.engine = .idle := by rw [hframe]; exact hready.1
  rw [finish_of_idle hidle]
  have hbsmem : m.bsmem = s.bsmem := by rw [hframe]; rfl
  have hsmp : m.smp = s.smp := by rw [hframe]; rfl
  have hcoef : m.coef = s.coef := by rw [hframe]; rfl
  refine ⟨rfl, hidx, fun j hj => ?_, fun j hj => ?_, hmoved.bitpos_le, hmoved.bitpos_end, bsByte_congr hbsmem,
    fun j => smpWord_congr (by rw [hsmp]), fun j => by simp only [coefWord, hcoef], ?_⟩
  · exact hmoved.written j (Nat.zero_le j) (hidx ▸ hj)
  · exact hmoved.kept j (.inr (hidx ▸ hj))
  · obtain ⟨a, b, c, d, e, rfl⟩ := RdFrame.eq_with hframe
    rfl

/-! ### Streams with enough bits -/

/-- With `9 + max k w` bits left RD.CODE has a value in its range and a length within those bits (R69, R91). -/
theorem rdCode_of_ample {k w : Nat} {s : State} (h : s.bitpos.toNat + (9 + max k w) ≤ s.bitend.toNat) :
    ∃ v n, rdCode k w s = .ok (v, advance n s) ∧ n ≤ 9 + max k w ∧ (k = 0 → v ≤ max (2 ^ w - 1) 8) := by
  rcases rdCode_cases k w s with herr | ⟨v, n, hok, -, hn, -, -, hv⟩
  · obtain ⟨v, n, hok⟩ := rdCode_ample h
    cases herr.symm.trans hok
  · exact ⟨v, n, hok, hn, hv⟩

/-- A residual after which no zero-run is due (R98, R99). -/
theorem rdStep_of_not_due {s : State} {v n : Nat} (hm : s.historyMult.toNat ≤ 255)
    (hcode : rdCode (rdK s) s.sampleSize.toNat s = .ok (v, advance n s))
    (hdue : zeroRunDue (residualDone s n v) = false) : rdStep s = .ok (nextResidual (residualDone s n v)) := by
  have hread : readResidual s = .ok (residualDone s n v) := by
    simp [readResidual, hcode, bind, Except.bind, useResidual_ok hm]
  have hzrun : rdZrun (residualDone s n v) = .ok (residualDone s n v) := by simp [rdZrun, hdue, pure, Except.pure]
  rw [rdStep_eq, hread, Except.bind, hzrun, Except.bind]

theorem resAt_residualDone {s : State} {v n : Nat} (hv : v < 2 ^ 31) :
    resAt (residualDone s n v) s.rdIdx.toNat = rdMap (v + s.signModifier.toNat) := by
  obtain ⟨hlow, hhigh⟩ := rdMap_range (u := v + s.signModifier.toNat) (by have := Bool.toNat_le s.signModifier; omega)
  exact resAt_setRes (s := s) (fitsEntry_of_range hlow hhigh)

theorem resAt_residualDone_other {s : State} {v n j : Nat} (hj : j ≠ s.rdIdx.toNat) :
    resAt (residualDone s n v) j = resAt s j :=
  congrArg BitVec.toInt (resWord_setRes_other (r := rdMap (v + s.signModifier.toNat)) hj)

theorem nextResidual_toNat {s : State} (h : s.rdIdx.toNat < s.sampleCount.toNat) :
    (nextResidual s).rdIdx.toNat = s.rdIdx.toNat + 1 := by
  have := s.sampleCount.isLt
  simp only [nextResidual_rdIdx, BitVec.toNat_ofNat]
  omega

/-! ### A HISTORY that cannot collapse -/

/-- With HISTORY_MULT 0 a HISTORY of 128 or more stays so. -/
theorem residualDone_history_frozen {s : State} {n v : Nat} (hm : s.historyMult = 0) (hh : 128 ≤ s.history.toNat) :
    128 ≤ (residualDone s n v).history.toNat := by
  simp only [residualDone, hm]
  split
  · simpa using hh
  · decide

/-- The magnitude of a residual of `w` bits and no modifier (R94). -/
theorem rdMap_abs_le {v w : Nat} (hw : 4 ≤ w) (hv : v ≤ max (2 ^ w - 1) 8) : |rdMap v| ≤ 2 ^ (w - 1) := by
  obtain ⟨k, rfl⟩ : ∃ k, w = k + 1 := ⟨w - 1, by omega⟩
  have hk : 2 ^ 3 ≤ 2 ^ k := Nat.pow_le_pow_right (by omega) (by omega)
  rw [Nat.pow_succ] at hv
  rw [Nat.add_sub_cancel, abs_le]
  have hcast : ((2 : Int) ^ k) = ((2 ^ k : Nat) : Int) := by push_cast; rfl
  rw [hcast]
  generalize 2 ^ k = a at *
  unfold rdMap
  split <;> omega

/-- How far a residual loop with a frozen HISTORY has come from `s` to `t`: no zero-run and no modifier, at most 40 bits for
each residual, and with bare prefixes and escapes alone every residual within the field width. -/
structure Frozen (s t : State) : Prop where
  moved : RdMoved s t
  history : 128 ≤ t.history.toNat
  modifier : t.signModifier = false
  bits : t.bitpos.toNat ≤ s.bitpos.toNat + 40 * t.rdIdx.toNat
  small : s.maximumK = 0 → 4 ≤ s.sampleSize.toNat → ∀ j < t.rdIdx.toNat, |resAt t j| ≤ 2 ^ (s.sampleSize.toNat - 1)

/-- One residual further. -/
theorem Frozen.step {s t : State} (h : Frozen s t) (hm : s.historyMult = 0) (hs : s.sampleSize.toNat ≤ 31)
    (hi : t.rdIdx.toNat < s.sampleCount.toNat) (hb : s.bitpos.toNat + 40 * s.sampleCount.toNat ≤ s.bitend.toNat) :
    ∃ u, rdStep t = .ok u ∧ Frozen s u ∧ u.rdIdx.toNat = t.rdIdx.toNat + 1 := by
  have hmult : t.historyMult = 0 := h.moved.historyMult.trans hm
  have hsize := h.moved.sampleSize
  have hcount := h.moved.sampleCount
  have hbits := h.bits
  have hk := rdK_le t
  have hend := h.moved.bitend
  obtain ⟨v, n, hcode, hn, hv⟩ := rdCode_of_ample (k := rdK t) (w := t.sampleSize.toNat) (s := t) (by rw [hend, hsize]; omega)
  have hhist := residualDone_history_frozen (n := n) (v := v) hmult h.history
  have hdue : zeroRunDue (residualDone t n v) = false := by
    simp only [zeroRunDue, Bool.and_eq_false_iff, decide_eq_false_iff_not]
    exact .inl (Nat.not_lt.2 hhist)
  have hstep := rdStep_of_not_due (by simp [hmult]) hcode hdue
  have hmoved := (rdStep_moved (by rwa [hcount]) (by rwa [hsize]) hstep).1
  have hidx : (nextResidual (residualDone t n v)).rdIdx.toNat = t.rdIdx.toNat + 1 :=
    nextResidual_toNat (s := residualDone t n v) (by rw [← hcount] at hi; exact hi)
  have hpos : (nextResidual (residualDone t n v)).bitpos.toNat ≤ t.bitpos.toNat + n := by
    change (BitVec.ofNat 32 (t.bitpos.toNat + n)).toNat ≤ _
    rw [BitVec.toNat_ofNat]
    exact Nat.mod_le _ _
  refine ⟨_, hstep, ⟨h.moved.trans hmoved, hhist, rfl, ?_, fun hmax hw j hj => ?_⟩, hidx⟩
  · rw [hsize] at hn; rw [hidx]; omega
  · rw [hidx] at hj
    change |resAt (residualDone t n v) j| ≤ _
    rcases Nat.lt_succ_iff_lt_or_eq.1 hj with hlt | rfl
    · rw [resAt_residualDone_other hlt.ne]
      exact h.small hmax hw j hlt
    · have hzero : rdK t = 0 := (rdK_eq_zero_iff t).2 (h.moved.maximumK.trans hmax)
      have hv' := hv hzero
      rw [hsize] at hv'
      rw [resAt_residualDone (rdCode_value_lt hk (by rwa [hsize]) hcode), h.modifier]
      exact rdMap_abs_le hw hv'

/-- A residual loop with a frozen HISTORY and enough bits completes, whatever the bits are. -/
theorem Frozen.loop {s : State} (hm : s.historyMult = 0) (hs : s.sampleSize.toNat ≤ 31)
    (hb : s.bitpos.toNat + 40 * s.sampleCount.toNat ≤ s.bitend.toNat) (n : Nat) :
    ∀ {t : State}, Frozen s t → s.sampleCount.toNat ≤ t.rdIdx.toNat + n →
      ∃ u, rdLoop n t = .ok u ∧ Frozen s u ∧ u.rdIdx = s.sampleCount := by
  induction n with
  | zero =>
    intro t h hn
    have hle := h.moved.idx_end
    exact ⟨t, rfl, h, BitVec.eq_of_toNat_eq (by omega)⟩
  | succ n ih =>
    intro t h hn
    have hle := h.moved.idx_end
    rw [rdLoop, h.moved.sampleCount]
    split
    case isTrue hi =>
      obtain ⟨u, hstep, hu, hidx⟩ := h.step hm hs hi hb
      rw [hstep]
      exact ih hu (by omega)
    case isFalse hi => exact ⟨t, rfl, h, BitVec.eq_of_toNat_eq (by omega)⟩

/-- The residual part of a frame whose HISTORY cannot collapse, on a stream of enough bits. -/
theorem rdBlock_frozen {s : State} (hc : checkConfigRd s = .ok ()) (hm : s.historyMult = 0)
    (hh : 128 ≤ s.initialHistory.toNat) (hb : s.bitpos.toNat + 40 * s.sampleCount.toNat ≤ s.bitend.toNat) :
    ∃ t, rdBlock s = .ok t ∧ Frozen (startRd s) t ∧ t.rdIdx = s.sampleCount := by
  obtain ⟨-, -, -, hs, -, -, hpos⟩ := checkConfigRd_ok hc
  refine Frozen.loop (s := startRd s) hm hs hb s.sampleCount.toNat (t := startRd s) ?_ (by simp)
  exact ⟨.refl hpos (Nat.zero_le _), hh, rfl, Nat.le_add_right _ _, fun _ _ j hj => absurd hj (Nat.not_lt_zero j)⟩

/-- Settles O22: the residual loop with a frozen HISTORY. -/
theorem rdRunCompletesOnAmpleStream : Obligations.RdRunCompletesOnAmpleStream := by
  unfold Obligations.RdRunCompletesOnAmpleStream
  intro s hready hc hm hh hb
  obtain ⟨t, hblock, hfrozen, hidx⟩ := rdBlock_frozen (s := clearDone s) hc hm hh hb
  have hexec := exec_rdRun_ready hready hc
  rw [hblock] at hexec
  have hfault : t.fault = false := by rw [hfrozen.moved.frame]; exact hready.2
  have hbits := hfrozen.bits
  rw [hidx] at hbits
  exact ⟨finish t, hexec, ⟨rfl, hfault⟩, hidx, hfrozen.modifier, hbits⟩

/-! ### With enough bits no code is truncated -/

theorem readResidual_of_ample {s : State} (hs : s.sampleSize.toNat ≤ 31) (hb : s.bitpos.toNat + 40 ≤ s.bitend.toNat) :
    readResidual s = .error .histOvf ∨ ∃ m, readResidual s = .ok m ∧ m.bitpos.toNat ≤ s.bitpos.toNat + 40
      ∧ m.bitend = s.bitend := by
  have hk := rdK_le s
  obtain ⟨v, n, hcode, hn, -⟩ := rdCode_of_ample (k := rdK s) (w := s.sampleSize.toNat) (s := s) (by omega)
  have hread : readResidual s = useResidual v (advance n s) := by simp [readResidual, hcode, bind, Except.bind]
  rw [hread]
  rcases useResidual_cases v (advance n s) with h | ⟨x, h⟩
  · exact .inl h
  · have hpos := advance_toNat (n := n) (s := s) (by omega)
    exact .inr ⟨_, h, by simp only [setHistory_bitpos, setRes_bitpos, clearSm_bitpos, hpos]; omega, rfl⟩

theorem rdZrun_of_ample {s : State} (hb : s.bitpos.toNat + 25 ≤ s.bitend.toNat) : rdZrun s ≠ .error .truncated := by
  cases hdue : zeroRunDue s with
  | false => simp [rdZrun, hdue, pure, Except.pure]
  | true =>
    rcases rdZk_cases s with ⟨-, hzk⟩ | ⟨-, zk, hzk, -, hle⟩
    · simp [rdZrun, hdue, hzk, bind, Except.bind]
    · have hzk8 : zk ≤ 8 := hle (by simp [zeroRunDue] at hdue; exact hdue.1)
      obtain ⟨z, n, hcode, -⟩ := rdCode_of_ample (k := zk) (w := 16) (s := s) (by omega)
      have hzrun : rdZrun s = useZeroRun z (advance n s) := by
        simp [rdZrun, hdue, hzk, Config.zrunWidth, hcode, bind, Except.bind]
      rw [hzrun]
      rcases useZeroRun_cases z (advance n s) with ⟨-, h⟩ | ⟨-, h⟩ <;> simp [h]

/-- One RD.STEP is never truncated with 65 bits left: 40 for the residual code, 25 for the zero-run code (R66, R69). -/
theorem rdStep_of_ample {s : State} (hs : s.sampleSize.toNat ≤ 31) (hb : s.bitpos.toNat + 65 ≤ s.bitend.toNat) :
    rdStep s ≠ .error .truncated := by
  rw [rdStep_eq]
  rcases readResidual_of_ample hs (by omega) with h | ⟨m, h, hpos, hend⟩
  · simp [h, Except.bind]
  · have hzrun := rdZrun_of_ample (s := m) (by rw [hend]; omega)
    rw [h, Except.bind]
    cases hz : rdZrun m with
    | error e => rw [hz] at hzrun; exact hzrun
    | ok t => simp [Except.bind]

theorem rdLoop_of_ample (n : Nat) : ∀ {s : State}, s.sampleSize.toNat ≤ 31 →
    s.bitpos.toNat + 65 * (s.sampleCount.toNat - s.rdIdx.toNat) ≤ s.bitend.toNat → rdLoop n s ≠ .error .truncated := by
  induction n with
  | zero => intro s _ _; simp [rdLoop, pure, Except.pure]
  | succ n ih =>
    intro s hs hb
    rw [rdLoop]
    split
    case isTrue hi =>
      cases hstep : rdStep s with
      | error e =>
        have h := rdStep_of_ample hs (by omega)
        rwa [hstep] at h
      | ok t =>
        obtain ⟨hmoved, hidx, hpos⟩ := rdStep_moved hi hs hstep
        exact ih (by rwa [hmoved.sampleSize]) (by rw [hmoved.sampleCount, hmoved.bitend]; omega)
    case isFalse => simp [pure, Except.pure]

/-- Settles O23: of the faults RD_RUN can raise, E_TRUNCATED needs a stream that is too short. -/
theorem rdRunCompletesOrValuesFault : Obligations.RdRunCompletesOrValuesFault := by
  unfold Obligations.RdRunCompletesOrValuesFault
  intro s hready hc hb
  obtain ⟨-, -, -, hs, -⟩ := checkConfigRd_ok hc
  have hexec := exec_rdRun_ready hready hc
  cases hblock : rdBlock (clearDone s) with
  | ok t =>
    rw [hblock] at hexec
    have hfault := (rdBlock_worked (s := clearDone s) hc hblock).fault
    exact ⟨_, hexec, .inl ⟨rfl, hfault.trans hready.2⟩⟩
  | error e =>
    rw [hblock] at hexec
    have hbits : rdBlock (clearDone s) ≠ .error .truncated :=
      rdLoop_of_ample _ (s := startRd (clearDone s)) hs
        (by simp only [startRd_bitpos, startRd_sampleCount, startRd_rdIdx, startRd_bitend, clearDone_bitpos,
              clearDone_sampleCount, clearDone_bitend]; omega)
    have he := rdBlock_error (s := clearDone s) hc hblock
    simp only [midFaults, List.mem_cons, List.not_mem_nil, or_false] at he
    refine ⟨_, hexec, .inr ⟨enterFault_fault .., enterFault_done .., ?_⟩⟩
    change (enterFault .rd e (clearDone s)).faultCode = 5 ∨ _
    rw [enterFault_faultCode]
    rcases he with rfl | rfl | rfl
    · exact absurd hblock hbits
    · exact .inr rfl
    · exact .inl rfl

/-! ### None and one -/

theorem rdBlock_of_none {s : State} (h : s.sampleCount = 0) : rdBlock s = .ok (startRd s) := by rw [rdBlock, h]; rfl

theorem rdBlock_of_one {s t : State} (h : s.sampleCount = 1) (hstep : rdStep (startRd s) = .ok t) : rdBlock s = .ok t := by
  simp [rdBlock, h, rdLoop, hstep, bind, Except.bind, pure, Except.pure]

/-- Settles O24: the loop runs no round, or one after which no residual is left for a zero-run. -/
theorem rdRunOfNoneAndOne : Obligations.RdRunOfNoneAndOne := by
  unfold Obligations.RdRunOfNoneAndOne
  intro s hready hc
  have hexec := exec_rdRun_ready hready hc
  obtain ⟨hm, -, -, hs, -⟩ := checkConfigRd_ok hc
  refine ⟨fun hnone => ?_, fun hone v t hcode => ?_⟩
  · have hidle : (startRd (clearDone s)).engine = .idle := hready.1
    rw [hexec, rdBlock_of_none (s := clearDone s) hnone, Except.map, settle, finish_of_idle hidle]
    rfl
  · obtain ⟨v', n, hv, hv'⟩ : ∃ v' n, rdCode (rdK (startRd s)) s.sampleSize.toNat (startRd s) = .ok (v', advance n (startRd s))
        ∧ rdCode (rdK (startRd s)) s.sampleSize.toNat (startRd (clearDone s))
          = .ok (v', advance n (startRd (clearDone s))) := by
      rcases rdCode_congr (rdK (startRd s)) s.sampleSize.toNat (s := startRd s) (s' := startRd (clearDone s))
        rfl rfl rfl rfl with ⟨h, -⟩ | h
      · rw [h] at hcode; cases hcode
      · exact h
    obtain ⟨rfl, rfl⟩ : v' = v ∧ advance n (startRd s) = t := by simpa [hv] using hcode
    have hdue : zeroRunDue (residualDone (startRd (clearDone s)) n v') = false := by
      simp [zeroRunDue, residualDone, hone]
    have hstep := rdStep_of_not_due (s := startRd (clearDone s)) hm hv' hdue
    rw [rdBlock_of_one (s := clearDone s) hone hstep] at hexec
    have hlt : v' < 2 ^ 31 := rdCode_value_lt (rdK_le _) hs hv
    exact ⟨_, hexec, ⟨rfl, hready.2⟩, resAt_residualDone (s := startRd (clearDone s)) (n := n) hlt, rfl, rfl⟩

end Sys2Proof.Machine
end

section
/-! PROOFS. The two loops as sequences of their steps (R99, R100, R117, R118): a loop that completes has gone through states, each
left by a step from the one before, and such a sequence is what the loop computes. -/

namespace Sys2Proof.Machine

/-- A loop that makes a step while an index is below SAMPLE_COUNT, each step raising the index; `Ok` is what its steps need and
keep. -/
structure CountedLoop (idx : State → Word) (Ok : State → Prop) (step : State → Except BlockFault State)
    (loop : Nat → State → Except BlockFault State) : Prop where
  zero : ∀ s, loop 0 s = .ok s
  succ : ∀ n s, loop (n + 1) s = if (idx s).toNat < s.sampleCount.toNat then (step s).bind (loop n) else .ok s
  moved : ∀ {s t}, Ok s → (idx s).toNat < s.sampleCount.toNat → step s = .ok t →
    Ok t ∧ t.sampleCount = s.sampleCount ∧ (idx s).toNat < (idx t).toNat ∧ (idx t).toNat ≤ s.sampleCount.toNat

/-- A sequence of `k` steps, each made with the index below `count`. -/
def StepsOf (idx : State → Word) (step : State → Except BlockFault State) (count k : Nat) (σ : Nat → State) : Prop :=
  ∀ j < k, (idx (σ j)).toNat < count ∧ step (σ j) = .ok (σ (j + 1))

/-- A sequence with a state put before it. -/
def consState (s : State) (σ : Nat → State) : Nat → State
  | 0 => s
  | j + 1 => σ j

section

variable {idx : State → Word} {Ok : State → Prop} {step : State → Except BlockFault State}
  {loop : Nat → State → Except BlockFault State}

theorem stepsOf_cons {s : State} {count k : Nat} {σ : Nat → State} (hlt : (idx s).toNat < count) (hstep : step s = .ok (σ 0))
    (h : StepsOf idx step count k σ) : StepsOf idx step count (k + 1) (consState s σ) := by
  intro j hj
  cases j with
  | zero => exact ⟨hlt, hstep⟩
  | succ j => exact h j (by omega)

theorem stepsOf_tail {count k : Nat} {σ : Nat → State} (h : StepsOf idx step count (k + 1) σ) :
    StepsOf idx step count k (fun j => σ (j + 1)) := fun j hj => h (j + 1) (by omega)

/-- A loop run long enough completes exactly with what a sequence of its steps up to SAMPLE_COUNT leaves. -/
theorem CountedLoop.eq_ok_iff (h : CountedLoop idx Ok step loop) (n : Nat) : ∀ {s t : State}, Ok s →
    (idx s).toNat ≤ s.sampleCount.toNat → s.sampleCount.toNat ≤ (idx s).toNat + n →
      (loop n s = .ok t ↔ ∃ k σ, σ 0 = s ∧ StepsOf idx step s.sampleCount.toNat k σ ∧ idx (σ k) = s.sampleCount ∧ t = σ k) := by
  have stop : ∀ {n s}, ¬(idx s).toNat < s.sampleCount.toNat → loop n s = .ok s := by
    intro n s hge
    cases n with
    | zero => exact h.zero s
    | succ n => rw [h.succ, if_neg hge]
  induction n with
  | zero =>
    intro s t hs hle hn
    have hidx : idx s = s.sampleCount := BitVec.eq_of_toNat_eq (by omega)
    rw [h.zero]
    constructor
    · intro ht
      exact ⟨0, fun _ => s, rfl, fun j hj => absurd hj (Nat.not_lt_zero j), hidx, (Except.ok.inj ht).symm⟩
    · rintro ⟨k, σ, hσ, hsteps, hend, rfl⟩
      cases k with
      | zero => rw [hσ]
      | succ k =>
        have hlt := (hsteps 0 (by omega)).1
        rw [hσ] at hlt
        omega
  | succ n ih =>
    intro s t hs hle hn
    constructor
    · intro ht
      by_cases hlt : (idx s).toNat < s.sampleCount.toNat
      · rw [h.succ, if_pos hlt] at ht
        cases hstep : step s with
        | error e => rw [hstep] at ht; cases ht
        | ok u =>
          rw [hstep] at ht
          obtain ⟨hu, hcount, hgt, hle'⟩ := h.moved hs hlt hstep
          obtain ⟨k, σ, hσ, hsteps, hend, rfl⟩ := (ih hu (hcount ▸ hle') (by rw [hcount]; omega)).1 ht
          rw [hcount] at hsteps hend
          exact ⟨k + 1, consState s σ, rfl, stepsOf_cons hlt (hσ ▸ hstep) hsteps, hend, rfl⟩
      · rw [stop hlt] at ht
        have hidx : idx s = s.sampleCount := BitVec.eq_of_toNat_eq (by omega)
        exact ⟨0, fun _ => s, rfl, fun j hj => absurd hj (Nat.not_lt_zero j), hidx, (Except.ok.inj ht).symm⟩
    · rintro ⟨k, σ, hσ, hsteps, hend, rfl⟩
      cases k with
      | zero =>
        rw [hσ] at hend ⊢
        exact stop (by rw [hend]; omega)
      | succ k =>
        obtain ⟨hlt, hstep⟩ := hsteps 0 (by omega)
        rw [hσ] at hlt hstep
        obtain ⟨hu, hcount, hgt, hle'⟩ := h.moved hs hlt hstep
        rw [h.succ, if_pos hlt, hstep]
        refine (ih hu (hcount ▸ hle') (by rw [hcount]; omega)).2 ⟨k, fun j => σ (j + 1), rfl, ?_, ?_, rfl⟩
        · rw [hcount]; exact stepsOf_tail hsteps
        · rw [hcount]; exact hend

/-- Along the steps of a loop SAMPLE_COUNT stays. -/
theorem CountedLoop.steps_ok (h : CountedLoop idx Ok step loop) {s : State} {k : Nat} {σ : Nat → State} (hs : Ok s)
    (hσ : σ 0 = s) (hsteps : StepsOf idx step s.sampleCount.toNat k σ) (j : Nat) (hj : j ≤ k) :
    Ok (σ j) ∧ (σ j).sampleCount = s.sampleCount := by
  induction j with
  | zero => exact ⟨hσ ▸ hs, hσ ▸ rfl⟩
  | succ j ih =>
    obtain ⟨hok, hcount⟩ := ih (by omega)
    obtain ⟨hlt, hstep⟩ := hsteps j (by omega)
    obtain ⟨hok', hcount', -⟩ := h.moved hok (hcount ▸ hlt) hstep
    exact ⟨hok', hcount'.trans hcount⟩

end

theorem rdLoop_counted : CountedLoop State.rdIdx (fun s => s.sampleSize.toNat ≤ 31) rdStep rdLoop where
  zero := fun _ => rfl
  succ := fun _ _ => rfl
  moved := fun hs hlt hstep => by
    obtain ⟨hmoved, hgt, -⟩ := rdStep_moved hlt hs hstep
    exact ⟨hmoved.sampleSize ▸ hs, hmoved.sampleCount, hgt, hmoved.idx_end⟩

theorem prLoop_counted : CountedLoop State.prIdx (fun _ => True) prStep prLoop where
  zero := fun _ => rfl
  succ := fun _ _ => rfl
  moved := fun _ hlt hstep => by
    obtain ⟨hmoved, hidx⟩ := prStep_moved hlt hstep
    exact ⟨trivial, hmoved.sampleCount, by omega, by omega⟩

/-- PR.STEP is made for each sample in turn: the `j`-th state of a sequence from PR_IDX 0 stands before sample `j` (R117). -/
theorem prIdx_of_steps {s : State} {k : Nat} {σ : Nat → State} (hidx : s.prIdx = 0) (hσ : σ 0 = s)
    (hsteps : StepsOf State.prIdx prStep s.sampleCount.toNat k σ) (j : Nat) (hj : j ≤ k) : (σ j).prIdx.toNat = j := by
  induction j with
  | zero => rw [hσ, hidx]; rfl
  | succ j ih =>
    obtain ⟨hlt, hstep⟩ := hsteps j (by omega)
    have hcount := (prLoop_counted.steps_ok trivial hσ hsteps j (by omega)).2
    rw [(prStep_moved (hcount ▸ hlt) hstep).2, ih (by omega)]

theorem prBlock_eq_ok_iff {s t : State} :
    prBlock s = .ok t ↔ ∃ σ : Nat → State, σ 0 = startPr s
      ∧ (∀ j < s.sampleCount.toNat, (σ j).prIdx.toNat = j ∧ prStep (σ j) = .ok (σ (j + 1))) ∧ t = σ s.sampleCount.toNat := by
  have hiff := prLoop_counted.eq_ok_iff s.sampleCount.toNat (s := startPr s) (t := t) trivial (Nat.zero_le _) (by simp)
  rw [prBlock, hiff]
  constructor
  · rintro ⟨k, σ, hσ, hsteps, hend, rfl⟩
    have hk : k = s.sampleCount.toNat := by
      have hidx := prIdx_of_steps rfl hσ hsteps k le_rfl
      rw [hend] at hidx
      exact hidx.symm
    subst hk
    exact ⟨σ, hσ, fun j hj => ⟨prIdx_of_steps rfl hσ hsteps j (Nat.le_of_lt hj), (hsteps j hj).2⟩, rfl⟩
  · rintro ⟨σ, hσ, hsteps, rfl⟩
    have hsteps' : StepsOf State.prIdx prStep (startPr s).sampleCount.toNat s.sampleCount.toNat σ := fun j hj => by
      obtain ⟨hidx, hstep⟩ := hsteps j hj
      exact ⟨by rw [hidx]; exact hj, hstep⟩
    exact ⟨_, σ, hσ, hsteps', BitVec.eq_of_toNat_eq (prIdx_of_steps rfl hσ hsteps' _ le_rfl), rfl⟩

theorem rdBlock_eq_ok_iff {s t : State} (hc : checkConfigRd s = .ok ()) :
    rdBlock s = .ok t ↔ ∃ (n : Nat) (σ : Nat → State), σ 0 = startRd s
      ∧ (∀ j < n, (σ j).rdIdx.toNat < s.sampleCount.toNat ∧ rdStep (σ j) = .ok (σ (j + 1)))
      ∧ (σ n).rdIdx = s.sampleCount ∧ t = σ n := by
  obtain ⟨-, -, -, hs, -⟩ := checkConfigRd_ok hc
  exact rdLoop_counted.eq_ok_iff s.sampleCount.toNat (s := startRd s) hs (Nat.zero_le _) (by simp)

/-- Settles O25: both commands complete as their loops do. -/
theorem runsAreTheirLoops : Obligations.RunsAreTheirLoops := by
  unfold Obligations.RunsAreTheirLoops
  refine fun s t hready ht => ⟨?_, ?_⟩
  · rw [exec_rdRun_completed_iff hready ht]
    refine and_congr_right fun hc => ?_
    simp only [rdBlock_eq_ok_iff (s := clearDone s) hc]
    constructor
    · rintro ⟨m, ⟨n, σ, hσ, hsteps, hend, rfl⟩, rfl⟩
      exact ⟨n, σ, hσ, hsteps, hend, rfl⟩
    · rintro ⟨n, σ, hσ, hsteps, hend, rfl⟩
      exact ⟨σ n, ⟨n, σ, hσ, hsteps, hend, rfl⟩, rfl⟩
  · rw [exec_prRun_completed_iff hready ht]
    refine and_congr_right fun _ => ?_
    simp only [prBlock_eq_ok_iff]
    constructor
    · rintro ⟨m, ⟨σ, hσ, hsteps, rfl⟩, rfl⟩
      exact ⟨σ, hσ, hsteps, rfl⟩
    · rintro ⟨σ, hσ, hsteps, rfl⟩
      exact ⟨_, ⟨σ, hσ, hsteps, rfl⟩, rfl⟩

end Sys2Proof.Machine
end

section
/-! PROOFS. The predictor (R111 to R114, R118, R119): warm-up, a steady-state sample, QLP_SHIFT 0, the frame and the locality of
PR_RUN, and the order of its checks (R174). -/

namespace Sys2Proof.Machine

/-! ### Warm-up in any frame -/

/-- PR.WARM at PR_IDX adds the next residual to the running sum stored last. -/
theorem prWarm_eq {s t : State} (hres : ∀ i, resAt t i = resAt s i)
    (hsum : ∀ n, t.prIdx.toNat = n + 1 → smpAt t n = residualSum s (n + 1)) :
    prWarm t.prIdx.toNat t = storeSample t.prIdx.toNat (residualSum s (t.prIdx.toNat + 1)) t := by
  rw [prWarm, residualSum_succ, hres, hres]
  cases hn : t.prIdx.toNat with
  | zero => simp [residualSum]
  | succ n => simp [hsum n hn]

/-- How far a sample loop from `s` to `t` has come, as far as warm-up goes: the samples up to ORDER are running sums. -/
structure WarmedUp (s t : State) : Prop where
  moved : PrMoved s t
  sums : ∀ j < t.prIdx.toNat, j ≤ s.order.toNat → smpAt t j = residualSum s (j + 1)

theorem PrMoved.resAt {s t : State} (h : PrMoved s t) (i : Nat) : resAt t i = resAt s i := by rw [h.frame]; rfl

theorem PrMoved.smpAt_kept {s t : State} (h : PrMoved s t) {j : Nat} (hj : j < s.prIdx.toNat) : smpAt t j = smpAt s j :=
  congrArg BitVec.toInt (smpWord_congr (h.kept j (.inl hj)))

theorem WarmedUp.step {s t u : State} (h : WarmedUp s t) (hi : t.prIdx.toNat < s.sampleCount.toNat)
    (hstep : prStep t = .ok u) : WarmedUp s u := by
  obtain ⟨hmoved, hidx⟩ := prStep_moved (h.moved.sampleCount ▸ hi) hstep
  refine ⟨h.moved.trans hmoved, fun j hj hwarm => ?_⟩
  rw [hidx] at hj
  rcases Nat.lt_succ_iff_lt_or_eq.1 hj with hlt | rfl
  · rw [hmoved.smpAt_kept hlt, h.sums j hlt hwarm]
  · have hsum : ∀ n, t.prIdx.toNat = n + 1 → smpAt t n = residualSum s (n + 1) := fun n hn => h.sums n (by omega) (by omega)
    rw [prStep_of_warm (.inr (h.moved.order ▸ hwarm)), prWarm_eq h.moved.resAt hsum] at hstep
    rcases storeSample_cases t.prIdx.toNat (residualSum s (t.prIdx.toNat + 1)) t with ⟨hfit, hs⟩ | ⟨-, hs⟩
    · rw [hs] at hstep
      obtain rfl := Except.ok.inj hstep
      exact smpAt_setSmp hfit
    · rw [hs] at hstep; cases hstep

theorem WarmedUp.loop {s : State} (n : Nat) : ∀ {t u : State}, WarmedUp s t → prLoop n t = .ok u → WarmedUp s u := by
  induction n with
  | zero => intro t u h hloop; obtain rfl := Except.ok.inj hloop; exact h
  | succ n ih =>
    intro t u h hloop
    rw [prLoop, h.moved.sampleCount] at hloop
    split at hloop
    case isTrue hi =>
      cases hstep : prStep t with
      | error e => rw [hstep] at hloop; cases hloop
      | ok m => rw [hstep] at hloop; exact ih (h.step hi hstep) hloop
    case isFalse => obtain rfl := Except.ok.inj hloop; exact h

theorem prBlock_warmedUp {s t : State} (h : prBlock s = .ok t) : WarmedUp (startPr s) t :=
  WarmedUp.loop _ ⟨.refl _, fun j hj => absurd hj (Nat.not_lt_zero j)⟩ h

/-- Settles O27: the running sums survive the steady state, and a loop that warm-up covers whole reaches none. -/
theorem warmUpIsRunningSum : Obligations.WarmUpIsRunningSum := by
  unfold Obligations.WarmUpIsRunningSum
  refine ⟨fun s t hready h ht j hj hwarm => ?_, fun s hready hc hcount hfit => ?_⟩
  · obtain ⟨-, m, hm, rfl⟩ := (exec_prRun_completed_iff hready ht).1 h
    have hidx : m.prIdx = s.sampleCount := (prBlock_moved hm).2
    exact (prBlock_warmedUp hm).sums j (hidx ▸ hj) hwarm
  · obtain ⟨t, h, hcompleted, hcoef, -⟩ := (exec_prRun_warm hready hc (.inr hcount)).1 hfit
    exact ⟨t, h, hcompleted, hcoef⟩

/-! ### A steady-state sample -/

theorem prStep_of_steady {s : State} (ho : 1 ≤ s.order.toNat) (hi : s.order.toNat < s.prIdx.toNat) :
    prStep s = (prSteady s.prIdx.toNat s).map nextSample := by
  rw [prStep, if_neg (by omega)]
  cases prSteady s.prIdx.toNat s <;> rfl

theorem lpcSum_eq_sum (s : State) (t : Nat) (base : Int) (n : Nat) :
    lpcSum s t base n = ∑ j ∈ Finset.range n, coefAt s j * (smpAt s (t - 1 - j) - base) := by
  induction n with
  | zero => rfl
  | succ n ih => rw [lpcSum, ih, Finset.sum_range_succ]

/-- The sample the steady state gives: the predicted difference, the residual and the base (R112, R114). -/
def steadySample (s : State) (t : Nat) : Int :=
  ((∑ j ∈ Finset.range s.order.toNat, coefAt s j * (smpAt s (t - 1 - j) - smpAt s (t - s.order.toNat - 1)))
      + 2 ^ (s.qlpShift.toNat - 1)) / 2 ^ s.qlpShift.toNat + resAt s t + smpAt s (t - s.order.toNat - 1)

theorem prSteady_of_shiftZero {s : State} (h : s.qlpShift.toNat = 0) (t : Nat) : prSteady t s = .error .shiftZero := by
  simp [prSteady, prPred, h, bind, Except.bind]

/-- The steady state with a shift: the new sample is stored, and the adaptation follows (R114, R115). -/
theorem prSteady_of_shift {s : State} (h : s.qlpShift.toNat ≠ 0) (t : Nat) :
    prSteady t s = (storeSample t (steadySample s t) s).bind (prAdapt t (smpAt s (t - s.order.toNat - 1))) := by
  simp only [prSteady, prPred, if_neg h, prNew, lpcSum_eq_sum, asr, bind, Except.bind, steadySample]

/-- Settles O28: E_SHIFT_ZERO, then the store, then the adaptation. -/
theorem steadySamplePrediction : Obligations.SteadySamplePrediction := by
  unfold Obligations.SteadySamplePrediction
  intro s ho hi
  dsimp only
  rw [prStep_of_steady ho hi]
  refine ⟨fun hshift => ?_, fun hshift hfit => ?_, fun hshift hfit => ⟨smpAt_setSmp hfit, fun u hu => ?_, fun e he => ?_⟩⟩
  · rw [prSteady_of_shiftZero hshift]; rfl
  all_goals
    rw [prSteady_of_shift hshift, storeSample, steadySample, hfit]
  · rfl
  · change (prAdapt _ _ (setSmp s _ _)).map nextSample = _
    rw [hu]; rfl
  · change (prAdapt _ _ (setSmp s _ _)).map nextSample = _
    rw [he]; rfl

/-! ### QLP_SHIFT 0 -/

/-- A loop whose warm-up samples fit comes to the first steady-state sample, where QLP_SHIFT 0 faults. -/
theorem prLoop_shiftZero {s : State} (hshift : s.qlpShift = 0) (ho : 1 ≤ s.order.toNat)
    (hcount : s.order.toNat + 1 < s.sampleCount.toNat)
    (hfit : ∀ j ≤ s.order.toNat, fitsEntry (residualSum s (j + 1)) = true) (n : Nat) :
    ∀ {t : State}, Summed s t → t.prIdx.toNat ≤ s.order.toNat + 1 → s.order.toNat + 2 ≤ t.prIdx.toNat + n →
      prLoop n t = .error .shiftZero := by
  induction n with
  | zero => intro t _ hle hn; omega
  | succ n ih =>
    intro t h hle hn
    have horder : t.order.toNat = s.order.toNat := congrArg BitVec.toNat h.order
    have hi : t.prIdx.toNat < s.sampleCount.toNat := by omega
    rw [prLoop, h.sampleCount, if_pos hi]
    by_cases hwarm : t.prIdx.toNat ≤ s.order.toNat
    · have hnext := h.next hi (hfit _ hwarm)
      have hidx := nextSample_toNat (s := setSmp t t.prIdx.toNat (residualSum s (t.prIdx.toNat + 1)))
        (by rw [setSmp_prIdx, setSmp_sampleCount, h.sampleCount]; exact hi)
      rw [setSmp_prIdx] at hidx
      rw [prStep_of_warm (.inr (horder ▸ hwarm)), h.prWarm, storeSample, if_pos (hfit _ hwarm)]
      exact ih hnext (by omega) (by omega)
    · have hzero : t.qlpShift.toNat = 0 := by
        have hq : t.qlpShift = s.qlpShift := by rw [h.frame]
        rw [hq, hshift]; rfl
      rw [prStep_of_steady (by omega) (by omega), prSteady_of_shiftZero hzero]
      rfl

/-- Settles O30: the loop reaches sample ORDER + 1 and stops there. -/
theorem shiftZeroFaultsWhenUsed : Obligations.ShiftZeroFaultsWhenUsed := by
  unfold Obligations.ShiftZeroFaultsWhenUsed
  intro s hready hc hshift ho hcount hfit
  have hexec := exec_prRun_ready hready hc
  have hblock : prBlock (clearDone s) = .error .shiftZero :=
    prLoop_shiftZero (s := startPr (clearDone s)) hshift ho hcount hfit s.sampleCount.toNat (.start _) (Nat.zero_le _)
      (by change s.order.toNat + 2 ≤ 0 + s.sampleCount.toNat; omega)
  rw [hblock] at hexec
  exact ⟨_, hexec, enterFault_fault .., enterFault_faultCode .., enterFault_done ..⟩

/-! ### The frame of PR_RUN -/

theorem fitsCoef_iff (x : Int) : fitsCoef x = true ↔ -32768 ≤ x ∧ x ≤ 32767 := by
  simp only [fitsCoef, Bool.and_eq_true, decide_eq_true_eq]

theorem PrMoved.eq_with {s t : State} (h : PrMoved s t) : ∃ a b c, t = { s with prIdx := a, smp := b, coef := c } :=
  ⟨_, _, _, h.frame⟩

/-- Settles O31: by what the sample loop has done. -/
theorem prRunFrame : Obligations.PrRunFrame := by
  unfold Obligations.PrRunFrame
  intro s t hready h ht
  obtain ⟨hc, m, hm, rfl⟩ := (exec_prRun_completed_iff hready ht).1 h
  obtain ⟨hmoved, hidx⟩ := prBlock_moved hm
  obtain ⟨-, -, -, -, hcoef⟩ := checkConfigPr_ok hc
  have hframe := hmoved.frame
  have hidle : m.engine = .idle := by rw [hframe]; exact hready.1
  rw [finish_of_idle hidle]
  have hbsmem : m.bsmem = s.bsmem := by rw [hframe]; rfl
  have hres : m.res = s.res := by rw [hframe]; rfl
  refine ⟨rfl, hidx, fun j hj => hmoved.written j (Nat.zero_le j) (hidx ▸ hj), fun j hj => ?_, fun j hj => ?_,
    hmoved.coef_kept, bsByte_congr hbsmem, fun j => resWord_congr (by rw [hres]), ?_⟩
  · exact hmoved.kept j (.inr (hidx ▸ hj))
  · exact (fitsCoef_iff _).1 (hmoved.coef_legal j (hcoef j hj))
  · obtain ⟨a, b, c, rfl⟩ := hmoved.eq_with
    rfl

/-! ### Locality -/

/-- RES exchanged for another memory. -/
def setResMemory (other : Memory 32) (s : State) : State := { s with res := other }

theorem prBlind_setResMemory (other : Memory 32) : PrBlind (setResMemory other) := by constructor <;> intros <;> rfl

/-- Two sample loops whose residuals agree up to entry `n` give the same samples up to it (R119). -/
theorem prLoop_local {n : Nat} {other : Memory 32} (k : Nat) : ∀ {s t u : State},
    (∀ j ≤ n, resAt (setResMemory other s) j = resAt s j) → prLoop k s = .ok t → prLoop k (setResMemory other s) = .ok u →
      s.prIdx.toNat ≤ s.sampleCount.toNat → s.sampleCount.toNat ≤ s.prIdx.toNat + k → ∀ j ≤ n, j < s.sampleCount.toNat →
        smpAt u j = smpAt t j := by
  have hblind := prBlind_setResMemory other
  induction k with
  | zero =>
    intro s t u _ ht hu _ _ j _ _
    obtain rfl := Except.ok.inj ht
    obtain rfl := Except.ok.inj hu
    rfl
  | succ k ih =>
    intro s t u hres ht hu hle hk j hj hlt
    by_cases hpast : n < s.prIdx.toNat
    · have hmoved := (prLoop_moved _ hle hk ht).1
      have hmoved' := (prLoop_moved _ (s := setResMemory other s) hle hk hu).1
      rw [hmoved.smpAt_kept (by omega), hmoved'.smpAt_kept (j := j) (by change j < s.prIdx.toNat; omega)]
      rfl
    · rw [prLoop] at ht hu
      rw [hblind.prIdx, hblind.sampleCount] at hu
      split at ht
      case isTrue hi =>
        rw [if_pos hi, hblind.prStep (hres _ (by omega)) (fun x => hres _ (by omega))] at hu
        cases hstep : prStep s with
        | error e => rw [hstep] at ht; cases ht
        | ok m =>
          rw [hstep] at ht hu
          obtain ⟨hmoved, hidx⟩ := prStep_moved hi hstep
          have hcount := hmoved.sampleCount
          have hres' : ∀ j ≤ n, resAt (setResMemory other m) j = resAt m j := fun j hj =>
            (hres j hj).trans (hmoved.resAt j).symm
          exact ih hres' ht hu (by rw [hcount]; omega) (by rw [hcount]; omega) j hj (by rwa [hcount])
      case isFalse hi =>
        rw [if_neg hi] at hu
        obtain rfl := Except.ok.inj ht
        obtain rfl := Except.ok.inj hu
        rfl

/-- Settles O32: by the two loops side by side. -/
theorem samplesDependOnEarlierResiduals : Obligations.SamplesDependOnEarlierResiduals := by
  unfold Obligations.SamplesDependOnEarlierResiduals
  intro n s t other u hready hres h ht h' hu j hj hlt
  have hready' : Ready { s with res := other } := hready
  obtain ⟨-, m, hm, rfl⟩ := (exec_prRun_completed_iff hready ht).1 h
  obtain ⟨-, m', hm', rfl⟩ := (exec_prRun_completed_iff hready' hu).1 h'
  have hres' : ∀ j ≤ n, resAt (setResMemory other (startPr (clearDone s))) j = resAt (startPr (clearDone s)) j :=
    fun j hj => congrArg BitVec.toInt (hres j hj)
  exact prLoop_local s.sampleCount.toNat (s := startPr (clearDone s)) hres' hm hm' (Nat.zero_le _) (by simp) j hj hlt

/-! ### The checks of PR_RUN -/

/-- A PR_RUN whose check fails (R174, R176). -/
theorem exec_prRun_config {s : State} {e : BlockFault} (h : Ready s) (hc : checkConfigPr s = .error e) :
    exec .prRun s = .next { s with done := false, fault := true, faultCode := faultCodeOf e } := by
  have hbody : runBody .pr (clearDone s) = .error e := by
    rw [runBody, prRunBody_eq, checkConfigPr_clearDone, hc]
    rfl
  exact exec_commandOf_config (run := .pr) h hbody (midCommand_configFaults .pr e (checkConfigPr_error hc))

/-- A coefficient below ORDER that is not 16 bits wide fails the last check. -/
theorem coefsLegal_eq_false {s : State} {n j : Nat} (hj : j < n) (hillegal : coefAt s j < -32768 ∨ 32767 < coefAt s j) :
    coefsLegal s n = false := by
  rw [Bool.eq_false_iff]
  intro h
  have hfits := (fitsCoef_iff _).1 ((coefsLegal_iff s n).1 h j hj)
  omega

/-- Settles O44: each check in turn, those before it passing. -/
theorem prRunConfigurationOrder : Obligations.PrRunConfigurationOrder := by
  unfold Obligations.PrRunConfigurationOrder
  intro s hready
  refine ⟨fun h1 => ?_, fun h1 h2 => ?_, fun h1 h2 => ?_, fun h1 h2 h3 => ?_, fun h1 h2 h3 h4 => ?_, fun h1 h2 h3 h4 h5 => ?_,
    fun h1 h2 h3 h4 h5 => ?_⟩
  · exact exec_prRun_config (e := .config) hready (by rw [checkConfigPr, if_pos h1])
  · exact exec_prRun_config (e := .unsupported) hready (by rw [checkConfigPr, if_neg (by omega), if_pos (by omega)])
  · exact exec_prRun_config (e := .format) hready (by simp [checkConfigPr, h1, h2])
  · exact exec_prRun_config (e := .config) hready (by simp [checkConfigPr, h1, Nat.not_lt.2 h2, h3])
  · exact exec_prRun_config (e := .config) hready (by simp [checkConfigPr, h1, Nat.not_lt.2 h2, Nat.not_lt.2 h3, h4])
  · obtain ⟨j, hj, hillegal⟩ := h5
    have hcoef := coefsLegal_eq_false hj hillegal
    exact exec_prRun_config (e := .config) hready
      (by simp [checkConfigPr, h1, Nat.not_lt.2 h2, Nat.not_lt.2 h3, Nat.not_lt.2 h4, hcoef])
  · have hc := checkConfigPr_of_legal h1 h2 h3 h4 fun j hj => (fitsCoef_iff _).2 (by have := h5 j hj; omega)
    refine ⟨_, exec_prRun_ready hready hc, ?_⟩
    cases hblock : prBlock (clearDone s) with
    | ok m =>
      intro hfault
      have hclear : m.fault = false := (prBlock_worked hblock).fault.trans hready.2
      cases hclear.symm.trans hfault
    | error e =>
      intro _
      change (enterFault .pr e (clearDone s)).faultCode ∈ _
      rw [enterFault_faultCode]
      have hmid : ∀ e ∈ midFaults .pr, faultCodeOf e ∈ ([7, 9, 10] : List Byte) := by decide
      exact hmid e (prBlock_error hblock)

end Sys2Proof.Machine
end

section
/-! PROOFS. PR.ADAPT (R115): the loops for the two signs of the residual are one loop on the remaining magnitude, and what that
loop visits is said by the magnitude consumed. -/

namespace Sys2Proof.Machine

/-! ### One loop for both signs -/

/-- The loop of PR.ADAPT on the magnitude that remains: from index `n - 1` down while any does, each coefficient moved by one
against `sign` times the sign of `val`. -/
def adaptBy (sign : Int) (t : Nat) (base : Int) : Nat → Int → State → Except BlockFault State
  | 0, _, s => .ok s
  | idx + 1, mag, s =>
    if 0 < mag then
      (storeCoef idx (coefAt s idx - sign * sgn (base - smpAt s (t - 1 - idx))) s).bind fun u =>
        adaptBy sign t base idx (mag - adaptStep (base - smpAt s (t - 1 - idx)) u.qlpShift.toNat u.order.toNat idx) u
    else .ok s

theorem adaptBy_of_consumed (sign : Int) (t : Nat) (base : Int) (n : Nat) {mag : Int} (h : mag ≤ 0) (s : State) :
    adaptBy sign t base n mag s = .ok s := by
  cases n with
  | zero => rfl
  | succ idx => rw [adaptBy, if_neg (by omega)]

/-- For a positive residual the remainder is the magnitude; the loop tests it after a coefficient. -/
theorem adaptPos_eq (t : Nat) (base : Int) (n : Nat) : ∀ {rem : Int} (s : State), 0 < rem →
    adaptPos t base n rem s = adaptBy 1 t base n rem s := by
  induction n with
  | zero => intro rem s _; rfl
  | succ idx ih =>
    intro rem s h
    rw [adaptPos, adaptBy, if_pos h, one_mul]
    dsimp only
    cases storeCoef idx (coefAt s idx - sgn (base - smpAt s (t - 1 - idx))) s with
    | error e => rfl
    | ok u =>
      simp only [bind, Except.bind]
      split
      case isTrue hle => exact (adaptBy_of_consumed _ _ _ _ hle u).symm
      case isFalse hlt => exact ih u (by omega)

/-- For a negative residual the remainder is minus the magnitude. -/
theorem adaptNeg_eq (t : Nat) (base : Int) (n : Nat) : ∀ (rem : Int) (s : State),
    adaptNeg t base n rem s = adaptBy (-1) t base n (-rem) s := by
  induction n with
  | zero => intro rem s; rfl
  | succ idx ih =>
    intro rem s
    have hmove : coefAt s idx - -1 * sgn (base - smpAt s (t - 1 - idx)) = coefAt s idx + sgn (base - smpAt s (t - 1 - idx)) := by
      ring
    rw [adaptNeg, adaptBy, hmove]
    split
    case isTrue h =>
      rw [if_pos (by omega)]
      dsimp only
      cases storeCoef idx (coefAt s idx + sgn (base - smpAt s (t - 1 - idx))) s with
      | error e => rfl
      | ok u =>
        simp only [bind, Except.bind]
        rw [ih, neg_add']
    case isFalse h => rw [if_neg (by omega)]; rfl

/-- PR.ADAPT is the loop on the magnitude of the residual, with its sign. -/
theorem prAdapt_eq (t : Nat) (base : Int) (s : State) :
    prAdapt t base s = adaptBy (sgn (resAt s t)) t base s.order.toNat |resAt s t| s := by
  unfold prAdapt sgn
  dsimp only
  split
  case isTrue h => rw [adaptPos_eq _ _ _ _ h, abs_of_pos h]
  case isFalse h =>
    split
    case isTrue h' => rw [adaptNeg_eq, abs_of_neg h']
    case isFalse h' =>
      obtain h0 : resAt s t = 0 := by omega
      rw [h0, abs_zero, adaptBy_of_consumed _ _ _ _ le_rfl]
      rfl

/-! ### What the loop visits -/

/-- The value an adaptation moves COEF[j] to. -/
def movedCoef (s : State) (t : Nat) (base : Int) (j : Nat) : Int :=
  coefAt s j - sgn (resAt s t) * sgn (base - smpAt s (t - 1 - j))

/-- What the loop does from state `s'` on, when it has visited `k` coefficients since `s`: it visits those up to the `m`-th, at
each of which magnitude remains, and all of them fit; or it meets one that does not. -/
inductive VisitEnds (s : State) (t : Nat) (base : Int) (k : Nat) (s' : State) : Except BlockFault State → Prop where
  | overflow (m : Nat) (hkm : k ≤ m) (hm : m < s.order.toNat) (hrem : consumed s t base m < |resAt s t|)
      (hfit : fitsCoef (movedCoef s t base (s.order.toNat - 1 - m)) = false) :
      VisitEnds s t base k s' (.error .coefOvf)
  | done (u : State) (m : Nat) (hkm : k ≤ m) (hm : m ≤ s.order.toNat)
      (hend : m = s.order.toNat ∨ |resAt s t| ≤ consumed s t base m)
      (hrem : ∀ i, k ≤ i → i < m → consumed s t base i < |resAt s t|)
      (hfits : ∀ i, k ≤ i → i < m → fitsCoef (movedCoef s t base (s.order.toNat - 1 - i)) = true)
      (hframe : u = { s with coef := u.coef })
      (hcoef : ∀ j, j < 32 → coefAt u j =
        if s.order.toNat - m ≤ j ∧ j < s.order.toNat - k then movedCoef s t base j else coefAt s' j) :
      VisitEnds s t base k s' (.ok u)

/-- The loop where no magnitude remains, or no coefficient. -/
theorem visitEnds_stop {s s' : State} {t : Nat} {base : Int} {k : Nat} (hframe : s' = { s with coef := s'.coef })
    (hk : k ≤ s.order.toNat) (hend : k = s.order.toNat ∨ |resAt s t| ≤ consumed s t base k) :
    VisitEnds s t base k s' (.ok s') :=
  .done s' k le_rfl hk hend (fun i h1 h2 => by omega) (fun i h1 h2 => by omega) hframe fun j _ => by rw [if_neg (by omega)]

/-- One coefficient visited before the rest: the `k`-th, at index ORDER - 1 - k, is moved. -/
theorem VisitEnds.visit {s s' : State} {t : Nat} {base : Int} {k : Nat} {r : Except BlockFault State}
    (hk : k < s.order.toNat) (hrem : consumed s t base k < |resAt s t|)
    (hfit : fitsCoef (movedCoef s t base (s.order.toNat - 1 - k)) = true)
    (h : VisitEnds s t base (k + 1) (setCoef s' (s.order.toNat - 1 - k) (movedCoef s t base (s.order.toNat - 1 - k))) r) :
    VisitEnds s t base k s' r := by
  cases h with
  | overflow m hkm hm hrem' hfit' => exact .overflow m (by omega) hm hrem' hfit'
  | done u m hkm hm hend hrem' hfits' hframe hcoef =>
    refine .done u m (by omega) hm hend (fun i h1 h2 => ?_) (fun i h1 h2 => ?_) hframe fun j hj => ?_
    · rcases Nat.eq_or_lt_of_le h1 with rfl | h1'
      · exact hrem
      · exact hrem' i h1' h2
    · rcases Nat.eq_or_lt_of_le h1 with rfl | h1'
      · exact hfit
      · exact hfits' i h1' h2
    · rw [hcoef j hj, coefAt_setCoef hfit]
      by_cases hj' : j = s.order.toNat - 1 - k
      · subst hj'
        rw [if_neg (by omega), if_pos ⟨rfl, hj⟩, if_pos (by omega)]
      · rw [if_neg (c := j = s.order.toNat - 1 - k ∧ s.order.toNat - 1 - k < 32) (fun h => hj' h.1)]
        by_cases hin : s.order.toNat - m ≤ j ∧ j < s.order.toNat - (k + 1)
        · rw [if_pos hin, if_pos (by omega)]
        · rw [if_neg hin, if_neg (by omega)]

theorem adaptBy_ends {s : State} {t : Nat} {base : Int} (ht : s.order.toNat < t) (n : Nat) :
    ∀ {s' : State}, n ≤ s.order.toNat → s' = { s with coef := s'.coef } → (∀ j < n, coefAt s' j = coefAt s j) →
      VisitEnds s t base (s.order.toNat - n) s'
        (adaptBy (sgn (resAt s t)) t base n (|resAt s t| - consumed s t base (s.order.toNat - n)) s') := by
  induction n with
  | zero => exact fun hn hframe _ => visitEnds_stop hframe (Nat.sub_le _ _) (.inl rfl)
  | succ idx ih =>
    intro s' hn hframe hcoef
    have hsmp : ∀ i, smpAt s' i = smpAt s i := fun i => by rw [hframe]; rfl
    have horder : s'.order = s.order := by rw [hframe]
    have hshift : s'.qlpShift = s.qlpShift := by rw [hframe]
    have hk : s.order.toNat - idx = s.order.toNat - (idx + 1) + 1 := by omega
    have hindex : s.order.toNat - 1 - (s.order.toNat - (idx + 1)) = idx := by omega
    rw [adaptBy, hsmp, hcoef idx (by omega)]
    by_cases hmag : 0 < |resAt s t| - consumed s t base (s.order.toNat - (idx + 1))
    swap
    · rw [if_neg hmag]
      exact visitEnds_stop hframe (Nat.sub_le _ _) (.inr (by omega))
    rw [if_pos hmag]
    change VisitEnds _ _ _ _ _ ((storeCoef idx (movedCoef s t base idx) s').bind _)
    rcases storeCoef_cases idx (movedCoef s t base idx) s' with ⟨hfit, hstore⟩ | ⟨hfit, hstore⟩ <;> rw [hstore]
    · have hleft : |resAt s t| - consumed s t base (s.order.toNat - (idx + 1))
          - adaptStep (base - smpAt s (t - 1 - idx)) s'.qlpShift.toNat s'.order.toNat idx
          = |resAt s t| - consumed s t base (s.order.toNat - idx) := by
        rw [hk, consumed_succ, adaptStep, hshift, horder,
          show t - s.order.toNat + (s.order.toNat - (idx + 1)) = t - 1 - idx by omega,
          show ((s.order.toNat - (idx + 1) : Nat) : Int) + 1 = (s.order.toNat : Int) - idx by omega]
        ring
      refine VisitEnds.visit (by omega) (by omega) (by rwa [hindex]) ?_
      rw [hindex, ← hk]
      change VisitEnds _ _ _ _ _ (adaptBy _ _ _ _ (_ - adaptStep _ s'.qlpShift.toNat s'.order.toNat idx) _)
      rw [hleft]
      refine ih (by omega) ?_ fun j hj => ?_
      · have hset : setCoef s' idx (movedCoef s t base idx)
            = { s' with coef := (setCoef s' idx (movedCoef s t base idx)).coef } := rfl
        generalize (setCoef s' idx (movedCoef s t base idx)).coef = c at hset ⊢
        generalize s'.coef = d at hframe
        rw [hset, hframe]
      · rw [coefAt_setCoef hfit, if_neg (by omega)]
        exact hcoef j (by omega)
    · exact .overflow _ le_rfl (by omega) (by omega) (by rwa [hindex])

theorem prAdapt_ends {s : State} {t : Nat} {base : Int} (ht : s.order.toNat < t) :
    VisitEnds s t base 0 s (prAdapt t base s) := by
  have h := adaptBy_ends (base := base) ht s.order.toNat (s' := s) le_rfl rfl fun _ _ => rfl
  rwa [Nat.sub_self, consumed_zero, sub_zero, ← prAdapt_eq] at h

theorem consumed_mono (s : State) (t : Nat) (base : Int) {m n : Nat} (h : m ≤ n) : consumed s t base m ≤ consumed s t base n := by
  obtain ⟨k, rfl⟩ := Nat.exists_eq_add_of_le h
  exact consumed_le_add s t base m k

theorem fitsCoef_eq_false_iff (x : Int) : fitsCoef x = false ↔ ¬(-32768 ≤ x ∧ x ≤ 32767) := by
  rw [← fitsCoef_iff, Bool.not_eq_true]

/-- PR.ADAPT fails exactly where a coefficient it visits would leave 16 bits. -/
theorem prAdapt_error_iff {s : State} {t : Nat} {base : Int} (ht : s.order.toNat < t)
    (e : BlockFault) :
    prAdapt t base s = .error e ↔
      e = .coefOvf ∧ ∃ n, n < s.order.toNat ∧ consumed s t base n < |resAt s t|
        ∧ fitsCoef (movedCoef s t base (s.order.toNat - 1 - n)) = false := by
  have hends := prAdapt_ends (base := base) ht
  constructor
  · intro h
    rw [h] at hends
    cases hends with
    | overflow m hkm hm hrem hfit => exact ⟨rfl, m, hm, hrem, hfit⟩
  · rintro ⟨rfl, n, hn, hrem, hfit⟩
    generalize prAdapt t base s = r at hends
    cases hends with
    | overflow => rfl
    | done u m hkm hm hend hrem' hfits hframe hcoef =>
      by_cases hlt : n < m
      · cases (hfits n (Nat.zero_le n) hlt).symm.trans hfit
      · have hmono := consumed_mono s t base (Nat.le_of_not_lt hlt)
        omega

/-- Settles O29: by what the loop visits. -/
theorem adaptationVisitsUntilConsumed : Obligations.AdaptationVisitsUntilConsumed := by
  unfold Obligations.AdaptationVisitsUntilConsumed
  intro t base s _ _ ht
  refine ⟨fun e => ?_, fun u hu => ?_⟩
  · rw [prAdapt_error_iff ht]
    simp only [fitsCoef_eq_false_iff, movedCoef]
  · have hends := prAdapt_ends (base := base) ht
    rw [hu] at hends
    cases hends with
    | done _ m hkm hm hend hrem hfits hframe hcoef =>
      refine ⟨hframe, fun hzero => ?_, fun hne => ?_⟩
      · rw [prAdapt_eq, hzero, abs_zero, adaptBy_of_consumed _ _ _ _ le_rfl] at hu
        exact (Except.ok.inj hu).symm
      · have hpos := abs_pos.2 hne
        have hm1 : 1 ≤ m := by
          by_contra hm0
          obtain rfl : m = 0 := by omega
          rw [consumed_zero] at hend
          omega
        exact ⟨m, hm1, hm, hend, fun i hi => hrem i (Nat.zero_le i) hi, hcoef⟩

end Sys2Proof.Machine
end

section
/-! PROOFS. SF_RUN (R131): its checks, that it is RD_RUN and then PR_RUN, and a stream on which it completes. -/

namespace Sys2Proof.Machine

/-- Settles O35: the predictor's check stands before the residual part. -/
theorem sfRunChecksPredictorFirst : Obligations.SfRunChecksPredictorFirst := by
  unfold Obligations.SfRunChecksPredictorFirst
  intro s e hready hrd hpr
  have hbody : runBody .sf (clearDone s) = .error e := by
    have hrd' : checkConfigRd (clearDone s) = .ok () := hrd
    rw [runBody, sfRunBody_eq, hrd', checkConfigPr_clearDone, hpr]
    rfl
  exact exec_commandOf_config (run := .sf) hready hbody (midCommand_configFaults .pr e (checkConfigPr_error hpr))

/-! ### SF_RUN is RD_RUN and then PR_RUN -/

theorem clearDone_finish {s : State} (hd : s.done = false) (hidle : s.engine = .idle) : clearDone (finish s) = s := by
  rw [finish_of_idle hidle]
  change { s with done := false } = s
  rw [← hd]

theorem RdFrame.checkConfigPr_eq {s t : State} (h : RdFrame s t) : checkConfigPr t = checkConfigPr s := by
  refine checkConfigPr_congr ?_ ?_ ?_ ?_ ?_ ?_ <;> rw [h]

/-- The residual block leaves what the predictor's check looks at (R100). -/
theorem rdBlock_checkConfigPr {s t : State} (hc : checkConfigRd s = .ok ()) (h : rdBlock s = .ok t) :
    checkConfigPr t = checkConfigPr s := by
  rw [RdFrame.checkConfigPr_eq (rdBlock_moved hc h).1.frame]
  exact checkConfigPr_congr rfl rfl rfl rfl rfl rfl

/-- Settles O33: a completed RD_RUN leaves a state that PR_RUN starts from as SF_RUN's predictor part does. -/
theorem sfRunIsRdRunThenPrRun : Obligations.SfRunIsRdRunThenPrRun := by
  unfold Obligations.SfRunIsRdRunThenPrRun
  intro s u hready hu
  rw [exec_sfRun_completed_iff hready hu]
  have between : ∀ {m}, checkConfigRd s = .ok () → rdBlock (clearDone s) = .ok m →
      Ready (finish m) ∧ clearDone (finish m) = m ∧ checkConfigPr (finish m) = checkConfigPr s := by
    intro m hc hm
    have hframe := (rdBlock_moved (s := clearDone s) hc hm).1.frame
    have hidle : m.engine = .idle := by rw [hframe]; exact hready.1
    have hclear := clearDone_finish (by rw [hframe]; rfl) hidle
    refine ⟨⟨rfl, by rw [finish_fault, hframe]; exact hready.2⟩, hclear, ?_⟩
    rw [← checkConfigPr_clearDone (finish m), hclear, rdBlock_checkConfigPr (s := clearDone s) hc hm, checkConfigPr_clearDone]
  constructor
  · rintro ⟨hrd, hpr, m, hm, p, hp, rfl⟩
    obtain ⟨hready', hclear, hcheck⟩ := between hrd hm
    refine ⟨finish m, (exec_rdRun_completed_iff hready hready'.2).2 ⟨hrd, m, hm, rfl⟩, hready'.2, ?_⟩
    exact (exec_prRun_completed_iff hready' hu).2 ⟨hcheck.trans hpr, p, by rw [hclear, hp], rfl⟩
  · rintro ⟨t, ht, hfault, h⟩
    obtain ⟨hrd, m, hm, rfl⟩ := (exec_rdRun_completed_iff hready hfault).1 ht
    obtain ⟨hready', hclear, hcheck⟩ := between hrd hm
    obtain ⟨hpr, p, hp, rfl⟩ := (exec_prRun_completed_iff hready' hu).1 h
    rw [hclear] at hp
    exact ⟨hrd, hcheck.symm.trans hpr, m, hm, p, hp, rfl⟩

/-! ### A stream on which SF_RUN completes -/

/-- A sum of residuals that are small enough for their number fits an entry. -/
theorem fitsEntry_residualSum {s : State} {b n N : Nat} (hsmall : ∀ i < n, |resAt s i| ≤ (b : Int)) (hn : n ≤ N)
    (hN : N * b < 2 ^ 31) : fitsEntry (residualSum s n) = true := by
  have habs : |residualSum s n| ≤ ((n * b : Nat) : Int) := by
    calc |residualSum s n| ≤ ∑ i ∈ Finset.range n, |resAt s i| := Finset.abs_sum_le_sum_abs ..
      _ ≤ ∑ _i ∈ Finset.range n, (b : Int) := Finset.sum_le_sum fun i hi => hsmall i (Finset.mem_range.1 hi)
      _ = ((n * b : Nat) : Int) := by simp
  have hle : n * b ≤ N * b := Nat.mul_le_mul_right b hn
  have hlow := neg_abs_le (residualSum s n)
  have hhigh := le_abs_self (residualSum s n)
  simp only [fitsEntry, Bool.and_eq_true, decide_eq_true_eq]
  omega

/-- A sample block that warm-up covers whole completes when its running sums fit (R111, R116). -/
theorem prBlock_warm {s : State} (hwarm : s.order.toNat = 0 ∨ s.sampleCount.toNat ≤ s.order.toNat + 1)
    (hfit : ∀ j < s.sampleCount.toNat, fitsEntry (residualSum s (j + 1)) = true) :
    ∃ t, prBlock s = .ok t ∧ Summed (startPr s) t ∧ t.prIdx = s.sampleCount := by
  rcases prLoop_warm_cases (s := startPr s) hwarm s.sampleCount.toNat (.start _) with ⟨t, hok, ht⟩ | ⟨-, j, hj, hunfit⟩
  · exact ⟨t, hok, ht, (prBlock_moved hok).2⟩
  · cases (hfit j hj).symm.trans hunfit

/-- Settles O34: the residual part has a frozen HISTORY, and its residuals are too small for a sum to leave 32 bits. -/
theorem sfRunCompletesOnAmpleStream : Obligations.SfRunCompletesOnAmpleStream := by
  unfold Obligations.SfRunCompletesOnAmpleStream
  intro s hready hrd hpr hm hmax hh hwarm hw hsmall hb
  obtain ⟨m, hblock, hfrozen, hidx⟩ := rdBlock_frozen (s := clearDone s) hrd hm hh hb
  have hframe := hfrozen.moved.frame
  have horder : m.order = s.order := by rw [hframe]; rfl
  have hcount : m.sampleCount = s.sampleCount := by rw [hframe]; rfl
  have hfit : ∀ j < m.sampleCount.toNat, fitsEntry (residualSum m (j + 1)) = true := fun j hj => by
    refine fitsEntry_residualSum (b := 2 ^ (s.sampleSize.toNat - 1)) (N := s.sampleCount.toNat) (fun i hi => ?_)
      (hcount ▸ hj) hsmall
    push_cast
    exact hfrozen.small hmax hw i (by rw [hidx]; exact (Nat.lt_of_lt_of_le hi (hcount ▸ hj)))
  have hwarm' : m.order.toNat = 0 ∨ m.sampleCount.toNat ≤ m.order.toNat + 1 := by
    rw [horder, hcount]
    exact hwarm.imp_left fun h => by rw [h]; rfl
  obtain ⟨p, hblock', hsummed, hidx'⟩ := prBlock_warm hwarm' hfit
  have hframe' := hsummed.frame
  have hfault : (finish p).fault = false := by rw [finish_fault, hsummed.fault, startPr_fault, hframe]; exact hready.2
  refine ⟨finish p, (exec_sfRun_completed_iff hready hfault).2 ⟨hrd, hpr, m, hblock, p, hblock', rfl⟩, ⟨rfl, hfault⟩, ?_,
    hidx'.trans hcount, ?_, fun j hj => ?_⟩
  · rw [finish_rdIdx, hframe']; exact hidx
  · rw [finish_coef, hsummed.coef, startPr_coef, hframe]; rfl
  · change smpAt p j = ∑ i ∈ Finset.range (j + 1), resAt p i
    rw [hsummed.sums j (by rw [hidx', hcount]; exact hj)]
    exact Finset.sum_congr rfl fun i _ => (hsummed.resAt i).symm

end Sys2Proof.Machine
end

section
/-! PROOFS. A command run whole and a command run by its steps (R8, R99, R117): the steps come to the same end, faults included. -/

namespace Sys2Proof.Machine

/-- Some number of steps leads from `s` to `t`. -/
def Reaches (s t : State) : Prop := ∃ n, runSteps n s = .next t

theorem Reaches.refl (s : State) : Reaches s s := ⟨0, rfl⟩

theorem Reaches.trans {s t u : State} (h : Reaches s t) (h' : Reaches t u) : Reaches s u := by
  obtain ⟨a, ha⟩ := h
  obtain ⟨b, hb⟩ := h'
  exact ⟨a + b, (runSteps_add a ha).trans hb⟩

theorem Reaches.of_step {s t : State} (h : step s = .next t) : Reaches s t := ⟨1, (runSteps_succ h 0).trans rfl⟩

/-! ### What a fault and an end do not see -/

theorem enterFault_standAt (run : Run) (e : BlockFault) (g : Engine) (s : State) :
    enterFault run e (standAt g s) = enterFault run e s := by
  unfold enterFault
  cases midCommand e <;> rfl

theorem enterFault_nextResidual (run : Run) {e : BlockFault} (hmid : midCommand e = true) (s : State) :
    enterFault run e (nextResidual s) = enterFault run e s := by
  unfold enterFault
  rw [hmid]
  rfl

theorem endResiduals_standAt (sf : Bool) (g : Engine) (s : State) : endResiduals sf (standAt g s) = endResiduals sf s := by
  cases sf <;> rfl

theorem afterResidual_standAt (sf : Bool) (g : Engine) (s : State) : afterResidual sf (standAt g s) = afterResidual sf s := by
  change (if (nextResidual s).rdIdx.toNat < (nextResidual s).sampleCount.toNat then standAt (.residual sf) (nextResidual s)
    else endResiduals sf (standAt g (nextResidual s))) = _
  rw [endResiduals_standAt]
  rfl

/-! ### The residual part -/

/-- One RD.STEP from `s` and where RD then stands. -/
def residualRound (sf : Bool) (s : State) : State :=
  match rdStep s with
  | .error e => enterFault (rdRunOf sf) e s
  | .ok t => if t.rdIdx.toNat < t.sampleCount.toNat then standAt (.residual sf) t else endResiduals sf t

/-- A fault after the residual of this step is stored hides it (R176). -/
theorem enterFault_readResidual (sf : Bool) {e : BlockFault} (hmid : midCommand e = true) {s m : State}
    (hi : s.rdIdx.toNat < s.sampleCount.toNat) (hs : s.sampleSize.toNat ≤ 31) (h : readResidual s = .ok m) :
    enterFault (rdRunOf sf) e m = enterFault (rdRunOf sf) e s := by
  have hr := readResidual_cases s
  rw [h] at hr
  cases hr with
  | stored v n x _ _ hb hv =>
    rw [← enterFault_nextResidual _ hmid, enterFault_rdMoved sf hmid (stored_moved hi hb (hv hs))]

theorem rdZrun_error {s : State} {e : BlockFault} (h : rdZrun s = .error e) : midCommand e = true := by
  have hz := rdZrun_cases s
  rw [h] at hz
  cases hz <;> rfl

/-- One RD.STEP by the steps of the machine: the residual code, and the zero-run code if one is due. -/
theorem reaches_residualRound {sf : Bool} {s : State} (hi : s.rdIdx.toNat < s.sampleCount.toNat)
    (hs : s.sampleSize.toNat ≤ 31) : Reaches (standAt (.residual sf) s) (residualRound sf s) := by
  have hstep := step_residual (s := standAt (.residual sf) s) rfl hi
  rw [(rdBlind_standAt (.residual sf)).readResidual] at hstep
  unfold residualRound
  rw [rdStep_eq]
  cases hread : readResidual s with
  | error e =>
    rw [hread] at hstep
    exact .of_step (hstep.trans (congrArg _ (enterFault_standAt ..)))
  | ok m =>
    rw [hread] at hstep
    simp only [Except.map, (rdBlind_standAt (.residual sf)).zeroRunDue] at hstep
    simp only [Except.bind]
    cases hdue : zeroRunDue m with
    | false =>
      have hzrun : rdZrun m = .ok m := by simp [rdZrun, hdue, pure, Except.pure]
      rw [hdue, if_neg Bool.false_ne_true, afterResidual_standAt] at hstep
      rw [hzrun]
      exact .of_step hstep
    | true =>
      rw [hdue, if_pos rfl] at hstep
      refine (Reaches.of_step hstep).trans ?_
      have hstep' := step_zeroRun (s := standAt (.zeroRun sf) m) rfl hdue
      rw [(rdBlind_standAt (.zeroRun sf)).rdZrun] at hstep'
      cases hzrun : rdZrun m with
      | error e =>
        rw [hzrun] at hstep'
        refine .of_step (hstep'.trans (congrArg _ ?_))
        exact (enterFault_standAt ..).trans (enterFault_readResidual sf (rdZrun_error hzrun) hi hs hread)
      | ok t =>
        rw [hzrun] at hstep'
        exact .of_step (hstep'.trans (congrArg _ (afterResidual_standAt ..)))

/-- Where the residual part ends: a fault entered as from `s`, or what follows the last residual. -/
def residualEnd (sf : Bool) (s : State) : Except BlockFault State → State
  | .error e => enterFault (rdRunOf sf) e s
  | .ok t => endResiduals sf t

theorem midCommand_rdLoop {n : Nat} {s : State} {e : BlockFault} (h : rdLoop n s = .error e) : midCommand e = true := by
  rcases rdLoop_error n h with rfl | rfl | rfl | rfl <;> rfl

theorem midCommand_prLoop {n : Nat} {s : State} {e : BlockFault} (h : prLoop n s = .error e) : midCommand e = true := by
  rcases prLoop_error n h with rfl | rfl | rfl <;> rfl

theorem rdLoop_of_complete {s : State} (h : ¬s.rdIdx.toNat < s.sampleCount.toNat) (n : Nat) : rdLoop n s = .ok s := by
  cases n with
  | zero => rfl
  | succ n => rw [rdLoop, if_neg h]; rfl

theorem prLoop_of_complete {s : State} (h : ¬s.prIdx.toNat < s.sampleCount.toNat) (n : Nat) : prLoop n s = .ok s := by
  cases n with
  | zero => rfl
  | succ n => rw [prLoop, if_neg h]; rfl

/-- With every residual produced, a step ends the residual part (R100). -/
theorem reaches_residualEnd_of_complete {sf : Bool} {s : State} (h : ¬s.rdIdx.toNat < s.sampleCount.toNat) :
    Reaches (standAt (.residual sf) s) (endResiduals sf s) := by
  have hi : ¬(standAt (.residual sf) s).rdIdx.toNat < (standAt (.residual sf) s).sampleCount.toNat := h
  refine .of_step ?_
  rw [← endResiduals_standAt sf (.residual sf) s]
  simp only [step, nextEvent, standAt_engine, if_neg hi, perform_done]

/-- The residual loop by the steps of the machine. -/
theorem reaches_residualEnd {sf : Bool} (n : Nat) : ∀ {s : State}, s.sampleSize.toNat ≤ 31 →
    s.sampleCount.toNat ≤ s.rdIdx.toNat + n → Reaches (standAt (.residual sf) s) (residualEnd sf s (rdLoop n s)) := by
  induction n with
  | zero => exact fun _ hn => reaches_residualEnd_of_complete (Nat.not_lt.2 hn)
  | succ n ih =>
    intro s hs hn
    by_cases hi : s.rdIdx.toNat < s.sampleCount.toNat
    swap
    · rw [rdLoop_of_complete hi]
      exact reaches_residualEnd_of_complete hi
    refine (reaches_residualRound hi hs).trans ?_
    rw [rdLoop, if_pos hi, residualRound]
    cases hstep : rdStep s with
    | error e => exact .refl _
    | ok t =>
      obtain ⟨hmoved, hidx, -⟩ := rdStep_moved hi hs hstep
      simp only [bind, Except.bind]
      split
      case isTrue hi' =>
        have hrest := ih (s := t) (by rwa [hmoved.sampleSize]) (by rw [hmoved.sampleCount]; omega)
        cases hloop : rdLoop n t with
        | ok u => rwa [hloop] at hrest
        | error e =>
          rw [hloop, residualEnd, enterFault_rdMoved sf (midCommand_rdLoop hloop) hmoved] at hrest
          exact hrest
      case isFalse hi' =>
        rw [rdLoop_of_complete hi']
        exact .refl _

/-! ### The predictor part -/

/-- Where the predictor part ends: a fault entered as from `s`, or completion. -/
def sampleEnd (sf : Bool) (s : State) : Except BlockFault State → State
  | .error e => enterFault (prRunOf sf) e s
  | .ok t => finish t

/-- One PR.STEP from `s` and where PR then stands. -/
def sampleRound (sf : Bool) (s : State) : State :=
  match prStep s with
  | .error e => enterFault (prRunOf sf) e s
  | .ok t => if t.prIdx.toNat < t.sampleCount.toNat then standAt (.predict sf) t else finish t

theorem reaches_sampleRound {sf : Bool} {s : State} (hi : s.prIdx.toNat < s.sampleCount.toNat) :
    Reaches (standAt (.predict sf) s) (sampleRound sf s) := by
  have hi' : (standAt (.predict sf) s).prIdx.toNat < (standAt (.predict sf) s).sampleCount.toNat := hi
  have hstep := step_predict (s := standAt (.predict sf) s) rfl
  rw [sampleStep, if_pos hi', (prBlind_standAt (.predict sf)).prStep rfl fun _ => rfl] at hstep
  refine .of_step (hstep.trans (congrArg _ ?_))
  unfold sampleRound
  cases prStep s with
  | error e => exact enterFault_standAt ..
  | ok t => rfl

theorem reaches_finish_of_complete {sf : Bool} {s : State} (h : ¬s.prIdx.toNat < s.sampleCount.toNat) :
    Reaches (standAt (.predict sf) s) (finish s) := by
  have hi : ¬(standAt (.predict sf) s).prIdx.toNat < (standAt (.predict sf) s).sampleCount.toNat := h
  have hstep := step_predict (s := standAt (.predict sf) s) rfl
  rw [sampleStep, if_neg hi] at hstep
  exact .of_step hstep

/-- The sample loop by the steps of the machine. -/
theorem reaches_sampleEnd {sf : Bool} (n : Nat) : ∀ {s : State}, s.sampleCount.toNat ≤ s.prIdx.toNat + n →
    Reaches (standAt (.predict sf) s) (sampleEnd sf s (prLoop n s)) := by
  induction n with
  | zero => exact fun hn => reaches_finish_of_complete (Nat.not_lt.2 hn)
  | succ n ih =>
    intro s hn
    by_cases hi : s.prIdx.toNat < s.sampleCount.toNat
    swap
    · rw [prLoop_of_complete hi]
      exact reaches_finish_of_complete hi
    refine (reaches_sampleRound hi).trans ?_
    rw [prLoop, if_pos hi, sampleRound]
    cases hstep : prStep s with
    | error e => exact .refl _
    | ok t =>
      obtain ⟨hmoved, hidx⟩ := prStep_moved hi hstep
      simp only [bind, Except.bind]
      split
      case isTrue hi' =>
        have hrest := ih (s := t) (by rw [hmoved.sampleCount]; omega)
        cases hloop : prLoop n t with
        | ok u => rwa [hloop] at hrest
        | error e =>
          have huses : usesSmp (prRunOf sf) = true := by cases sf <;> rfl
          rw [hloop, sampleEnd, enterFault_prMoved _ huses (midCommand_prLoop hloop) hmoved (by omega)] at hrest
          exact hrest
      case isFalse hi' =>
        rw [prLoop_of_complete hi']
        exact .refl _

/-! ### Whole commands -/

theorem exec_sfRun_ready {s : State} (h : Ready s) (hrd : checkConfigRd s = .ok ()) (hpr : checkConfigPr s = .ok ()) :
    exec .sfRun s = .next (settle .sf (clearDone s) ((rdBlock (clearDone s)).bind fun t => (prBlock t).map finish)) := by
  have hbody : runBody .sf (clearDone s) = (rdBlock (clearDone s)).bind fun t => (prBlock t).map finish := by
    have hrd' : checkConfigRd (clearDone s) = .ok () := hrd
    rw [runBody, sfRunBody_eq, hrd', checkConfigPr_clearDone, hpr]
    rfl
  rw [← hbody]
  exact exec_commandOf_ready .sf h

/-- The residual part of a command, from its start. -/
theorem reaches_of_rdBlock (sf : Bool) {s : State} (hc : checkConfigRd s = .ok ()) :
    Reaches (standAt (.residual sf) (startRd s)) (residualEnd sf s (rdBlock s)) := by
  obtain ⟨-, -, -, hs, -⟩ := checkConfigRd_ok hc
  have h : Reaches (standAt (.residual sf) (startRd s)) (residualEnd sf (startRd s) (rdBlock s)) :=
    reaches_residualEnd s.sampleCount.toNat hs (by simp)
  cases hblock : rdBlock s with
  | ok t => rwa [hblock] at h
  | error e =>
    have hstart : enterFault (rdRunOf sf) e (startRd s) = enterFault (rdRunOf sf) e s :=
      enterFault_startRd _ (midCommand_rdLoop hblock) s s.engine
    rwa [hblock, residualEnd, hstart] at h

/-- The predictor part of a command, from its start. -/
theorem reaches_of_prBlock (sf : Bool) (s : State) :
    Reaches (standAt (.predict sf) (startPr s)) (sampleEnd sf s (prBlock s)) := by
  have h : Reaches (standAt (.predict sf) (startPr s)) (sampleEnd sf (startPr s) (prBlock s)) :=
    reaches_sampleEnd s.sampleCount.toNat (by simp)
  cases hblock : prBlock s with
  | ok t => rwa [hblock] at h
  | error e =>
    have hstart : enterFault (prRunOf sf) e (startPr s) = enterFault (prRunOf sf) e s :=
      enterFault_startPr _ (midCommand_prLoop hblock) s s.engine
    rwa [hblock, sampleEnd, hstart] at h

/-- A fault of SF_RUN's predictor part hides its residual part (R176). -/
theorem enterFault_rdBlock {e : BlockFault} (hmid : midCommand e = true) {s t : State} (hc : checkConfigRd s = .ok ())
    (h : rdBlock s = .ok t) : enterFault .sf e t = enterFault .sf e s :=
  (enterFault_rdMoved true hmid (rdBlock_moved hc h).1).trans (enterFault_startRd .sf hmid s s.engine)

theorem reaches_sfRun {s : State} (hc : checkConfigRd s = .ok ()) :
    Reaches (standAt (.residual true) (startRd s)) (settle .sf s ((rdBlock s).bind fun t => (prBlock t).map finish)) := by
  refine (reaches_of_rdBlock true hc).trans ?_
  cases hblock : rdBlock s with
  | error e => exact .refl _
  | ok t =>
    have h := reaches_of_prBlock true t
    simp only [Except.bind]
    cases hblock' : prBlock t with
    | ok u => rwa [hblock'] at h
    | error e =>
      have hhidden : enterFault (prRunOf true) e t = enterFault .sf e s :=
        enterFault_rdBlock (midCommand_prLoop hblock') hc hblock
      rwa [hblock', sampleEnd, hhidden] at h

/-- Settles O36: the residual part and the predictor part by their loops. -/
theorem wholeCommandIsItsSteps : Obligations.WholeCommandIsItsSteps := by
  unfold Obligations.WholeCommandIsItsSteps
  refine ⟨fun sf s hready hrd hpr => ?_, fun s hready hpr => ?_⟩
  · cases sf with
    | false =>
      rw [if_neg Bool.false_ne_true, exec_rdRun_ready hready hrd]
      have h := reaches_of_rdBlock false (s := clearDone s) hrd
      cases hblock : rdBlock (clearDone s) <;> rwa [hblock] at h
    | true =>
      rw [if_pos rfl, exec_sfRun_ready hready hrd (hpr rfl)]
      exact reaches_sfRun (s := clearDone s) hrd
  · rw [exec_prRun_ready hready hpr]
    have h := reaches_of_prBlock false (clearDone s)
    cases hblock : prBlock (clearDone s) <;> rwa [hblock] at h

end Sys2Proof.Machine
end

section
/-! PROOFS. How every working command ends, and what a fault leaves (R134, R170, R176, R208). -/

namespace Sys2Proof.Machine

/-- The codes the table of R170 gives each command hold the codes of all the faults it raises. -/
theorem faultCode_of_command (run : Run) : ∀ e ∈ configFaults run ++ midFaults run,
    (commandOf run = .rdRun → faultCodeOf e ∈ ([1, 4, 5, 6, 8] : List Byte))
    ∧ (commandOf run = .prRun → faultCodeOf e ∈ ([2, 3, 4, 7, 9, 10] : List Byte))
    ∧ (commandOf run = .sfRun → faultCodeOf e ∈ ([1, 2, 3, 4, 5, 6, 7, 8, 9, 10] : List Byte)) := by
  cases run <;> decide

/-- The outcome of an accepted working command: a fault of its own, entered from the state it started in, or completion. -/
theorem exec_commandOf_ends {s : State} (run : Run) (h : Ready s) :
    (∃ e, e ∈ configFaults run ++ midFaults run ∧ exec (commandOf run) s = .next (enterFault run e (clearDone s)))
      ∨ ∃ m, Worked (clearDone s) m ∧ exec (commandOf run) s = .next (finish m) := by
  have hexec := exec_commandOf_ready run h
  have hends := runBody_ends run (clearDone s)
  generalize runBody run (clearDone s) = r at hexec hends
  cases hends with
  | config he => exact .inl ⟨_, List.mem_append_left _ he, hexec⟩
  | fault _ he => exact .inl ⟨_, List.mem_append_right _ he, hexec⟩
  | completed _ hw => exact .inr ⟨_, hw, hexec⟩

/-- Settles O42: by the two ways a working command ends. -/
theorem workingCommandEnds : Obligations.WorkingCommandEnds := by
  unfold Obligations.WorkingCommandEnds
  intro s i hready hi
  obtain ⟨run, rfl⟩ := exists_commandOf hi
  rcases exec_commandOf_ends run hready with ⟨e, he, hexec⟩ | ⟨m, hw, hexec⟩
  · refine ⟨_, hexec, enterFault_engine .., .inr ⟨enterFault_fault .., enterFault_done .., ?_⟩⟩
    rw [enterFault_faultCode]
    exact faultCode_of_command run e he
  · exact ⟨_, hexec, rfl, .inl ⟨⟨rfl, hw.fault.trans hready.2⟩, hw.faultCode⟩⟩

/-! ### What a fault leaves -/

theorem enterFault_resWord {run : Run} {e : BlockFault} {s : State} {j : Nat}
    (h : usesRes run = false ∨ s.sampleCount.toNat ≤ j) : resWord (enterFault run e s) j = resWord s j := by
  refine resWord_congr ?_
  unfold enterFault
  split
  · rw [recordFault_res, unspecify_res]
    split
    case isTrue huses =>
      have hj := h.resolve_left (by simp [huses])
      rw [Memory.get?_fill, if_neg (Nat.not_lt.2 hj)]
    case isFalse => rfl
  · rfl

theorem enterFault_smpWord {run : Run} {e : BlockFault} {s : State} {j : Nat}
    (h : usesSmp run = false ∨ s.sampleCount.toNat ≤ j) : smpWord (enterFault run e s) j = smpWord s j := by
  refine smpWord_congr ?_
  unfold enterFault
  split
  · rw [recordFault_smp, unspecify_smp]
    split
    case isTrue huses =>
      have hj := h.resolve_left (by simp [huses])
      rw [Memory.get?_fill, if_neg (Nat.not_lt.2 hj)]
    case isFalse => rfl
  · rfl

theorem enterFault_coefWord {run : Run} {e : BlockFault} {s : State} {j : Nat} (h : s.order.toNat ≤ j) :
    coefWord (enterFault run e s) j = coefWord s j := by
  unfold enterFault
  split
  · change (freeCoefs s)[j]?.getD 0 = s.coef[j]?.getD 0
    by_cases hj : j < 32
    · simp [freeCoefs, hj, Nat.not_lt.2 h]
    · simp [hj]
  · rfl

theorem sameParameterRegisters_enterFault (run : Run) (e : BlockFault) (s : State) :
    SameParameterRegisters s (enterFault run e s) := by
  simp [SameParameterRegisters]

/-- The codes of the checks are not those of the faults in the middle of a command. -/
theorem faultCode_of_midCommand {e : BlockFault} (h : midCommand e = true) : faultCodeOf e ∉ ([2, 3, 4] : List Byte) := by
  revert h
  cases e <;> decide

/-- Settles O43: by what `enterFault` leaves, from the state the command started in. -/
theorem faultLeavesTheRest : Obligations.FaultLeavesTheRest := by
  unfold Obligations.FaultLeavesTheRest
  intro s t i hready hi h ht
  obtain ⟨run, rfl⟩ := exists_commandOf hi
  rcases exec_commandOf_ends run hready with ⟨e, -, hexec⟩ | ⟨m, hw, hexec⟩
  swap
  · obtain rfl := Host.Outcome.next.inj (hexec.symm.trans h)
    cases (hw.fault.trans hready.2).symm.trans ht
  obtain rfl := Host.Outcome.next.inj (hexec.symm.trans h)
  refine ⟨fun hcode => ?_, sameParameterRegisters_enterFault run e (clearDone s), enterFault_params .., enterFault_host ..,
    enterFault_reply .., enterFault_reads .., bsByte_congr (enterFault_bsmem ..), fun j hj => ?_,
    fun j hj => enterFault_coefWord (s := clearDone s) hj, fun hrun j => ?_, fun hrun j => ?_⟩
  · rw [enterFault_faultCode] at hcode ⊢
    have hmid : midCommand e = false := by
      rw [Bool.eq_false_iff]
      exact fun hmid => faultCode_of_midCommand hmid hcode
    rw [enterFault_of_idle hmid (s := clearDone s) hready.1]
    rfl
  · exact ⟨enterFault_resWord (s := clearDone s) (.inr hj), enterFault_smpWord (s := clearDone s) (.inr hj)⟩
  · have huses : usesSmp run = false := by
      cases run with
      | rd => rfl
      | pr | sf => cases hrun
    exact enterFault_smpWord (s := clearDone s) (.inl huses)
  · have huses : usesRes run = false := by
      cases run with
      | pr => rfl
      | rd | sf => cases hrun
    exact enterFault_resWord (s := clearDone s) (.inl huses)

end Sys2Proof.Machine
end

section
/-! PROOFS. What no instruction changes (R17 to R27, R34, R52), what RD_RUN and PR_RUN do not look at (R100, R118), and that FAULT
holds commands back (R177). -/

namespace Sys2Proof.Machine

/-! ### The stream, the parameters, the host's side and the parameter registers -/

/-- BSMEM, the parameters and the host's side are the same. -/
structure SameStream (s t : State) : Prop where
  bsmem : t.bsmem = s.bsmem
  params : t.params = s.params
  host : t.host = s.host
  reply : t.reply = s.reply
  reads : t.reads = s.reads

/-- The parameter registers are the same as well. -/
structure Kept (s t : State) : Prop where
  stream : SameStream s t
  registers : SameParameterRegisters s t

theorem Kept.refl (s : State) : Kept s s := ⟨⟨rfl, rfl, rfl, rfl, rfl⟩, ⟨rfl, rfl, rfl, rfl, rfl, rfl, rfl, rfl, rfl, rfl⟩⟩

/-- What keeps them from the start of a command on keeps them from before it. -/
theorem Kept.of_clearDone {s t : State} (h : Kept (clearDone s) t) : Kept s t :=
  ⟨⟨h.stream.bsmem, h.stream.params, h.stream.host, h.stream.reply, h.stream.reads⟩, h.registers⟩

theorem kept_clearFault (s : State) : Kept s (clearFault s) :=
  ⟨⟨rfl, rfl, rfl, rfl, rfl⟩, ⟨rfl, rfl, rfl, rfl, rfl, rfl, rfl, rfl, rfl, rfl⟩⟩

theorem kept_recordFault (e : BlockFault) (s : State) : Kept s (recordFault e s) :=
  ⟨⟨rfl, rfl, rfl, rfl, rfl⟩, ⟨rfl, rfl, rfl, rfl, rfl, rfl, rfl, rfl, rfl, rfl⟩⟩

theorem kept_enterFault (run : Run) (e : BlockFault) (s : State) : Kept s (enterFault run e s) :=
  ⟨⟨enterFault_bsmem .., enterFault_params .., enterFault_host .., enterFault_reply .., enterFault_reads ..⟩,
    sameParameterRegisters_enterFault run e s⟩

theorem Worked.kept {s t : State} (h : Worked s t) : Kept s t := by
  refine ⟨⟨?_, ?_, ?_, ?_, ?_⟩, ⟨?_, ?_, ?_, ?_, ?_, ?_, ?_, ?_, ?_, ?_⟩⟩ <;> rw [h.frame]

theorem Kept.finish {s t : State} (h : Kept s t) : Kept s (finish t) :=
  ⟨⟨h.stream.bsmem, h.stream.params, h.stream.host, h.stream.reply, h.stream.reads⟩, h.registers⟩

theorem CodewordUnchanged.kept {s t : State} (h : CodewordUnchanged s t) : Kept s t := by
  refine ⟨⟨?_, ?_, ?_, ?_, ?_⟩, ⟨?_, ?_, ?_, ?_, ?_, ?_, ?_, ?_, ?_, ?_⟩⟩ <;> rw [h]

theorem kept_codeword {c : Codeword} {s t : State} (h : codeword c s = .next t) : Kept s t := by
  cases codeword_step h with
  | fault run e => exact kept_enterFault run e s
  | residual sf m v _ hframe _ => exact (goOn_unchanged hframe sf).1.kept
  | zeros sf n _ =>
    exact (afterResidual_unchanged (s := s) (m := insertZeros (codewordValue c) (advance n s)) rfl sf).1.kept

theorem kept_commandOf {run : Run} {s t : State} (hidle : s.engine = .idle) (h : exec (commandOf run) s = .next t) :
    Kept s t := by
  rw [exec_commandOf] at h
  rcases ifAccepted_idle_cases hidle h with ⟨-, rfl⟩ | ⟨-, rfl⟩
  · exact .refl _
  · have hends := runBody_ends run (clearDone s)
    generalize runBody run (clearDone s) = r at hends
    cases hends with
    | config _ | fault _ _ => exact (kept_enterFault run _ (clearDone s)).of_clearDone
    | completed _ hw => exact hw.kept.finish.of_clearDone

/-- An instruction other than SOFT_RESET keeps them all. -/
theorem kept_exec {i : Instr} (hi : i ≠ .softReset) {s t : State} (h : exec i s = .next t) : Kept s t := by
  cases hc : i.codeword? with
  | some c => rw [exec_codeword hc] at h; exact kept_codeword h
  | none =>
    by_cases hidle : s.engine = .idle
    swap
    · rw [exec_command_busy hidle hc] at h; cases h
    cases i with
    | nop => obtain rfl := Host.Outcome.next.inj ((ifAccepted_self hidle).symm.trans h); exact .refl _
    | rdRun => exact kept_commandOf (run := .rd) hidle h
    | prRun => exact kept_commandOf (run := .pr) hidle h
    | sfRun => exact kept_commandOf (run := .sf) hidle h
    | clrFault => obtain rfl := Host.Outcome.next.inj ((ifIdle_idle hidle).symm.trans h); exact kept_clearFault s
    | softReset => exact absurd rfl hi
    | reservedCmd w =>
      rcases ifAccepted_idle_cases hidle h with ⟨-, rfl⟩ | ⟨-, rfl⟩
      · exact .refl _
      · exact kept_recordFault _ s
    | _ => nomatch hc

/-- SOFT_RESET keeps the stream, the parameters and the host's side (R133). -/
theorem sameStream_softReset {s t : State} (h : exec .softReset s = .next t) : SameStream s t := by
  by_cases hidle : s.engine = .idle
  · obtain rfl := Host.Outcome.next.inj ((ifIdle_idle hidle).symm.trans h)
    exact ⟨rfl, rfl, rfl, rfl, rfl⟩
  · rw [exec_command_busy hidle rfl] at h; cases h

/-- Settles O47: SOFT_RESET apart, by `kept_exec`. -/
theorem instructionsKeepStreamAndParameters : Obligations.InstructionsKeepStreamAndParameters := by
  unfold Obligations.InstructionsKeepStreamAndParameters
  intro i s t h
  have hstream : SameStream s t := by
    by_cases hi : i = .softReset
    · subst hi; exact sameStream_softReset h
    · exact (kept_exec hi h).stream
  exact ⟨hstream.bsmem, hstream.params, hstream.host, hstream.reply, hstream.reads, fun hi => (kept_exec hi h).registers⟩

/-! ### What a command does not look at -/

/-- A change of state that leaves the status and the engine alone and commutes with the start of a command. -/
structure StatusBlind (f : State → State) : Prop where
  done : ∀ s, (f s).done = s.done
  fault : ∀ s, (f s).fault = s.fault
  faultCode : ∀ s, (f s).faultCode = s.faultCode
  engine : ∀ s, (f s).engine = s.engine
  clearDone : ∀ s, clearDone (f s) = f (clearDone s)

/-- A command whose body commutes with such a change ends with the same status, and where it does not fault with the state
changed alike. -/
theorem StatusBlind.exec_commandOf {f : State → State} (h : StatusBlind f) {run : Run}
    (hbody : ∀ s, runBody run (f s) = (runBody run s).map f) {s t : State} (hexec : exec (commandOf run) s = .next t) :
    ∃ u, exec (commandOf run) (f s) = .next u ∧ u.done = t.done ∧ u.fault = t.fault ∧ u.faultCode = t.faultCode
      ∧ (t.fault = false → u = f t) := by
  have hidle : s.engine = .idle := by
    by_contra hbusy
    rw [exec_command_busy hbusy (by cases run <;> rfl)] at hexec
    cases hexec
  have hidle' : (f s).engine = .idle := (h.engine s).trans hidle
  rw [Machine.exec_commandOf] at hexec
  rcases ifAccepted_idle_cases hidle hexec with ⟨hfault, rfl⟩ | ⟨hfault, rfl⟩
  · refine ⟨f t, ?_, h.done t, h.fault t, h.faultCode t, fun _ => rfl⟩
    rw [Machine.exec_commandOf]
    exact ifAccepted_fault hidle' ((h.fault t).trans hfault)
  · refine ⟨_, exec_commandOf_ready run ⟨hidle', (h.fault s).trans hfault⟩, ?_⟩
    rw [h.clearDone, hbody]
    cases runBody run (Machine.clearDone s) with
    | ok m => exact ⟨h.done m, h.fault m, h.faultCode m, fun _ => rfl⟩
    | error e =>
      simp only [Except.map, settle, enterFault_done, enterFault_fault, enterFault_faultCode, h.done, true_and]
      exact nofun

/-- The predictor's registers and SMP exchanged for others. -/
def setPredictor (pt sh o : Word) (cs : Vector Word 32) (m : Memory 32) (s : State) : State :=
  { s with predType := pt, qlpShift := sh, order := o, coef := cs, smp := m }

theorem rdBlind_setPredictor (pt sh o : Word) (cs : Vector Word 32) (m : Memory 32) :
    RdBlind (setPredictor pt sh o cs m) := by
  constructor <;> intros <;> rfl

/-- Settles O48: RD_RUN commutes with a change of what the predictor looks at. -/
theorem rdRunIgnoresPredictorState : Obligations.RdRunIgnoresPredictorState := by
  unfold Obligations.RdRunIgnoresPredictorState
  intro s t pt sh o cs m h
  have hblind : StatusBlind (setPredictor pt sh o cs m) := by constructor <;> intros <;> rfl
  have hbody : ∀ s, runBody .rd (setPredictor pt sh o cs m s) = (runBody .rd s).map (setPredictor pt sh o cs m) :=
    (rdBlind_setPredictor pt sh o cs m).rdRunBody (fun _ => rfl) (fun _ => rfl)
  obtain ⟨u, hu, hdone, hfault, hcode, hsame⟩ := hblind.exec_commandOf hbody h
  exact ⟨u, hu, hdone, hfault, hcode, fun ht => by rw [hsame ht]; exact ⟨rfl, rfl, rfl, rfl, rfl⟩⟩

/-- The cursor, the stream and the decoder's own registers exchanged for others. -/
def setDecoder (bp h sz rm : Word) (b : Bool) (m : Memory 8) (s : State) : State :=
  { s with bitpos := bp, history := h, sampleSize := sz, riceModifier := rm, signModifier := b, bsmem := m }

theorem prBlind_setDecoder (bp h sz rm : Word) (b : Bool) (m : Memory 8) : PrBlind (setDecoder bp h sz rm b m) := by
  constructor <;> intros <;> rfl

theorem checkConfigPr_setDecoder (bp h sz rm : Word) (b : Bool) (m : Memory 8) (s : State) :
    checkConfigPr (setDecoder bp h sz rm b m s) = checkConfigPr s :=
  checkConfigPr_congr rfl rfl rfl rfl rfl rfl

/-- Settles O49: PR_RUN commutes with a change of what the decoder looks at. -/
theorem prRunIgnoresStreamState : Obligations.PrRunIgnoresStreamState := by
  unfold Obligations.PrRunIgnoresStreamState
  intro s t bp h sz rm b m hexec
  have hblind : StatusBlind (setDecoder bp h sz rm b m) := by constructor <;> intros <;> rfl
  have hbody : ∀ s, runBody .pr (setDecoder bp h sz rm b m s) = (runBody .pr s).map (setDecoder bp h sz rm b m) :=
    (prBlind_setDecoder bp h sz rm b m).prRunBody (fun _ => rfl) (checkConfigPr_setDecoder bp h sz rm b m) (fun _ => rfl)
      (fun _ => rfl)
  obtain ⟨u, hu, hdone, hfault, hcode, hsame⟩ := hblind.exec_commandOf hbody hexec
  exact ⟨u, hu, hdone, hfault, hcode, fun ht => by rw [hsame ht]; exact ⟨rfl, rfl, rfl⟩⟩

/-! ### FAULT holds commands back -/

/-- Settles O41: every command but the two is subject to acceptance. -/
theorem faultHoldsCommandsBack : Obligations.FaultHoldsCommandsBack := by
  unfold Obligations.FaultHoldsCommandsBack
  intro s i hidle hfault hc hclr hreset
  cases i with
  | nop | rdRun | prRun | sfRun | reservedCmd _ => exact ifAccepted_fault hidle hfault
  | clrFault => exact absurd rfl hclr
  | softReset => exact absurd rfl hreset
  | _ => nomatch hc

end Sys2Proof.Machine
end

section
/-! PROOFS. Steps and the host's accesses (R8, R15, R40, R42, R43, R134 to R137), and the reset state (R190). -/

namespace Sys2Proof.Machine

/-- Settles O53: by what comes next at each point of the engine. -/
theorem stepRunsDecodedInstruction : Obligations.StepRunsDecodedInstruction := by
  unfold Obligations.StepRunsDecodedInstruction
  refine ⟨fun s w rest he hh => step_command he hh, fun s sf i more he hi hdecode => ?_,
    fun s sf zk i more he hzk hdecode => ?_, fun s he hh => step_idle he hh⟩
  · simp only [step, nextEvent, he, if_pos hi, fetchCodeword, hdecode, perform_run]
  · simp only [step, nextEvent, he, hzk, fetchCodeword, Config.zrunWidth, hdecode, perform_run]

/-! ### Registers -/

/-- An offset of a coefficient is one of the 32 (R38). -/
theorem regAt_coef_lt {off i : Nat} (h : regAt off = some (.coef i)) : i < 32 := by
  unfold regAt at h
  split at h
  case h_19 =>
    split at h
    case isTrue hrange =>
      obtain rfl : (off - 0x080) / 4 = i := by simpa using h
      omega
    case isFalse => cases h
  all_goals simp at h

theorem coefWord_setIfInBounds (s : State) (i j : Nat) (w : Word) :
    coefWord { s with coef := s.coef.setIfInBounds i w } j = if j = i ∧ i < 32 then w else coefWord s j := by
  simp only [coefWord, Vector.getElem?_setIfInBounds]
  by_cases h : i = j
  · subst h
    by_cases h' : i < 32 <;> simp [h']
  · simp [h, Ne.symm h]

theorem readReg_writeReg_same {s : State} {off : Nat} {w : Word} {r : Reg} (hr : regAt off = some r)
    (hw : writable r = true) : readReg (writeReg s w r) r = some w := by
  cases r with
  | coef i => exact congrArg some ((coefWord_setIfInBounds s i i w).trans (if_pos ⟨rfl, regAt_coef_lt hr⟩))
  | cmd | status | faultCode | history | signModifier | rdIdx | prIdx => cases hw
  | _ => rfl

theorem readReg_writeReg_other {s : State} {w : Word} {r r' : Reg} (h : r' ≠ r) :
    readReg (writeReg s w r) r' = readReg s r' := by
  cases r with
  | coef i =>
    cases r' with
    | coef j =>
      have hj : j ≠ i := fun hij => h (hij ▸ rfl)
      exact congrArg some ((coefWord_setIfInBounds s i j w).trans (if_neg fun hc => hj hc.1))
    | _ => rfl
  | _ => cases r' <;> simp_all [readReg, writeReg, statusWord, busy, coefWord]

/-- A write to a register that is not RW, or to none, changes nothing (R10, R42). -/
theorem hostWr_of_not_writable {off : Nat} {w : Word} {s : State} (h : ∀ r, regAt off = some r → writable r = false) :
    hostWr off w s = s := by
  unfold hostWr
  split
  case h_1 r hr =>
    have hro := h r hr
    cases r with
    | cmd | status | faultCode | history | signModifier | rdIdx | prIdx => rfl
    | _ => cases hro
  case h_2 => rfl

theorem readReg_popHost (rest : List HostAccess) (s : State) (r : Reg) : readReg (popHost rest s) r = readReg s r := by
  cases r <;> rfl

theorem readReg_answer (w : Word) (s : State) (r : Reg) : readReg (answer w s) r = readReg s r := by cases r <;> rfl

theorem readReg_afterWrite (s : State) (rest : List HostAccess) (r : Reg) :
    readReg (afterWrite s rest) r = readReg s r := by
  cases r <;> rfl

theorem runSteps_two {s t u : State} (h : step s = .next t) (h' : step t = .next u) : runSteps 2 s = .next u := by
  rw [runSteps_succ h, runSteps_succ h', runSteps_zero]

/-- Settles O54: the write stores the word, and the read returns what the register holds. -/
theorem registerReadsBackWordWritten : Obligations.RegisterReadsBackWordWritten := by
  unfold Obligations.RegisterReadsBackWordWritten
  intro s off w r rest he hr hw hh
  have hoff : off ≠ 0 := by
    rintro rfl
    obtain rfl := Option.some.inj hr
    cases hw
  have hwrite := step_write he hh hoff
  have hwr : hostWr off w (afterWrite s (.rd off :: rest)) = writeReg (afterWrite s (.rd off :: rest)) w r := by
    simp only [hostWr, hr]
  rw [hwr] at hwrite
  obtain ⟨-, -, -, -, -, -, hengine, hhost⟩ := writeReg_keeps (afterWrite s (.rd off :: rest)) w r
  have hread := step_read (hengine.trans he) (off := off) (rest := rest) hhost
  refine ⟨_, runSteps_two hwrite hread, ?_, rfl, fun r' hr' => ?_⟩
  · have hword : hostRd off (popHost rest (writeReg (afterWrite s (.rd off :: rest)) w r)) = w := by
      simp only [hostRd, hr, readReg_popHost, readReg_writeReg_same hr hw, Option.getD_some]
    rw [answer_reply, hword]
  · rw [readReg_answer, readReg_popHost, readReg_writeReg_other hr', readReg_afterWrite]

/-- Settles O55: such a write stores nothing. -/
theorem refusedRegisterWriteHasNoEffect : Obligations.RefusedRegisterWriteHasNoEffect := by
  unfold Obligations.RefusedRegisterWriteHasNoEffect
  intro s off w rest he hoff hro hh
  rw [step_write he hh hoff, hostWr_of_not_writable hro]

/-! ### Reads -/

/-- An access that answers with a word, made twice, where the first answer does not change the word. -/
theorem step_read_twice {s : State} {a : HostAccess} {rest : List HostAccess} {word : State → Word} (he : s.engine = .idle)
    (hserve : ∀ u, serve a u = .done (answer (word u) u)) (hh : s.host = a :: a :: rest)
    (hword : ∀ w, word (popHost rest (answer w (popHost (a :: rest) s))) = word (popHost (a :: rest) s)) :
    ∃ t u, step s = .next t ∧ step t = .next u ∧ u.reply = t.reply
      ∧ t = { s with host := a :: rest, reply := t.reply, reads := s.reads + 1 }
      ∧ u = { t with host := rest, reply := t.reply, reads := t.reads + 1 } := by
  have hfirst := step_serve he hh
  rw [hserve, perform_done] at hfirst
  have hsecond := step_serve (s := answer (word (popHost (a :: rest) s)) (popHost (a :: rest) s)) (a := a) (rest := rest) he rfl
  rw [hserve, perform_done, hword] at hsecond
  exact ⟨_, _, hfirst, hsecond, rfl, rfl, rfl⟩

/-- A read of a location of REG does not depend on how many reads were made (R43, R44). -/
theorem hostRd_answer {off : Nat} (haligned : off % 4 = 0) (hoff : off ≤ 0x0FC) (w : Word) (rest rest' : List HostAccess)
    (s : State) : hostRd off (popHost rest (answer w (popHost rest' s))) = hostRd off (popHost rest' s) := by
  unfold hostRd
  split
  · rw [readReg_popHost, readReg_answer]; rfl
  · rw [if_pos ⟨haligned, hoff⟩, if_pos ⟨haligned, hoff⟩]; rfl

/-- Settles O56: by the kind of read. -/
theorem readsAreIdempotent : Obligations.ReadsAreIdempotent := by
  unfold Obligations.ReadsAreIdempotent
  intro s a rest he hread hh
  obtain ⟨off, rfl, haligned, hoff⟩ | ⟨j, rfl, hj⟩ | ⟨j, rfl, hj⟩ | ⟨x, rfl, hx⟩ := hread
  · exact step_read_twice (word := hostRd off) he (fun _ => rfl) hh fun w => hostRd_answer haligned hoff w ..
  · refine step_read_twice (word := hostRres j) he (fun _ => rfl) hh fun w => ?_
    exact (if_pos hj).trans (if_pos hj).symm
  · refine step_read_twice (word := hostRsmp j) he (fun _ => rfl) hh fun w => ?_
    exact (if_pos hj).trans (if_pos hj).symm
  · refine step_read_twice (word := hostRbs x) he (fun _ => rfl) hh fun w => ?_
    exact (if_pos hx).trans (if_pos hx).symm

/-! ### Buffers -/

theorem step_wres {s : State} {j : Nat} {v : Word} {rest : List HostAccess} (he : s.engine = .idle)
    (hh : s.host = .wres j v :: rest) : step s = .next (hostWres j v (afterWrite s rest)) := step_serve he hh

theorem step_wbs {s : State} {a : Nat} {b : Byte} {rest : List HostAccess} (he : s.engine = .idle)
    (hh : s.host = .wbs a b :: rest) : step s = .next (hostWbs a b (afterWrite s rest)) := step_serve he hh

theorem hostRres_hostWres {s : State} {j : Nat} (hj : j < s.params.maxn) (v : Word) :
    hostRres j (hostWres j v s) = v := by
  have hword : resWord { s with res := s.res.set j v } j = v := by rw [resWord, Memory.get?_set_same, Option.getD_some]
  rw [hostWres, if_pos hj]
  exact (if_pos hj).trans hword

theorem resWord_hostWres_other {s : State} {j j' : Nat} (hj : j' ≠ j) (v : Word) :
    resWord (hostWres j v s) j' = resWord s j' := by
  unfold hostWres
  split
  · exact resWord_congr (Memory.get?_set_other _ _ hj)
  · rfl

/-- Settles O57: by the bound on the index. -/
theorem residualBufferAccess : Obligations.ResidualBufferAccess := by
  unfold Obligations.ResidualBufferAccess
  refine fun s j v rest he => ⟨fun hh hj => ?_, fun hh hj => ?_, fun hh => step_serve he hh⟩
  · have hwres : hostWres j v (afterWrite s rest) = { afterWrite s rest with res := s.res.set j v } := if_pos hj
    exact ⟨_, step_wres he hh, by rw [hwres], hostRres_hostWres (s := afterWrite s rest) hj v,
      fun j' hj' => resWord_hostWres_other (s := afterWrite s rest) hj' v⟩
  · rw [step_wres he hh]
    exact congrArg _ (if_neg (Nat.not_lt.2 hj))

theorem bsByte_hostWbs_same {s : State} {a : Nat} (ha : a < s.params.bsbytes) (b : Byte) :
    bsByte (hostWbs a b s) a = b := by
  rw [hostWbs, if_pos ha, bsByte, Memory.get?_set_same, Option.getD_some]

theorem bsByte_hostWbs_other {s : State} {a a' : Nat} (ha : a' ≠ a) (b : Byte) :
    bsByte (hostWbs a b s) a' = bsByte s a' := by
  unfold hostWbs
  split
  · rw [bsByte, Memory.get?_set_other _ _ ha, bsByte]
  · rfl

theorem hostRbs_hostWbs {s : State} {a : Nat} (ha : a < s.params.bsbytes) (b : Byte) :
    hostRbs a (hostWbs a b s) = b.setWidth 32 := by
  have hparams : (hostWbs a b s).params = s.params := by rw [hostWbs, if_pos ha]
  rw [hostRbs, hparams, if_pos ha, bsByte_hostWbs_same ha]

/-- Settles O58: a stream bit lies in the byte of its index divided by 8 (R40). -/
theorem byteWriteSetsStreamBits : Obligations.ByteWriteSetsStreamBits := by
  unfold Obligations.ByteWriteSetsStreamBits
  refine fun s a b rest he hh => ⟨fun ha => ?_, fun ha => ?_⟩
  · have ha' : a < (afterWrite s rest).params.bsbytes := ha
    have hwbs : hostWbs a b (afterWrite s rest) = { afterWrite s rest with bsmem := s.bsmem.set a b } := if_pos ha
    refine ⟨_, step_wbs he hh, by rw [hwbs], hostRbs_hostWbs ha' b, fun j hj => ?_, fun p hp => ?_⟩
    · have hbyte : (8 * a + j) / 8 = a := by omega
      have hbit : (8 * a + j) % 8 = j := by omega
      rw [bitAt, hbyte, hbit, bsByte_hostWbs_same ha']
    · rw [bitAt, bsByte_hostWbs_other hp]
      rfl
  · rw [step_wbs he hh]
    exact congrArg _ (if_neg (Nat.not_lt.2 ha))

/-! ### STATUS -/

theorem statusWord_of_idle {s : State} (he : s.engine = .idle) :
    statusWord s = BitVec.ofNat 32 (2 * s.done.toNat + 4 * s.fault.toNat) := by
  simp [statusWord, busy, he]

theorem statusWord_bits {s : State} (he : s.engine = .idle) :
    (statusWord s).getLsbD 0 = false ∧ (statusWord s).getLsbD 1 = s.done ∧ (statusWord s).getLsbD 2 = s.fault
      ∧ (statusWord s).toNat < 8 := by
  rw [statusWord_of_idle he]
  cases s.done <;> cases s.fault <;> decide

/-- Settles O59: a read is served only while no command runs. -/
theorem statusReadsDoneAndFault : Obligations.StatusReadsDoneAndFault := by
  unfold Obligations.StatusReadsDoneAndFault
  intro s rest he hh
  exact ⟨_, _, step_read he hh, rfl, statusWord_bits (s := popHost rest s) he⟩

/-! ### Reset -/

/-- At its reset values the block's PR_RUN has no sample to make. -/
theorem exec_prRun_reset : exec .prRun State.reset = .next { State.reset with done := true } :=
  (exec_prRun_completed_iff ⟨rfl, rfl⟩ rfl).2 ⟨rfl, State.reset, rfl, rfl⟩

theorem checkConfigRd_reset : checkConfigRd (clearDone State.reset) = .error .config := rfl

/-- At its reset values the block fails the check of SAMPLE_SIZE (R174). -/
theorem exec_commandOf_reset {run : Run} (hbody : runBody run (clearDone State.reset) = .error .config) :
    exec (commandOf run) State.reset = .next { State.reset with fault := true, faultCode := 4 } :=
  exec_commandOf_config ⟨rfl, rfl⟩ hbody rfl

/-- Settles O60: the registers as SOFT_RESET leaves them, the buffers with nothing listed, and the three commands by their
checks. -/
theorem resetState : Obligations.ResetState := by
  unfold Obligations.ResetState
  refine ⟨fun r hr => readReg_reset hr, rfl, fun _ => rfl, fun _ => rfl, fun _ => rfl, ?_, ?_, exec_prRun_reset⟩
  · refine exec_commandOf_reset (run := .rd) ?_
    rw [runBody, rdRunBody_eq, checkConfigRd_reset]
    rfl
  · refine exec_commandOf_reset (run := .sf) ?_
    rw [runBody, sfRunBody_eq, checkConfigRd_reset]
    rfl

end Sys2Proof.Machine
end
